-- ==== Sys2Proof/Word.lean ====
section
/-! DEFINITION. The word types of the block's interfaces and memory (spec 00_scope.md R9, 10_state.md R20,
30_encoding.md R61, R66). Every value is unsigned; bit 0 is the least significant bit. -/

namespace Sys2Proof

/-- One bit: `CS`, `BATCH`, `inv`, `val`, and the `cs` and `dc` fields of a transaction. -/
abbrev Bit := BitVec 1

/-- One byte: a coordinate operand, a box register, a page byte. -/
abbrev Byte := BitVec 8

/-- A command word in the format `CW24` (30_encoding.md R61). -/
abbrev CommandWord := BitVec 24

/-- A transaction word in the format `TX10` (30_encoding.md R66). -/
abbrev TxWord := BitVec 10

/-- An address of CACHE, and the flat address of a display RAM byte (20_memory.md R41, R47). -/
abbrev CacheAddr := BitVec 10

end Sys2Proof
end

