-- ==== Sys2Proof/Syntax.lean ====
section
/-! DEFINITION. The commands of the block, one constructor per row of spec/opcode_table.json
(30_encoding.md R63), with the operands each row uses (R62, R65). -/

namespace Sys2Proof

/-- The seven commands. Operands are immediates as they stand in the word (30_encoding.md R62). -/
inductive Instr where
  /-- `GOTOXY x, y` (40_addressing.md R85). -/
  | gotoxy (x y : Byte)
  /-- `WRDATA d, inv` (41_cache_access.md R90). -/
  | wrdata (d : Byte) (inv : Bit)
  /-- `RDDATA` (41_cache_access.md R91). -/
  | rddata
  /-- `SETPIX x, y, val` (42_setpixel.md R101). -/
  | setpix (x y : Byte) (val : Bit)
  /-- `DWSTART` (43_coalescer.md R110). -/
  | dwstart
  /-- `DWUPDATE x, y` (43_coalescer.md R111). -/
  | dwupdate (x y : Byte)
  /-- `DWEND` (43_coalescer.md R112). -/
  | dwend
  deriving DecidableEq, Repr

end Sys2Proof
end

