-- ==== Sys2Proof/WellFormed.lean ====
section
/-! DEFINITION. What is well-formed. A command of `Instr` always is: its operands have exactly the widths of
their fields and the spec accepts every value of them (30_encoding.md R62, 40_addressing.md R80), so there is no
ill-formed `Instr` to refuse. Checks are made where an ill-formed term can be written: on a 24-bit command word
(reserved or not, R64; written by the assembler or not, R65) and on a line of assembly, whose operands are
numerals (R71, R72). -/

namespace Sys2Proof

/-- The command word is reserved: `Z` is not 0, or `OP` is 0x0 or 0x8 to 0xF (30_encoding.md R64). -/
abbrev CommandWord.Reserved (w : CommandWord) : Prop :=
  w.extractLsb' 17 3 ≠ 0 ∨ w.extractLsb' 20 4 = 0 ∨ 8 ≤ w.extractLsb' 20 4

/-- The bits of the fields the word's command reads, with `OP` and `Z` (30_encoding.md R63, column "used
fields"). -/
def CommandWord.readMask (w : CommandWord) : CommandWord :=
  match (w.extractLsb' 20 4).toNat with
  | 1 => 0xFEFFFF
  | 2 => 0xFFFF00
  | 3 => 0xFE0000
  | 4 => 0xFFFFFF
  | 5 => 0xFE0000
  | 6 => 0xFEFFFF
  | 7 => 0xFE0000
  | _ => 0xFFFFFF

/-- A well-formed command word: one the assembler writes, that is not reserved and has zero in every field its
command does not read (30_encoding.md R64, R65). -/
abbrev CommandWord.WellFormed (w : CommandWord) : Prop :=
  ¬ CommandWord.Reserved w ∧ w &&& CommandWord.readMask w = w

/-- One line of assembly (30_encoding.md R71) or one pseudo-instruction (R72), its operands still numerals. -/
inductive AsmLine where
  | gotoxy (x y : Nat)
  | wrdata (d inv : Nat)
  | rddata
  | setpix (x y val : Nat)
  | dwstart
  | dwupdate (x y : Nat)
  | dwend
  /-- `BLIT b0, b1, ...` -/
  | blit (bytes : List Nat)
  /-- `FILL n, d` -/
  | fill (n d : Nat)
  | clrall
  deriving DecidableEq, Repr

/-- The operands of a line are in the ranges of 30_encoding.md R71 (column "operands"); `BLIT` names at least
one byte (R72). -/
def AsmLine.wellFormed (l : AsmLine) : Bool :=
  match l with
  | .gotoxy x y => decide (x ≤ 255) && decide (y ≤ 255)
  | .wrdata d inv => decide (d ≤ 255) && decide (inv ≤ 1)
  | .rddata => true
  | .setpix x y val => decide (x ≤ 255) && decide (y ≤ 255) && decide (val ≤ 1)
  | .dwstart => true
  | .dwupdate x y => decide (x ≤ 255) && decide (y ≤ 255)
  | .dwend => true
  | .blit bytes => !bytes.isEmpty && bytes.all fun b => decide (b ≤ 255)
  | .fill _ d => decide (d ≤ 255)
  | .clrall => true

end Sys2Proof
end

