-- ==== Sys2Proof/Decode.lean ====
section
/-! DEFINITION. The decoder of command words, total and rejecting by name (30_encoding.md R70), and the encoder
of commands written from the same format (R61, R63, R71). -/

namespace Sys2Proof

/-- Why a command word is reserved (30_encoding.md R64). -/
inductive ReservedReason where
  /-- `Z` holds this value, not 0b000. -/
  | zField (z : BitVec 3)
  /-- `OP` holds this value, to which no command is assigned. -/
  | opcode (op : BitVec 4)
  deriving DecidableEq, Repr

/-- Field `OP`, bits 23:20 (30_encoding.md R61). -/
def fieldOP (w : CommandWord) : BitVec 4 := w.extractLsb' 20 4

/-- Field `Z`, bits 19:17. -/
def fieldZ (w : CommandWord) : BitVec 3 := w.extractLsb' 17 3

/-- Field `F`, bit 16. -/
def fieldF (w : CommandWord) : Bit := w.extractLsb' 16 1

/-- Field `A`, bits 15:8. -/
def fieldA (w : CommandWord) : Byte := w.extractLsb' 8 8

/-- Field `B`, bits 7:0. -/
def fieldB (w : CommandWord) : Byte := w.extractLsb' 0 8

/-- The command a word stands for, or why it is reserved. The test of `Z` comes first (30_encoding.md R70,
60_exceptions.md R123 a). -/
def decode (w : CommandWord) : Except ReservedReason Instr :=
  if fieldZ w ≠ 0 then .error (.zField (fieldZ w))
  else
    match (fieldOP w).toNat with
    | 1 => .ok (.gotoxy (fieldA w) (fieldB w))
    | 2 => .ok (.wrdata (fieldA w) (fieldF w))
    | 3 => .ok .rddata
    | 4 => .ok (.setpix (fieldA w) (fieldB w) (fieldF w))
    | 5 => .ok .dwstart
    | 6 => .ok (.dwupdate (fieldA w) (fieldB w))
    | 7 => .ok .dwend
    | _ => .error (.opcode (fieldOP w))

/-- A word of format `CW24` from its fields, `Z` zero (30_encoding.md R61). -/
def cw24 (op : BitVec 4) (f : Bit) (a b : Byte) : CommandWord := op ++ (0 : BitVec 3) ++ f ++ a ++ b

/-- The word of a command, every unread field zero (30_encoding.md R65, R71). -/
def encode (i : Instr) : CommandWord :=
  match i with
  | .gotoxy x y => cw24 1 0 x y
  | .wrdata d inv => cw24 2 inv d 0
  | .rddata => cw24 3 0 0 0
  | .setpix x y val => cw24 4 val x y
  | .dwstart => cw24 5 0 0 0
  | .dwupdate x y => cw24 6 0 x y
  | .dwend => cw24 7 0 0 0

/-- The command read from a table row's word of `nbits` bits; a command word is one number, with no byte order
(20_memory.md R43), and bits above `nbits` are zero. -/
def decodeTableWord (nbits w : Nat) : Option Instr :=
  match decode (BitVec.ofNat 24 (w % 2 ^ nbits)) with
  | .ok i => some i
  | .error _ => none

end Sys2Proof
end

