-- ==== Sys2Proof/Config.lean ====
section
/-! DEFINITION. What the spec leaves open: the defaults of the model's two parameters (00_scope.md R6) and
the free values, constants without a body that no proof can see into. -/

namespace Sys2Proof

/-- The default of the parameter `CMD_PAGE_BASE`, which the spec takes from general knowledge (00_scope.md R6,
92 D9, 93 U13, G1). PRESUMED, log 9. -/
def Config.cmdPageBaseDefault : Byte := 0xB8

/-- The default of the parameter `CMD_COL_BASE` (00_scope.md R6, 92 D9, 93 U13, G2). PRESUMED, log 9. -/
def Config.cmdColBaseDefault : Byte := 0x40

/-- FREE VALUE: what byte `a` of CACHE holds after the `k`-th RESET (power-on is 0) until it is written
(10_state.md R35, 93 U1, U6): any value, per reset and per byte. Log 6. -/
opaque Config.cacheReset : Nat → CacheAddr → Byte

/-- FREE VALUE: whether the transaction on offer when the `k`-th RESET is asserted reaches the LCD
(70_reset_and_hazards.md R140, 93 U4). Log 12. -/
opaque Config.offerReached : Nat → Bool

/-- FREE VALUE: the page address register of an LCD half at power-on (10_state.md R35, 93 U3). Log 8. -/
opaque Config.lcdPage : Bit → BitVec 3

/-- FREE VALUE: the column address register of an LCD half at power-on (10_state.md R35, 93 U3). Log 8. -/
opaque Config.lcdCol : Bit → BitVec 6

/-- FREE VALUE: the display RAM byte at a flat address at power-on (10_state.md R35, 93 U3). Log 8. -/
opaque Config.lcdRam : CacheAddr → Byte

end Sys2Proof
end

