-- ==== Sys2Proof/Machine/State.lean ====
section
/-! DEFINITION. The state of the block and of its environment as plain data (10_state.md R20, R31, R32, R35;
20_memory.md R47, R49; 60_exceptions.md R127), and the state right after reset. -/

namespace Sys2Proof.Machine

/-- A byte memory: (address, byte) pairs, addresses strictly rising. An unlisted address holds no value that
anything has written; what the machine reads there is the free value of the memory concerned. Log 7. -/
abbrev Memory := List Host.Cell

/-- A set of addresses, strictly rising. -/
abbrev AddrSet := List Nat

/-- A position of the cursor: chip half, column, page (10_state.md R21 to R23). -/
structure Pos where
  cs : Bit
  col : BitVec 6
  page : BitVec 3
  deriving DecidableEq, Repr

/-- The logical cursor: `CS`, `COL`, `PAGE` and the cache offset tracker `OFFSET` (10_state.md R21 to R24). -/
structure Cursor where
  cs : Bit
  col : BitVec 6
  page : BitVec 3
  offset : CacheAddr
  deriving DecidableEq, Repr

/-- The dirty rectangle: `LEFT`, `RIGHT`, `TOP`, `BOTTOM` (10_state.md R25). -/
structure Box where
  left : Byte
  right : Byte
  top : Byte
  bottom : Byte
  deriving DecidableEq, Repr

/-- A transaction to the transport: chip half, command (0) or data (1), byte (30_encoding.md R66). -/
structure Tx where
  cs : Bit
  dc : Bit
  b : Byte
  deriving DecidableEq, Repr

/-- A word the block offers and its receiver has not accepted (30_encoding.md R60, 60_exceptions.md R127). -/
inductive Offer where
  /-- on TX, to the transport -/
  | tx (t : Tx)
  /-- on RSP, to the host -/
  | rsp (v : Byte)
  deriving DecidableEq, Repr

/-- The readiness of the receiver of a channel (60_exceptions.md R127, `TRANSPORT_LIVE`). Log 4. -/
inductive Receiver where
  /-- accepts every word it is offered -/
  | live
  /-- accepts `n` more words and then, until RESET, none -/
  | stallsAfter (n : Nat)
  deriving DecidableEq, Repr

/-- The two parameters of the model that the spec leaves open (00_scope.md R6, 92 D9): the LCD's "set page" byte
with page 0 and its "set column" byte with column 0. Log 9. -/
structure Params where
  /-- `CMD_PAGE_BASE` -/
  cmdPageBase : Byte
  /-- `CMD_COL_BASE` -/
  cmdColBase : Byte
  deriving DecidableEq, Repr

/-- A RESET the host asserts and releases (70_reset_and_hazards.md R140, R149). Log 3, 20. -/
structure ResetEvent where
  /-- the receiver of TX from then on -/
  transport : Receiver
  /-- the receiver of RSP from then on -/
  reader : Receiver
  /-- whether the host still offers, after it, the command words it was waiting to issue when it asserted it -/
  keepsWaiting : Bool
  deriving DecidableEq, Repr

/-- What the host does next (70_reset_and_hazards.md R149). Log 2, 3, 20. -/
inductive HostEvent where
  /-- issue a command word; it is taken when the block is idle -/
  | command (w : CommandWord)
  /-- assert RESET and release it -/
  | reset (r : ResetEvent)
  deriving DecidableEq, Repr

/-- The address registers of one LCD half: `LP` and `LC` (10_state.md R32). -/
structure LcdRegs where
  page : BitVec 3
  col : BitVec 6
  deriving DecidableEq, Repr

/-- The LCD behind the transport: the registers of its two halves and its display RAM by flat address
(20_memory.md R47). -/
structure Lcd where
  chip1 : LcdRegs
  chip2 : LcdRegs
  ram : Memory
  deriving DecidableEq, Repr

/-- The proof devices VALID and DIRTY of 20_memory.md R49. No command reads them. Log 13. -/
structure Ghost where
  valid : AddrSet
  dirty : AddrSet
  deriving DecidableEq, Repr

/-- The block (its parameters, then the registers and the memory of 10_state.md R20), its channels, and the
environment it acts on. -/
structure State where
  /-- `CMD_PAGE_BASE`, `CMD_COL_BASE`: fixed for the machine, nothing writes them -/
  params : Params
  /-- `CS`, `COL`, `PAGE`, `OFFSET` -/
  cursor : Cursor
  /-- `LEFT`, `RIGHT`, `TOP`, `BOTTOM` -/
  box : Box
  /-- `BATCH` -/
  batch : Bit
  /-- `CACHE` -/
  cache : Memory
  /-- the model's own: how many RESETs have been taken; it picks the free values of log 6 and log 12 -/
  resets : Nat
  /-- the word on offer that blocks the command in progress, if there is one -/
  offer : Option Offer
  /-- the TX stream since reset, the first transaction first (10_state.md R31) -/
  tx : List Tx
  /-- the bytes answered on RSP since reset, the first one first -/
  rsp : List Byte
  /-- what the host does next, the next event first -/
  host : List HostEvent
  /-- the receiver of TX -/
  transport : Receiver
  /-- the receiver of RSP -/
  reader : Receiver
  /-- the LCD -/
  lcd : Lcd
  /-- VALID and DIRTY -/
  ghost : Ghost
  deriving DecidableEq, Repr

/-- Faults: none. The block raises no exception and no command can fail (60_exceptions.md R120). Log 16. -/
inductive Fault where
  deriving DecidableEq, Repr

/-- Refusals. No meaning of this model refuses. -/
inductive Refusal where
  /-- Raised by an arm of `exec` for a command that has no meaning yet; safe. No arm raises it. -/
  | notModelled (mnemonic : String)
  deriving DecidableEq, Repr

/-- The state after reset (10_state.md R35, 70_reset_and_hazards.md R140): cursor at the origin, the box
`BOX_EMPTY`, no batch, nothing known of CACHE, nothing emitted, idle. The parameters have their defaults (log 9),
the LCD's content is free (log 8), the host has planned nothing (log 2), both receivers are live (log 4). -/
def State.reset : State where
  params := { cmdPageBase := Config.cmdPageBaseDefault, cmdColBase := Config.cmdColBaseDefault }
  cursor := { cs := 0, col := 0, page := 0, offset := 0 }
  box := { left := 127, right := 0, top := 63, bottom := 0 }
  batch := 0
  cache := []
  resets := 0
  offer := none
  tx := []
  rsp := []
  host := []
  transport := .live
  reader := .live
  lcd := {
    chip1 := { page := Config.lcdPage 0, col := Config.lcdCol 0 }
    chip2 := { page := Config.lcdPage 1, col := Config.lcdCol 1 }
    ram := [] }
  ghost := { valid := [], dirty := [] }

end Sys2Proof.Machine
end

