-- ==== Sys2Proof/Machine/Operands.lean ====
section
/-! DEFINITION. The pure functions of the rules: the clamp and the coordinate map, the cache address of a
position, the step to the next position and the way back (40_addressing.md R80 to R84), the bit update and the
inversion of a page byte (42_setpixel.md R100, 41_cache_access.md R90). -/

namespace Sys2Proof.Machine

/-- `clampX` (40_addressing.md R80): an x above 127 becomes 0. -/
def clampX (x : Byte) : Byte := if 127 < x then 0 else x

/-- `clampY` (R80): a y above 63 becomes 0. -/
def clampY (y : Byte) : Byte := if 63 < y then 0 else y

/-- `map` (R81), for x up to 127 and y up to 63: 64 is subtracted and the half switched when x is 64 or more. -/
def canvasPos (x y : Byte) : Pos :=
  let cs : Bit := if 64 ≤ x then 1 else 0
  { cs := cs, col := (x - 64 * cs.setWidth 8).setWidth 6, page := (y >>> 3).setWidth 3 }

/-- `HALF_BASE` (00_scope.md R6). -/
def halfBase (cs : Bit) : CacheAddr := if cs = 0 then 0 else 512

/-- `offset` (40_addressing.md R82). -/
def cacheOffset (p : Pos) : CacheAddr := halfBase p.cs + (p.col.setWidth 10 <<< 3) + p.page.setWidth 10

/-- `next` (R83). The sum on pages is modulo 8, by the width of `PAGE`. -/
def nextPos (p : Pos) : Pos :=
  if p.col < 63 then { cs := p.cs, col := p.col + 1, page := p.page }
  else if p.cs = 0 then { cs := 1, col := 0, page := p.page }
  else { cs := 0, col := 0, page := p.page + 1 }

/-- `logx` (R84): the canvas column of a position. -/
def logX (cs : Bit) (col : BitVec 6) : Byte := 64 * cs.setWidth 8 + col.setWidth 8

/-- `logy` (R84): the top canvas row of a page. -/
def logY (page : BitVec 3) : Byte := 8 * page.setWidth 8

/-- The position of the page byte that holds pixel (x, y), both coordinates clamped first. -/
def pixelPos (x y : Byte) : Pos := canvasPos (clampX x) (clampY y)

/-- The coordinate-direct address of 41_cache_access.md R94 (b). -/
def pixelAddr (x y : Byte) : CacheAddr := cacheOffset (pixelPos x y)

/-- The bit of the page byte that holds row y: `y' & 7` of the clamped y (42_setpixel.md R100). -/
def pixelBit (y : Byte) : BitVec 3 := (clampY y &&& 7).setWidth 3

/-- `setbit` (42_setpixel.md R100). -/
def setBit (b : Byte) (i : BitVec 3) (val : Bit) : Byte :=
  if val = 1 then b ||| ((1 : Byte) <<< i.toNat) else b &&& ~~~((1 : Byte) <<< i.toNat)

/-- The byte WRDATA sends and stores: all 8 bits inverted when `inv` is 1 (41_cache_access.md R90). -/
def dataByte (d : Byte) (inv : Bit) : Byte := if inv = 1 then d ^^^ 0xFF else d

/-- The position the cursor is at. -/
def Cursor.pos (c : Cursor) : Pos := { cs := c.cs, col := c.col, page := c.page }

/-- The cursor at a position, `OFFSET` recomputed with it (10_state.md R24). -/
def Cursor.ofPos (p : Pos) : Cursor := { cs := p.cs, col := p.col, page := p.page, offset := cacheOffset p }

end Sys2Proof.Machine
end

