-- ==== Sys2Proof/Machine/Flags.lean ====
section
/-! DEFINITION. The block's only flag, BATCH (10_state.md R26), and the dirty rectangle it governs: empty,
widened, clamped, degenerate (10_state.md R25; 43_coalescer.md R110 to R112). -/

namespace Sys2Proof.Machine

/-- `min` and `max` of 00_scope.md R9, unsigned. -/
def minByte (a b : Byte) : Byte := if a ≤ b then a else b

/-- See `minByte`. -/
def maxByte (a b : Byte) : Byte := if a ≤ b then b else a

/-- `BOX_EMPTY` (00_scope.md R6), the box that contains no pixel. -/
def Box.empty : Box := { left := 127, right := 0, top := 63, bottom := 0 }

/-- The box widened to contain (x, y), the operands as given (43_coalescer.md R111). -/
def Box.widen (x y : Byte) (b : Box) : Box :=
  { left := minByte b.left x, right := maxByte b.right x, top := minByte b.top y, bottom := maxByte b.bottom y }

/-- The box clamped to the canvas: only `RIGHT` and `BOTTOM` change, to the edges (43_coalescer.md R112 step 2). -/
def Box.clamp (b : Box) : Box :=
  { b with right := minByte b.right 127, bottom := minByte b.bottom 63 }

/-- The box is non-degenerate: it contains a pixel (43_coalescer.md R112 step 3). -/
abbrev Box.Nonempty (b : Box) : Prop := b.left ≤ b.right ∧ b.top ≤ b.bottom

/-- The batch flag is 1: deferred mode (60_exceptions.md R126). -/
abbrev State.InBatch (s : State) : Prop := s.batch = 1

/-- Writes `BATCH`. -/
def State.setBatch (b : Bit) (s : State) : State := { s with batch := b }

/-- Writes the box registers. -/
def State.setBox (b : Box) (s : State) : State := { s with box := b }

end Sys2Proof.Machine
end

