-- ==== Sys2Proof/Machine/Ops.lean ====
section
/-! DEFINITION. The named operations: byte memories and address sets, CACHE, the cursor, the LCD, the two output
channels with their stall (00_scope.md R10 `MemRead`, `MemWrite`, `Emit`, `Respond`), and RESET. The block takes
no exception and returns from none (60_exceptions.md R120, R124, R125); RESET is its one asynchronous event. -/

namespace Sys2Proof.Machine

/-! ### Byte memories -/

/-- The byte listed at an address, if there is one. -/
def Memory.read? : Memory → Nat → Option Byte
  | [], _ => none
  | (a, v) :: m, k => if a = k then some v else Memory.read? m k

/-- The memory with byte `v` at address `k`, addresses kept strictly rising. -/
def Memory.write : Memory → Nat → Byte → Memory
  | [], k, v => [(k, v)]
  | (a, w) :: m, k, v =>
    if k < a then (k, v) :: (a, w) :: m
    else if k = a then (k, v) :: m
    else (a, w) :: Memory.write m k v

/-- The canonical form: addresses strictly rising, all of them among the 1024 (20_memory.md R40). -/
abbrev Memory.wf (m : Memory) : Prop := m.Pairwise (fun c d => c.1 < d.1) ∧ ∀ c ∈ m, c.1 < 1024

/-! ### Address sets -/

/-- The set with `k` in it, strictly rising. -/
def AddrSet.insert : AddrSet → Nat → AddrSet
  | [], k => [k]
  | a :: l, k => if k < a then k :: a :: l else if k = a then a :: l else a :: AddrSet.insert l k

/-- The set without `k`. -/
def AddrSet.remove (l : AddrSet) (k : Nat) : AddrSet := l.filter (fun a => a ≠ k)

/-- The canonical form of a set of addresses. -/
abbrev AddrSet.wf (l : AddrSet) : Prop := l.Pairwise (· < ·) ∧ ∀ a ∈ l, a < 1024

/-! ### CACHE and the cursor -/

/-- `MemRead(a, 1)`: the byte last written at `a`, or the reset draw (20_memory.md R48 item 3). -/
def State.readCache (s : State) (a : CacheAddr) : Byte :=
  (Memory.read? s.cache a.toNat).getD (Config.cacheReset s.resets a)

/-- `MemWrite(a, 1, v)`. -/
def State.writeCache (a : CacheAddr) (v : Byte) (s : State) : State :=
  { s with cache := Memory.write s.cache a.toNat v }

/-- Moves the logical cursor: CS, COL, PAGE and OFFSET in one (10_state.md R24). -/
def State.moveTo (p : Pos) (s : State) : State := { s with cursor := Cursor.ofPos p }

/-! ### The LCD -/

/-- The registers of half `cs`. -/
def Lcd.regs (d : Lcd) (cs : Bit) : LcdRegs := if cs = 0 then d.chip1 else d.chip2

/-- Writes the registers of half `cs`, the other half unchanged. -/
def Lcd.setRegs (cs : Bit) (r : LcdRegs) (d : Lcd) : Lcd :=
  if cs = 0 then { d with chip1 := r } else { d with chip2 := r }

/-- The flat address at which half `cs` stores its next data byte (20_memory.md R47). -/
def Lcd.target (d : Lcd) (cs : Bit) : CacheAddr :=
  cacheOffset { cs := cs, col := (d.regs cs).col, page := (d.regs cs).page }

/-- The display RAM byte at a flat address: the one last received, or the power-on content. -/
def Lcd.ramAt (d : Lcd) (a : CacheAddr) : Byte := (Memory.read? d.ram a.toNat).getD (Config.lcdRam a)

/-- What an LCD command byte does to the registers of its half (20_memory.md R47). A byte of neither pattern
changes nothing; the block never emits one (30_encoding.md R67). Log 11. -/
def LcdRegs.command (c : Params) (b : Byte) (r : LcdRegs) : LcdRegs :=
  let r := if b &&& 0xF8 = c.cmdPageBase then { r with page := b.setWidth 3 } else r
  if b &&& 0xC0 = c.cmdColBase then { r with col := b.setWidth 6 } else r

/-- The LCD receives a transaction (20_memory.md R47). The column goes from 63 to 0 by its width. Log 10. -/
def Lcd.receive (c : Params) (t : Tx) (d : Lcd) : Lcd :=
  let r := d.regs t.cs
  if t.dc = 0 then d.setRegs t.cs (r.command c t.b)
  else { d.setRegs t.cs { r with col := r.col + 1 } with ram := Memory.write d.ram (d.target t.cs).toNat t.b }

/-! ### VALID and DIRTY (20_memory.md R49) -/

/-- An address enters VALID when the LCD stores a data byte there. -/
def State.markValid (a : CacheAddr) (s : State) : State :=
  { s with ghost := { s.ghost with valid := AddrSet.insert s.ghost.valid a.toNat } }

/-- An address enters DIRTY when deferred SETPIX writes it. -/
def State.markDirty (a : CacheAddr) (s : State) : State :=
  { s with ghost := { s.ghost with dirty := AddrSet.insert s.ghost.dirty a.toNat } }

/-- An address leaves DIRTY when the data byte `v` stored there by the LCD is the byte CACHE holds; judged after
WRDATA's own store (41_cache_access.md R93). Log 13. -/
def State.markClean (a : CacheAddr) (v : Byte) (s : State) : State :=
  let dirty := if s.readCache a = v then AddrSet.remove s.ghost.dirty a.toNat else s.ghost.dirty
  { s with ghost := { s.ghost with dirty := dirty } }

/-! ### The output channels -/

/-- Performs `f` unless a word on offer is still not accepted: the lines after a blocked `Emit` are not performed
(60_exceptions.md R127). -/
def State.andThen (s : State) (f : State → State) : State :=
  match s.offer with
  | none => f s
  | some _ => s

/-- What becomes of a receiver that accepts one word; none if it does not accept. -/
def Receiver.accept (r : Receiver) : Option Receiver :=
  match r with
  | .live => some .live
  | .stallsAfter 0 => none
  | .stallsAfter (n + 1) => some (.stallsAfter n)

/-- The transport accepts a transaction: it joins the TX stream and the LCD applies it (20_memory.md R48 item 4);
a data byte's address enters VALID. -/
def State.deliver (t : Tx) (s : State) : State :=
  let s' := { s with tx := s.tx ++ [t], lcd := s.lcd.receive s.params t }
  if t.dc = 1 then s'.markValid (s.lcd.target t.cs) else s'

/-- A transaction is offered to the transport: it is delivered, or it stays on offer. -/
def State.offerTx (t : Tx) (s : State) : State :=
  match s.transport.accept with
  | some r => ({ s with transport := r }).deliver t
  | none => { s with offer := some (.tx t) }

/-- `Emit(cs, dc, b)` (00_scope.md R10): completes when the transport accepts; else the word stays on offer. -/
def State.emit (t : Tx) (s : State) : State := s.andThen (State.offerTx t)

/-- A byte is offered to the host on RSP: it is taken, or it stays on offer. -/
def State.offerRsp (v : Byte) (s : State) : State :=
  match s.reader.accept with
  | some r => { s with reader := r, rsp := s.rsp ++ [v] }
  | none => { s with offer := some (.rsp v) }

/-- `Respond(v)` (00_scope.md R10, 30_encoding.md R68): completes when the host takes the byte. -/
def State.respond (v : Byte) (s : State) : State := s.andThen (State.offerRsp v)

/-- The transaction word (30_encoding.md R66). -/
def Tx.word (t : Tx) : TxWord := t.cs ++ t.dc ++ t.b

/-- The transaction of a word (30_encoding.md R66). -/
def Tx.ofWord (w : TxWord) : Tx :=
  { cs := w.extractLsb' 9 1, dc := w.extractLsb' 8 1, b := w.extractLsb' 0 8 }

/-- The "set page" transaction for a position (30_encoding.md R67). -/
def Tx.setPage (c : Params) (p : Pos) : Tx := { cs := p.cs, dc := 0, b := c.cmdPageBase ||| p.page.setWidth 8 }

/-- The "set column" transaction for a position (R67): the in-half column (90_conflicts.md C6). -/
def Tx.setCol (c : Params) (p : Pos) : Tx := { cs := p.cs, dc := 0, b := c.cmdColBase ||| p.col.setWidth 8 }

/-- The data transaction of a byte for half `cs`. -/
def Tx.data (cs : Bit) (v : Byte) : Tx := { cs := cs, dc := 1, b := v }

/-! ### RESET -/

/-- The LCD at a RESET: untouched (70_reset_and_hazards.md R141), but for a transaction that was on offer, which
may or may not have reached it (R140, 93 U4). Log 12. -/
def State.lcdAtReset (s : State) : Lcd :=
  match s.offer with
  | some (.tx t) => if Config.offerReached s.resets then s.lcd.receive s.params t else s.lcd
  | _ => s.lcd

/-- RESET asserted and released (70_reset_and_hazards.md R140, R141): the registers and channels of 10_state.md
R35, CACHE's content a new draw, VALID and DIRTY empty; the LCD and the parameters stay. Log 3. -/
def State.takeReset (r : ResetEvent) (s : State) : State :=
  { State.reset with
    params := s.params
    resets := s.resets + 1
    host := s.host
    transport := r.transport
    reader := r.reader
    lcd := s.lcdAtReset }

end Sys2Proof.Machine
end

