-- ==== Sys2Proof/Machine/Addressing.lean ====
section
/-! DEFINITION. The sub-block addressing_engine: GOTOXY (40_addressing.md R85). -/

namespace Sys2Proof.Machine

/-- The body of GOTOXY (R85): load the cursor, then "set page" and "set column" to the selected half. -/
def gotoxy (x y : Byte) (s : State) : State :=
  let p := canvasPos (clampX x) (clampY y)
  ((s.moveTo p).emit (Tx.setPage s.params p)).emit (Tx.setCol s.params p)

/-- GOTOXY x, y (40_addressing.md R85). -/
def execGotoxy (x y : Byte) (s : State) : Host.Outcome State Fault Refusal :=
  .next (s.andThen (gotoxy x y))

end Sys2Proof.Machine
end

