-- ==== Sys2Proof/Machine/CacheAccess.lean ====
section
/-! DEFINITION. The byte port of the cache: WRDATA and RDDATA (41_cache_access.md R90, R91). -/

namespace Sys2Proof.Machine

/-- The advance of the cursor after a byte write (R90): one column, or the wrap by GOTOXY to the other half, or
to the next page of chip 1 (a y of 64 is clamped to 0). -/
def advance (s : State) : State :=
  let c := s.cursor
  if c.col < 63 then { s with cursor := { c with col := c.col + 1, offset := c.offset + 8 } }
  else if c.cs = 0 then gotoxy 64 (8 * c.page.setWidth 8) s
  else gotoxy 0 (8 * c.page.setWidth 8 + 8) s

/-- The body of WRDATA (R90): transmit, store, advance, in that order. -/
def wrdata (d : Byte) (inv : Bit) (s : State) : State :=
  let v := dataByte d inv
  let stored := s.lcd.target s.cursor.cs
  (s.emit (Tx.data s.cursor.cs v)).andThen fun s =>
    advance ((s.writeCache s.cursor.offset v).markClean stored v)

/-- WRDATA d, inv (41_cache_access.md R90). -/
def execWrdata (d : Byte) (inv : Bit) (s : State) : Host.Outcome State Fault Refusal :=
  .next (s.andThen (wrdata d inv))

/-- The body of RDDATA (R91): answer the cache byte under the cursor. -/
def rddata (s : State) : State := s.respond (s.readCache s.cursor.offset)

/-- RDDATA (41_cache_access.md R91). -/
def execRddata (s : State) : Host.Outcome State Fault Refusal :=
  .next (s.andThen rddata)

end Sys2Proof.Machine
end

