-- ==== Sys2Proof/Machine/Coalescer.lean ====
section
/-! DEFINITION. The sub-block deferred_write_coalescer: DWSTART, DWUPDATE, DWEND (43_coalescer.md R110 to R112). -/

namespace Sys2Proof.Machine

/-- The body of DWUPDATE (R111): widen the box with the operands as given; nothing without a batch. -/
def dwupdate (x y : Byte) (s : State) : State :=
  if s.InBatch then s.setBox (s.box.widen x y) else s

/-- `n` bytes of a row: each read under the cursor and written back by WRDATA with `inv` 0 (R112 step 3). -/
def flushBytes : Nat → State → State
  | 0, s => s
  | n + 1, s => flushBytes n (s.andThen fun s => wrdata (s.readCache s.cursor.offset) 0 s)

/-- One row of the flush: GOTOXY to its start, then `RIGHT - LEFT + 1` bytes. -/
def flushRow (yy : Byte) (s : State) : State :=
  (s.andThen (gotoxy s.box.left yy)).andThen fun s => flushBytes ((s.box.right - s.box.left).toNat + 1) s

/-- The rows from `yy` down to `BOTTOM` in steps of 8, at most `fuel` of them (there are never more than 8,
30_encoding.md R73). -/
def flushRows : Nat → Byte → State → State
  | 0, _, s => s
  | fuel + 1, yy, s => if yy ≤ s.box.bottom then flushRows fuel (yy + 8) (flushRow yy s) else s

/-- The flush of a clamped box (R112 step 3): nothing if it is degenerate. -/
def flushBox (s : State) : State :=
  if s.box.Nonempty then flushRows 8 (s.box.top &&& 0xF8) s else s

/-- The body of DWEND (R112): remember the position, clamp the box, flush, restore the position, clear BATCH;
nothing without a batch. -/
def dwend (s : State) : State :=
  if s.InBatch then
    let sx := logX s.cursor.cs s.cursor.col
    let sy := logY s.cursor.page
    ((flushBox (s.setBox s.box.clamp)).andThen (gotoxy sx sy)).andThen (State.setBatch 0)
  else s

/-- The body of DWSTART (R110): close an open batch, then open one with the empty box. -/
def dwstart (s : State) : State :=
  (if s.InBatch then dwend s else s).andThen fun s => (s.setBox Box.empty).setBatch 1

/-- DWSTART (43_coalescer.md R110). -/
def execDwstart (s : State) : Host.Outcome State Fault Refusal :=
  .next (s.andThen dwstart)

/-- DWUPDATE x, y (43_coalescer.md R111). -/
def execDwupdate (x y : Byte) (s : State) : Host.Outcome State Fault Refusal :=
  .next (s.andThen (dwupdate x y))

/-- DWEND (43_coalescer.md R112). -/
def execDwend (s : State) : Host.Outcome State Fault Refusal :=
  .next (s.andThen dwend)

end Sys2Proof.Machine
end

