-- ==== Sys2Proof/Machine/SetPixel.lean ====
section
/-! DEFINITION. The pixel primitive SETPIX in its two modes (42_setpixel.md R101 to R103). -/

namespace Sys2Proof.Machine

/-- SETPIX with BATCH = 0 (R102): GOTOXY, fetch the byte, GOTOXY again, WRDATA of the changed byte. -/
def setpixImmediate (x y : Byte) (val : Bit) (s : State) : State :=
  let x' := clampX x
  let y' := clampY y
  (gotoxy x' y' s).andThen fun s =>
    let b := s.readCache s.cursor.offset
    (gotoxy x' y' s).andThen (wrdata (setBit b (pixelBit y) val) 0)

/-- SETPIX with BATCH = 1 (R103): change the byte in CACHE at the coordinate-direct address, move the cursor to
the next position without the display, widen the box with the clamped coordinates. -/
def setpixDeferred (x y : Byte) (val : Bit) (s : State) : State :=
  let x' := clampX x
  let y' := clampY y
  let p := canvasPos x' y'
  let a := cacheOffset p
  let s := (s.writeCache a (setBit (s.readCache a) (pixelBit y) val)).markDirty a
  dwupdate x' y' (s.moveTo (nextPos p))

/-- The body of SETPIX (R101): the mode is BATCH on entry. -/
def setpix (x y : Byte) (val : Bit) (s : State) : State :=
  if s.batch = 0 then setpixImmediate x y val s else setpixDeferred x y val s

/-- SETPIX x, y, val (42_setpixel.md R101). -/
def execSetpix (x y : Byte) (val : Bit) (s : State) : Host.Outcome State Fault Refusal :=
  .next (s.andThen (setpix x y val))

end Sys2Proof.Machine
end

