-- ==== Sys2Proof/Machine/Dispatch.lean ====
section
/-! DEFINITION. The meaning of every command: one arm per constructor, one direct call (30_encoding.md R63). -/

namespace Sys2Proof.Machine

def exec (i : Instr) (s : State) : Host.Outcome State Fault Refusal :=
  match i with
  | .gotoxy x y => Sys2Proof.Machine.execGotoxy x y s
  | .wrdata d inv => Sys2Proof.Machine.execWrdata d inv s
  | .rddata => Sys2Proof.Machine.execRddata s
  | .setpix x y val => Sys2Proof.Machine.execSetpix x y val s
  | .dwstart => Sys2Proof.Machine.execDwstart s
  | .dwupdate x y => Sys2Proof.Machine.execDwupdate x y s
  | .dwend => Sys2Proof.Machine.execDwend s

end Sys2Proof.Machine
end

