-- ==== Sys2Proof/Machine/Command.lean ====
section
/-! DEFINITION. The CMD channel: what the block does with the host's next event (30_encoding.md R60, R64;
70_reset_and_hazards.md R140, R149). -/

namespace Sys2Proof.Machine

/-- An accepted command word: its command is executed; a reserved word is ignored (30_encoding.md R64, D7). -/
def acceptWord (w : CommandWord) (s : State) : Host.Outcome State Fault Refusal :=
  match decode w with
  | .ok i => exec i s
  | .error _ => .next s

/-- The RESET the host asserts now, if it asserts one, and its plan after that: the one its plan has next, or, when
the block is busy for good (`busy`), also one planned after command words that are waiting. The waiting words are
still offered after it, or withdrawn, as the RESET says: the spec leaves that open (70_reset_and_hazards.md R149).
DESIGN CHOICE, log 20. -/
def dueReset (busy : Bool) : List HostEvent → Option (ResetEvent × List HostEvent)
  | [] => none
  | .reset r :: rest => some (r, rest)
  | .command w :: rest =>
    if busy then
      match dueReset busy rest with
      | some (r, rest') => some (r, if r.keepsWaiting then .command w :: rest' else rest')
      | none => none
    else none

/-- The block serves the host's next event. RESET it takes at any time, in a stall also a RESET planned after
command words that wait (70_reset_and_hazards.md R140, R149; log 20). Idle, it takes a command word and executes
it. With a word on offer not accepted it takes no command and waits (60_exceptions.md R127). With no event it waits
(10_state.md R35). Log 2, 5. -/
def serve (s : State) : Host.Outcome State Fault Refusal :=
  match dueReset s.offer.isSome s.host with
  | some (r, rest) => .next (({ s with host := rest }).takeReset r)
  | none =>
    match s.offer, s.host with
    | none, .command w :: rest => acceptWord w { s with host := rest }
    | _, _ => .next s

/-- The host issues this word next, and the block is idle. -/
def State.withCommand (w : CommandWord) (s : State) : State :=
  { s with host := .command w :: s.host, offer := none }

end Sys2Proof.Machine
end

