-- ==== Sys2Proof/Machine/Step.lean ====
section
/-! DEFINITION. One step of the machine: the block serves the host's next event (00_scope.md R8). -/

namespace Sys2Proof.Machine

/-- One step. -/
def step (s : State) : Host.Outcome State Fault Refusal := serve s

/-- The state in which the very next step executes the command word `w` of `nbits` bits: the host issues it next
and the block is idle. The block fetches nothing itself (10_state.md R29). Log 2. -/
def State.withFetchWord (s : State) (nbits w : Nat) : State :=
  s.withCommand (BitVec.ofNat 24 (w % 2 ^ nbits))

end Sys2Proof.Machine
end

