-- ==== Sys2Proof/Machine/Assembler.lean ====
section
/-! DEFINITION. The assembler of 30_encoding.md R71 and R72: a line to the commands it stands for, commands to
words, the text of a line to the line, and a command back to text (R65). The block knows nothing of it: words
reach the block on CMD. Log 18. -/

namespace Sys2Proof.Machine

/-- `val` and `inv` as one bit. -/
def bitOperand (n : Nat) : Bit := BitVec.ofNat 1 n

/-- A numeral as an 8-bit operand. -/
def byteOperand (n : Nat) : Byte := BitVec.ofNat 8 n

/-- The commands a line stands for, in order (30_encoding.md R71; R72 for the pseudo-instructions). -/
def expandLine (l : AsmLine) : List Instr :=
  match l with
  | .gotoxy x y => [.gotoxy (byteOperand x) (byteOperand y)]
  | .wrdata d inv => [.wrdata (byteOperand d) (bitOperand inv)]
  | .rddata => [.rddata]
  | .setpix x y val => [.setpix (byteOperand x) (byteOperand y) (bitOperand val)]
  | .dwstart => [.dwstart]
  | .dwupdate x y => [.dwupdate (byteOperand x) (byteOperand y)]
  | .dwend => [.dwend]
  | .blit bytes => bytes.map fun b => .wrdata (byteOperand b) 0
  | .fill n d => List.replicate n (.wrdata (byteOperand d) 0)
  | .clrall => .gotoxy 0 0 :: List.replicate 1024 (.wrdata 0 0)

/-- The command words of a line; none for a line with an operand out of range. -/
def assembleLine (l : AsmLine) : Option (List CommandWord) :=
  if l.wellFormed then some ((expandLine l).map encode) else none

/-! ### Text -/

/-- The line without its comment: what stands before the first `;`. -/
def dropComment (cs : List Char) : List Char := cs.takeWhile (· ≠ ';')

/-- A text without the spaces and tabs at its ends. -/
def trimBlanks (cs : List Char) : List Char :=
  let blank := fun (c : Char) => c = ' ' || c = '\t'
  ((cs.dropWhile blank).reverse.dropWhile blank).reverse

/-- The value of a decimal digit. -/
def decDigit (c : Char) : Option Nat :=
  if '0' ≤ c ∧ c ≤ '9' then some (c.toNat - '0'.toNat) else none

/-- The value of a hexadecimal digit. -/
def hexDigit (c : Char) : Option Nat :=
  if '0' ≤ c ∧ c ≤ '9' then some (c.toNat - '0'.toNat)
  else if 'a' ≤ c ∧ c ≤ 'f' then some (c.toNat - 'a'.toNat + 10)
  else if 'A' ≤ c ∧ c ≤ 'F' then some (c.toNat - 'A'.toNat + 10)
  else none

/-- The digits' value in a base, after `acc`. -/
def digitsValue (base : Nat) (digit : Char → Option Nat) : Nat → List Char → Option Nat
  | acc, [] => some acc
  | acc, c :: cs =>
    match digit c with
    | some d => digitsValue base digit (acc * base + d) cs
    | none => none

/-- A numeral: decimal, or hexadecimal after `0x` (30_encoding.md R71). -/
def parseNumeral (cs : List Char) : Option Nat :=
  match cs with
  | [] => none
  | '0' :: 'x' :: [] => none
  | '0' :: 'x' :: ds => digitsValue 16 hexDigit 0 ds
  | ds => digitsValue 10 decDigit 0 ds

/-- The pieces of a text between its commas. -/
def splitCommas : List Char → List (List Char)
  | [] => [[]]
  | c :: cs =>
    match splitCommas cs with
    | [] => [[c]]
    | p :: ps => if c = ',' then [] :: p :: ps else (c :: p) :: ps

/-- The numerals of an operand list, separated by commas; an empty text is the empty list. -/
def parseOperands (cs : List Char) : Option (List Nat) :=
  match trimBlanks cs with
  | [] => some []
  | t => (splitCommas t).mapM fun p => parseNumeral (trimBlanks p)

/-- The line of a mnemonic with its operands (30_encoding.md R71, R72); `inv` is 0 when omitted. -/
def lineOf (mnemonic : List Char) (operands : List Nat) : Option AsmLine :=
  match String.ofList mnemonic, operands with
  | "GOTOXY", [x, y] => some (.gotoxy x y)
  | "WRDATA", [d] => some (.wrdata d 0)
  | "WRDATA", [d, inv] => some (.wrdata d inv)
  | "RDDATA", [] => some .rddata
  | "SETPIX", [x, y, val] => some (.setpix x y val)
  | "DWSTART", [] => some .dwstart
  | "DWUPDATE", [x, y] => some (.dwupdate x y)
  | "DWEND", [] => some .dwend
  | "BLIT", b :: bs => some (.blit (b :: bs))
  | "FILL", [n, d] => some (.fill n d)
  | "CLRALL", [] => some .clrall
  | _, _ => none

/-- The line a text stands for (30_encoding.md R71): one mnemonic, then its operands. None for a text that is no
line of assembly, or holds only a comment. -/
def parseLine (text : String) : Option AsmLine :=
  let t := trimBlanks (dropComment text.toList)
  let blank := fun (c : Char) => c = ' ' || c = '\t'
  match parseOperands (t.dropWhile (fun c => !blank c)) with
  | some operands => lineOf (t.takeWhile (fun c => !blank c)) operands
  | none => none

/-- The assembly text of a command: the operands of the used fields only (30_encoding.md R65, R71). -/
def asmText (i : Instr) : String :=
  let dec := fun (b : Byte) => Nat.repr b.toNat
  match i with
  | .gotoxy x y => "GOTOXY " ++ dec x ++ ", " ++ dec y
  | .wrdata d inv => "WRDATA " ++ dec d ++ (if inv = 1 then ", 1" else "")
  | .rddata => "RDDATA"
  | .setpix x y val => "SETPIX " ++ dec x ++ ", " ++ dec y ++ ", " ++ Nat.repr val.toNat
  | .dwstart => "DWSTART"
  | .dwupdate x y => "DWUPDATE " ++ dec x ++ ", " ++ dec y
  | .dwend => "DWEND"

end Sys2Proof.Machine
end

