-- ==== Sys2Proof/Safety.lean ====
section
/-! DEFINITION. The terms in which claims are made: SYNC and COHERENT, the invariants of the registers, of the
memories and of DIRTY, and what a flush covers and emits (10_state.md R28, R33; 20_memory.md R49;
43_coalescer.md R113, R114). -/

namespace Sys2Proof.Machine

/-- The block is idle: no word is on offer, the next command can be accepted (30_encoding.md R60). -/
abbrev State.Idle (s : State) : Prop := s.offer = none

/-- The block is idle and the transport accepts every transaction (`TRANSPORT_LIVE`, 60_exceptions.md R127). -/
abbrev State.Ready (s : State) : Prop := s.offer = none ∧ s.transport = .live

/-- The parameters are such as the spec's proofs may assume (92_eei_decisions.md D9): their low bits are clear and
the two command patterns of 20_memory.md R47 are distinguishable. -/
abbrev Params.Wf (c : Params) : Prop :=
  c.cmdPageBase &&& 0x07 = 0 ∧ c.cmdColBase &&& 0x3F = 0 ∧ c.cmdPageBase &&& 0xC0 ≠ c.cmdColBase

/-- SYNC (10_state.md R33): the hardware cursor of the selected half is at the logical cursor. -/
abbrev State.Sync (s : State) : Prop :=
  s.lcd.regs s.cursor.cs = { page := s.cursor.page, col := s.cursor.col }

/-- COHERENT (20_memory.md R49): CACHE and display agree on every address in VALID and not in DIRTY. -/
def State.Coherent (s : State) : Prop :=
  ∀ a : CacheAddr, a.toNat ∈ s.ghost.valid → a.toNat ∉ s.ghost.dirty → s.readCache a = s.lcd.ramAt a

/-- The invariants of 10_state.md R28: items 2, 3, 4, and of item 5 that the box is `BOX_EMPTY` or
non-degenerate. (Item 1 holds by the registers' widths.) -/
def State.RegisterInv (s : State) : Prop :=
  s.cursor = Cursor.ofPos s.cursor.pos ∧ s.box.left ≤ 127 ∧ s.box.top ≤ 63 ∧
    (s.batch = 0 → s.box.right ≤ 127 ∧ s.box.bottom ≤ 63) ∧ (s.box = Box.empty ∨ s.box.Nonempty)

/-- The memories and the address sets are in canonical form. -/
def State.MemoryInv (s : State) : Prop :=
  Memory.wf s.cache ∧ Memory.wf s.lcd.ram ∧ AddrSet.wf s.ghost.valid ∧ AddrSet.wf s.ghost.dirty

/-- The canvas column of an address: bits 9:3 (20_memory.md R41). -/
def addrX (a : CacheAddr) : Byte := (a >>> 3).setWidth 8

/-- The page of an address: bits 2:0 (20_memory.md R41). -/
def addrPage (a : CacheAddr) : Byte := (a &&& 7).setWidth 8

/-- The address is one a flush of the clamped box writes: the box is non-degenerate, the column is in LEFT..RIGHT
and the page in TOP >> 3 .. BOTTOM >> 3 (43_coalescer.md R113). -/
abbrev Box.Covers (b : Box) (a : CacheAddr) : Prop :=
  b.Nonempty ∧ b.left ≤ addrX a ∧ addrX a ≤ b.right ∧ b.top >>> 3 ≤ addrPage a ∧ addrPage a ≤ b.bottom >>> 3

/-- Outside a batch nothing is dirty, and in a batch the box covers every dirty address (20_memory.md R49,
43_coalescer.md R117 item 5). -/
def State.DirtyInv (s : State) : Prop :=
  (s.batch = 0 → s.ghost.dirty = []) ∧
    ∀ k ∈ s.ghost.dirty, k < 1024 ∧ s.box.Covers (BitVec.ofNat 10 k)

/-- An LCD command byte the block may emit: "set page" with a page, or "set column" with a column
(30_encoding.md R67). Data transactions are free. -/
abbrev Tx.Known (c : Params) (t : Tx) : Prop :=
  t.dc = 0 → (∃ p : BitVec 3, t.b = c.cmdPageBase ||| p.setWidth 8) ∨
    ∃ k : BitVec 6, t.b = c.cmdColBase ||| k.setWidth 8

/-- Every command byte emitted so far, and the one on offer if there is one, is one of the two kinds. -/
def State.TxKnown (s : State) : Prop :=
  (∀ t ∈ s.tx, t.Known s.params) ∧ ∀ t, s.offer = some (.tx t) → t.Known s.params

/-! ### The transactions of the commands -/

/-- The transactions of GOTOXY to a position: "set page", then "set column" (40_addressing.md R85). -/
def gotoTxs (c : Params) (p : Pos) : List Tx := [Tx.setPage c p, Tx.setCol c p]

/-- The transactions of WRDATA of the byte `v` at a position: the data, and after column 63 those of the wrap
(41_cache_access.md R90). -/
def dataTxs (c : Params) (v : Byte) (p : Pos) : List Tx :=
  Tx.data p.cs v :: if p.col = 63 then gotoTxs c (nextPos p) else []

/-- The transactions of a run of bytes written from a position on, each with the position it is written at. -/
def runTxs (c : Params) : List Byte → Pos → List Tx
  | [], _ => []
  | v :: vs, p => dataTxs c v p ++ runTxs c vs (nextPos p)

/-- The position of canvas column `x` in page `p`. -/
def canvasAt (x p : Nat) : Pos := canvasPos (BitVec.ofNat 8 x) (BitVec.ofNat 8 (8 * p))

/-- The transactions of one row of a flush, `n` bytes from canvas column `x` of page `p`, the bytes as `read`
gives them (43_coalescer.md R112, R113). -/
def rowTxs (c : Params) (read : CacheAddr → Byte) (x n p : Nat) : List Tx :=
  gotoTxs c (canvasAt x p) ++
    (List.range n).flatMap fun k => dataTxs c (read (cacheOffset (canvasAt (x + k) p))) (canvasAt (x + k) p)

/-- The number of rows of a flush (R113). -/
def Box.rows (b : Box) : Nat := b.bottom.toNat / 8 - b.top.toNat / 8 + 1

/-- The number of bytes of a row (R113). -/
def Box.rowBytes (b : Box) : Nat := b.right.toNat - b.left.toNat + 1

/-- The transactions of the flush of a clamped box, row by row from the top page down (R113); none if it is
degenerate. -/
def flushTxs (c : Params) (read : CacheAddr → Byte) (b : Box) : List Tx :=
  if b.Nonempty then
    (List.range b.rows).flatMap fun r => rowTxs c read b.left.toNat b.rowBytes (b.top.toNat / 8 + r)
  else []

/-- The transactions of DWEND in a batch: the flush of the clamped box and the restoring GOTOXY (R112). -/
def dwendTxs (s : State) : List Tx := flushTxs s.params s.readCache s.box.clamp ++ gotoTxs s.params s.cursor.pos

/-- The count of R114 for a batch whose clamped box is `b`. -/
def flushCount (b : Box) : Nat :=
  if b.Nonempty then
    b.rows * (2 + b.rowBytes + (if b.left ≤ 63 ∧ 63 ≤ b.right then 2 else 0) + (if b.right = 127 then 2 else 0)) + 2
  else 2

/-- Commands executed one after the other, the first first; it stops at one that does not answer a next state
(20_memory.md R48 item 1). -/
def execAll : List Instr → State → Host.Outcome State Fault Refusal
  | [], s => .next s
  | i :: is, s =>
    match exec i s with
    | .next t => execAll is t
    | .fault r => .fault r
    | .refused r => .refused r

/-- The address of the CACHE byte a command stores to, if it stores: the cursor's byte for WRDATA, the pixel's
byte for SETPIX (10_state.md R34). -/
def storeAddr (i : Instr) (s : State) : Option CacheAddr :=
  match i with
  | .wrdata _ _ => some s.cursor.offset
  | .setpix x y _ => some (pixelAddr x y)
  | .gotoxy _ _ => none
  | .rddata => none
  | .dwstart => none
  | .dwupdate _ _ => none
  | .dwend => none

end Sys2Proof.Machine
end

