-- ==== Sys2Proof/Certificates/Slice0/Obligations.lean ====
section
/-! DEFINITION. The statements for the provers, from the numbered rules of spec/. -/

open Sys2Proof Sys2Proof.Machine

/-! ### Encodings -/

/-- 30_encoding.md R70: the decoder's table on every word, encode then decode, and decode then encode. -/
def Obligations.DecodingIsTotalAndRoundTrips : Prop :=
  (∀ w : CommandWord, w.extractLsb' 17 3 ≠ 0 → ∃ r, decode w = .error r) ∧
  (∀ w : CommandWord, w.extractLsb' 17 3 = 0 →
    (w.extractLsb' 20 4 = 0x1 → decode w = .ok (.gotoxy (w.extractLsb' 8 8) (w.extractLsb' 0 8))) ∧
    (w.extractLsb' 20 4 = 0x2 → decode w = .ok (.wrdata (w.extractLsb' 8 8) (w.extractLsb' 16 1))) ∧
    (w.extractLsb' 20 4 = 0x3 → decode w = .ok .rddata) ∧
    (w.extractLsb' 20 4 = 0x4 →
      decode w = .ok (.setpix (w.extractLsb' 8 8) (w.extractLsb' 0 8) (w.extractLsb' 16 1))) ∧
    (w.extractLsb' 20 4 = 0x5 → decode w = .ok .dwstart) ∧
    (w.extractLsb' 20 4 = 0x6 → decode w = .ok (.dwupdate (w.extractLsb' 8 8) (w.extractLsb' 0 8))) ∧
    (w.extractLsb' 20 4 = 0x7 → decode w = .ok .dwend) ∧
    (w.extractLsb' 20 4 = 0 ∨ 8 ≤ w.extractLsb' 20 4 → ∃ r, decode w = .error r)) ∧
  (∀ i : Instr, decode (encode i) = .ok i) ∧
  (∀ (w : CommandWord) (i : Instr), decode w = .ok i → encode i = w &&& CommandWord.readMask w)

/-- 30_encoding.md R64: exactly the reserved words have no command; and R123 (a): `Z` is tested first. -/
def Obligations.ReservedWordsHaveNoCommand : Prop :=
  ∀ w : CommandWord,
    ((∃ r, decode w = .error r) ↔ CommandWord.Reserved w) ∧
    (fieldZ w ≠ 0 → decode w = .error (.zField (fieldZ w))) ∧
    (fieldZ w = 0 → CommandWord.Reserved w → decode w = .error (.opcode (fieldOP w)))

/-- 30_encoding.md R63: a word is the command of a row, with the operands of the row's used fields, exactly when it
matches the row under the mask 0xFE0000. -/
def Obligations.OpcodeMaskSelectsTheCommand : Prop :=
  ∀ w : CommandWord,
    (decode w = .ok (.gotoxy (w.extractLsb' 8 8) (w.extractLsb' 0 8)) ↔ w &&& 0xFE0000 = 0x100000) ∧
    (decode w = .ok (.wrdata (w.extractLsb' 8 8) (w.extractLsb' 16 1)) ↔ w &&& 0xFE0000 = 0x200000) ∧
    (decode w = .ok .rddata ↔ w &&& 0xFE0000 = 0x300000) ∧
    (decode w = .ok (.setpix (w.extractLsb' 8 8) (w.extractLsb' 0 8) (w.extractLsb' 16 1)) ↔
      w &&& 0xFE0000 = 0x400000) ∧
    (decode w = .ok .dwstart ↔ w &&& 0xFE0000 = 0x500000) ∧
    (decode w = .ok (.dwupdate (w.extractLsb' 8 8) (w.extractLsb' 0 8)) ↔ w &&& 0xFE0000 = 0x600000) ∧
    (decode w = .ok .dwend ↔ w &&& 0xFE0000 = 0x700000)

/-- 30_encoding.md R65: two words that differ only in fields their command does not read decode alike, and the
assembler's word of a command has those fields zero, so it is the only well-formed word of that command. -/
def Obligations.UnreadFieldsAreIgnored : Prop :=
  (∀ w w' : CommandWord, CommandWord.readMask w = CommandWord.readMask w' →
    w &&& CommandWord.readMask w = w' &&& CommandWord.readMask w' → decode w = decode w') ∧
  (∀ i : Instr, CommandWord.WellFormed (encode i)) ∧
  (∀ (w : CommandWord) (i : Instr), CommandWord.WellFormed w → decode w = .ok i → w = encode i)

/-- Words written out from the encodings of 30_encoding.md R61, R63 and 95_test_vectors.md 2.1. -/
def Obligations.WorkedWordsDecode : Prop :=
  decode 0x104614 = .ok (.gotoxy 70 20) ∧ decode 0x217E00 = .ok (.wrdata 0x7E 1) ∧
  decode 0x31FFFF = .ok .rddata ∧ decode 0x41C864 = .ok (.setpix 200 100 1) ∧
  decode 0x500000 = .ok .dwstart ∧ decode 0x60C864 = .ok (.dwupdate 200 100) ∧
  decode 0x710000 = .ok .dwend ∧ decode 0x320000 = .error (.zField 1) ∧ decode 0 = .error (.opcode 0)

/-- 30_encoding.md R66: the transaction word as a number, and the word and the transaction determine each other. -/
def Obligations.TransactionWordRoundTrip : Prop :=
  (∀ t : Tx, t.word.toNat = 512 * t.cs.toNat + 256 * t.dc.toNat + t.b.toNat) ∧
  (∀ t : Tx, Tx.ofWord t.word = t) ∧ (∀ w : TxWord, (Tx.ofWord w).word = w)

/-- 30_encoding.md R71, R72: the words of the seven commands, as the numbers of R71's column "encoding", and of the
three pseudo-instructions, as the words of the commands R72 expands them to; a line with operands in range
assembles to words that decode to the commands it stands for; a line with an operand out of range does not
assemble. -/
def Obligations.AssembledLinesDecode : Prop :=
  (∀ x y : Nat, x ≤ 255 → y ≤ 255 →
    assembleLine (.gotoxy x y) = some [BitVec.ofNat 24 (0x100000 + 256 * x + y)] ∧
    assembleLine (.dwupdate x y) = some [BitVec.ofNat 24 (0x600000 + 256 * x + y)] ∧
    ∀ b ≤ 1, assembleLine (.setpix x y b) = some [BitVec.ofNat 24 (0x400000 + 65536 * b + 256 * x + y)] ∧
      assembleLine (.wrdata x b) = some [BitVec.ofNat 24 (0x200000 + 65536 * b + 256 * x)]) ∧
  assembleLine .rddata = some [0x300000] ∧ assembleLine .dwstart = some [0x500000] ∧
  assembleLine .dwend = some [0x700000] ∧
  (∀ bytes : List Nat, bytes ≠ [] → (∀ b ∈ bytes, b ≤ 255) →
    assembleLine (.blit bytes) = some (bytes.map fun b => BitVec.ofNat 24 (0x200000 + 256 * b))) ∧
  (∀ n d : Nat, d ≤ 255 →
    assembleLine (.fill n d) = some (List.replicate n (BitVec.ofNat 24 (0x200000 + 256 * d)))) ∧
  assembleLine .clrall = some (0x100000 :: List.replicate 1024 0x200000) ∧
  (∀ l : AsmLine, l.wellFormed = true →
    ∃ ws, assembleLine l = some ws ∧ ws.map decode = (expandLine l).map .ok) ∧
  (∀ l : AsmLine, l.wellFormed = false → assembleLine l = none)

/-! ### Reset and the step -/

/-- 10_state.md R35: the values the spec gives after reset, every CACHE byte the free draw of reset number 0.
(The host's empty plan, the live receivers and the free LCD content are the model's: log 2, 4, 8; not stated.) -/
def Obligations.ResetLeavesTheStatedValues : Prop :=
  State.reset.cursor = { cs := 0, col := 0, page := 0, offset := 0 } ∧
  State.reset.box = { left := 127, right := 0, top := 63, bottom := 0 } ∧
  State.reset.batch = 0 ∧ State.reset.tx = [] ∧ State.reset.rsp = [] ∧ State.reset.Idle ∧
  (∀ a, State.reset.readCache a = Config.cacheReset 0 a) ∧
  State.reset.ghost.valid = [] ∧ State.reset.ghost.dirty = []

/-- 70_reset_and_hazards.md R140, R141, R149: RESET at any time, in a batch and in a stall too, there also behind
command words that wait to be taken (log 20), restores the values of 10_state.md R35, emits nothing, leaves the LCD
alone (but for a word on offer, log 12), and makes CACHE a new draw. -/
def Obligations.ResetIsTakenAtAnyTime : Prop :=
  ∀ (s : State) (r : ResetEvent) (waiting : List CommandWord) (rest : List HostEvent),
    s.host = waiting.map .command ++ .reset r :: rest → waiting = [] ∨ ¬ s.Idle →
    ∃ t, step s = .next t ∧
      t.cursor = State.reset.cursor ∧ t.box = State.reset.box ∧ t.batch = 0 ∧ t.Idle ∧ t.tx = [] ∧ t.rsp = [] ∧
      t.ghost.valid = [] ∧ t.ghost.dirty = [] ∧ t.params = s.params ∧
      t.host = (if r.keepsWaiting then waiting.map .command ++ rest else rest) ∧
      t.transport = r.transport ∧ t.reader = r.reader ∧
      (∀ a, t.readCache a = Config.cacheReset (s.resets + 1) a) ∧
      ((∀ x, s.offer ≠ some (.tx x)) → t.lcd = s.lcd) ∧
      (∀ x, s.offer = some (.tx x) → t.lcd = s.lcd ∨ t.lcd = s.lcd.receive s.params x)

/-- 00_scope.md R8, 30_encoding.md R60: an idle block takes the host's next command word, and the step is the
execution of the command it decodes to. -/
def Obligations.StepRunsTheDecodedCommand : Prop :=
  ∀ (s : State) (w : CommandWord) (rest : List HostEvent) (i : Instr),
    s.host = .command w :: rest → s.Idle → decode w = .ok i → step s = exec i { s with host := rest }

/-- 30_encoding.md R64: a reserved word is accepted and changes no register and no memory, emits nothing and
answers nothing, and the block is idle again. -/
def Obligations.ReservedWordIsIgnored : Prop :=
  ∀ (s : State) (w : CommandWord) (rest : List HostEvent),
    s.host = .command w :: rest → s.Idle → CommandWord.Reserved w → step s = .next { s with host := rest }

/-- 60_exceptions.md R121 row 13, R127: a block with a word on offer takes no command and performs nothing; no
command changes anything while the block is busy, and only a RESET the host plans ends that. That the block waits in
a step that changes nothing is the model's choice (log 5). -/
def Obligations.BusyBlockTakesNoCommand : Prop :=
  (∀ (s : State) (o : Offer) (i : Instr), s.offer = some o → exec i s = .next s) ∧
  (∀ (s : State) (o : Offer), s.offer = some o → (∀ r, HostEvent.reset r ∉ s.host) → step s = .next s)

/-- 60_exceptions.md R120: no step faults and none is refused, whatever the state. That a stalled block's step answers
the same state is the model's choice (log 5, against R127's agent with no enabled step), and so is the empty type of
faults (log 16). -/
def Obligations.EveryStepAnswersANextState : Prop :=
  (∀ s : State, ∃ t, step s = .next t) ∧ (∀ (i : Instr) (s : State), ∃ t, exec i s = .next t)

/-! ### The coordinate functions -/

/-- 40_addressing.md R80, R81: the clamp to 0, each coordinate alone, its range; the position of a clamped pixel. -/
def Obligations.CoordinatesAreClampedAndMapped : Prop :=
  (∀ x y : Byte,
    (clampX x).toNat = (if 127 < x.toNat then 0 else x.toNat) ∧ (clampX x).toNat ≤ 127 ∧
    (clampY y).toNat = (if 63 < y.toNat then 0 else y.toNat) ∧ (clampY y).toNat ≤ 63) ∧
  (∀ x y : Byte, x.toNat ≤ 127 → y.toNat ≤ 63 →
    (canvasPos x y).cs.toNat = (if 64 ≤ x.toNat then 1 else 0) ∧
    (canvasPos x y).col.toNat = x.toNat - 64 * (canvasPos x y).cs.toNat ∧
    (canvasPos x y).page.toNat = y.toNat / 8)

/-- 40_addressing.md R82: the address is the sum, and the concatenation of cs, column and page. -/
def Obligations.CacheOffsetIsTheConcatenation : Prop :=
  ∀ p : Pos, (cacheOffset p).toNat = (if p.cs = 0 then 0 else 512) + 8 * p.col.toNat + p.page.toNat ∧
    cacheOffset p = p.cs ++ p.col ++ p.page

/-- 20_memory.md R41 (its consequences) and 40_addressing.md R84, inferences of the spec: the map is a bijection
between the positions and the 1024 addresses; a pixel's byte is at 8 x + y / 8; the way back is exact and passes
the clamp unchanged. -/
def Obligations.CacheAddressesAreABijection : Prop :=
  (∀ p q : Pos, cacheOffset p = cacheOffset q → p = q) ∧ (∀ a : CacheAddr, ∃ p, cacheOffset p = a) ∧
  (∀ x y : Byte, x.toNat ≤ 127 → y.toNat ≤ 63 → (cacheOffset (canvasPos x y)).toNat = 8 * x.toNat + y.toNat / 8) ∧
  (∀ p : Pos,
    (logX p.cs p.col).toNat = 64 * p.cs.toNat + p.col.toNat ∧ (logY p.page).toNat = 8 * p.page.toNat ∧
    canvasPos (logX p.cs p.col) (logY p.page) = p ∧
    clampX (logX p.cs p.col) = logX p.cs p.col ∧ clampY (logY p.page) = logY p.page)

/-- 40_addressing.md R83: `next` by its three cases; and the spec's inferences, the effect on addresses and that
1024 times `next` returns to any position and visits every position. -/
def Obligations.NextVisitsEveryPositionOnce : Prop :=
  (∀ p : Pos,
    (p.col.toNat < 63 → (nextPos p).cs = p.cs ∧ (nextPos p).col.toNat = p.col.toNat + 1 ∧ (nextPos p).page = p.page ∧
      (cacheOffset (nextPos p)).toNat = (cacheOffset p).toNat + 8) ∧
    (p.col = 63 → p.cs = 0 → nextPos p = { cs := 1, col := 0, page := p.page } ∧
      (cacheOffset (nextPos p)).toNat = (cacheOffset p).toNat + 8) ∧
    (p.col = 63 → p.cs = 1 → (nextPos p).cs = 0 ∧ (nextPos p).col = 0 ∧
      (nextPos p).page.toNat = (p.page.toNat + 1) % 8 ∧
      (cacheOffset (nextPos p)).toNat = (p.page.toNat + 1) % 8)) ∧
  (∀ p : Pos, nextPos^[1024] p = p) ∧
  (∀ p q : Pos, ∃ k < 1024, nextPos^[k] p = q ∧ ∀ j < 1024, nextPos^[j] p = q → j = k)

/-- 42_setpixel.md R100: `setbit` makes bit i the value and leaves the other seven; set then clear; the index is of
the clamped y. -/
def Obligations.SetBitChangesOneBit : Prop :=
  (∀ (b : Byte) (i : BitVec 3) (val : Bit) (j : Nat), j < 8 →
    (setBit b i val).getLsbD j = if j = i.toNat then decide (val = 1) else b.getLsbD j) ∧
  (∀ (b : Byte) (i : BitVec 3), setBit (setBit b i 1) i 0 = b &&& ~~~((1 : Byte) <<< i.toNat) ∧
    (setBit (setBit b i 1) i 0 = b ↔ b.getLsbD i.toNat = false)) ∧
  (∀ y : Byte, (pixelBit y).toNat = (if 63 < y.toNat then 0 else y.toNat % 8))

/-! ### What the commands do -/

/-- 40_addressing.md R85: GOTOXY's encoding and effect, with the transport live: cursor and OFFSET of the clamped
pixel, "set page" then "set column" to the selected half; the other half's hardware cursor, CACHE, box and BATCH
unchanged; with well-formed parameters SYNC, by the LCD of 20_memory.md R47 (log 9, 10); the same inside and outside a
batch. -/
def Obligations.GotoxyMovesTheCursor : Prop :=
  ∀ (s : State) (x y : Byte),
    encode (.gotoxy x y) = 0x100000 ||| (x.setWidth 24 <<< 8) ||| y.setWidth 24 ∧
    (s.Ready → ∃ t, exec (.gotoxy x y) s = .next t ∧
      t.cursor.pos = canvasPos (clampX x) (clampY y) ∧ t.cursor.offset = cacheOffset t.cursor.pos ∧
      t.tx = s.tx ++ [
        { cs := t.cursor.cs, dc := 0, b := s.params.cmdPageBase ||| t.cursor.page.setWidth 8 },
        { cs := t.cursor.cs, dc := 0, b := s.params.cmdColBase ||| t.cursor.col.setWidth 8 }] ∧
      (∀ h : Bit, h ≠ t.cursor.cs → t.lcd.regs h = s.lcd.regs h) ∧
      (s.params.Wf → t.Sync) ∧ t.Ready ∧ t.cache = s.cache ∧ t.box = s.box ∧ t.batch = s.batch ∧ t.rsp = s.rsp)

/-- 41_cache_access.md R90: WRDATA's encoding and effect, with the transport live: the byte, inverted or not, to TX
for the selected half and to CACHE at OFFSET; the three advances of the cursor, the two wraps with their GOTOXY
transactions; neither BATCH nor the box is touched. -/
def Obligations.WrdataSendsStoresAndAdvances : Prop :=
  ∀ (s : State) (d : Byte) (inv : Bit),
    encode (.wrdata d inv) = 0x200000 ||| (inv.setWidth 24 <<< 16) ||| (d.setWidth 24 <<< 8) ∧
    (s.Ready → ∃ t v, exec (.wrdata d inv) s = .next t ∧
      v = (if inv = 1 then d ^^^ 0xFF else d) ∧
      (s.cursor.col < 63 →
        t.cursor = { s.cursor with col := s.cursor.col + 1, offset := s.cursor.offset + 8 } ∧
        t.tx = s.tx ++ [{ cs := s.cursor.cs, dc := 1, b := v }]) ∧
      (s.cursor.col = 63 → s.cursor.cs = 0 →
        t.cursor = Cursor.ofPos { cs := 1, col := 0, page := s.cursor.page } ∧
        t.tx = s.tx ++ { cs := 0, dc := 1, b := v } :: gotoTxs s.params { cs := 1, col := 0, page := s.cursor.page }) ∧
      (s.cursor.col = 63 → s.cursor.cs = 1 →
        t.cursor = Cursor.ofPos { cs := 0, col := 0, page := s.cursor.page + 1 } ∧
        t.tx = s.tx ++
          { cs := 1, dc := 1, b := v } :: gotoTxs s.params { cs := 0, col := 0, page := s.cursor.page + 1 }) ∧
      (∀ a, t.readCache a = if a = s.cursor.offset then v else s.readCache a) ∧
      t.Ready ∧ t.box = s.box ∧ t.batch = s.batch ∧ t.rsp = s.rsp)

/-- 41_cache_access.md R91: RDDATA's encoding and effect, whenever the host takes the byte: it answers the byte of
CACHE at OFFSET and changes nothing else. -/
def Obligations.RddataAnswersTheByteUnderTheCursor : Prop :=
  encode .rddata = 0x300000 ∧
  ∀ (s : State) (r : Receiver), s.Idle → s.reader.accept = some r →
    exec .rddata s = .next { s with reader := r, rsp := s.rsp ++ [s.readCache s.cursor.offset] }

/-- 42_setpixel.md R101: SETPIX's encoding, and in both modes: the pixel's bit becomes `val`, no other bit of CACHE
changes, and the cursor is one position past the byte. -/
def Obligations.SetpixSetsOnePixel : Prop :=
  ∀ (s : State) (x y : Byte) (val : Bit),
    encode (.setpix x y val) = 0x400000 ||| (val.setWidth 24 <<< 16) ||| (x.setWidth 24 <<< 8) ||| y.setWidth 24 ∧
    (s.Ready → ∃ t, exec (.setpix x y val) s = .next t ∧ t.Ready ∧
      (∀ a, ∀ j < 8, (t.readCache a).getLsbD j =
        if a = cacheOffset (canvasPos (clampX x) (clampY y)) ∧ j = (clampY y).toNat % 8 then decide (val = 1)
        else (s.readCache a).getLsbD j) ∧
      t.cursor.pos = nextPos (canvasPos (clampX x) (clampY y)) ∧ t.cursor.offset = cacheOffset t.cursor.pos ∧
      t.batch = s.batch ∧ t.rsp = s.rsp)

/-- 42_setpixel.md R102: SETPIX with BATCH = 0, with the transport live: GOTOXY twice, then the changed byte to
display and CACHE; the cursor one past it, by WRDATA's advance; the box untouched, nothing answered. -/
def Obligations.SetpixImmediateWritesThrough : Prop :=
  ∀ (s : State) (x y : Byte) (val : Bit), s.Ready → s.batch = 0 →
    ∃ t b, exec (.setpix x y val) s = .next t ∧
      b = setBit (s.readCache (pixelAddr x y)) (pixelBit y) val ∧
      t.tx = s.tx ++ gotoTxs s.params (pixelPos x y) ++ gotoTxs s.params (pixelPos x y) ++
        dataTxs s.params b (pixelPos x y) ∧
      t.cursor = Cursor.ofPos (nextPos (pixelPos x y)) ∧
      (∀ a, t.readCache a = if a = pixelAddr x y then b else s.readCache a) ∧
      t.Ready ∧ t.box = s.box ∧ t.batch = 0 ∧ t.rsp = s.rsp

/-- 42_setpixel.md R103: SETPIX with BATCH = 1, whatever the transport: the byte changed in CACHE only, the cursor
one past it, the box widened with the clamped pixel, nothing emitted, the display untouched. -/
def Obligations.SetpixDeferredStaysInTheCache : Prop :=
  ∀ (s : State) (x y : Byte) (val : Bit), s.Idle → s.batch = 1 →
    ∃ t, exec (.setpix x y val) s = .next t ∧
      (∀ a, t.readCache a =
        if a = pixelAddr x y then setBit (s.readCache a) (pixelBit y) val else s.readCache a) ∧
      t.cursor = Cursor.ofPos (nextPos (pixelPos x y)) ∧
      t.box.left.toNat = min s.box.left.toNat (clampX x).toNat ∧
      t.box.right.toNat = max s.box.right.toNat (clampX x).toNat ∧
      t.box.top.toNat = min s.box.top.toNat (clampY y).toNat ∧
      t.box.bottom.toNat = max s.box.bottom.toNat (clampY y).toNat ∧
      t.Idle ∧ t.tx = s.tx ∧ t.rsp = s.rsp ∧ t.lcd = s.lcd ∧ t.batch = 1

/-- 43_coalescer.md R110: DWSTART's encoding and effect: without a batch only the box and BATCH change; in a batch
DWEND is performed first, in full. -/
def Obligations.DwstartOpensABatch : Prop :=
  encode .dwstart = 0x500000 ∧
  (∀ s : State, s.Idle → s.batch = 0 →
    exec .dwstart s = .next { s with box := { left := 127, right := 0, top := 63, bottom := 0 }, batch := 1 }) ∧
  (∀ s : State, s.Ready → s.batch = 1 →
    ∃ u, exec .dwend s = .next u ∧
      exec .dwstart s = .next { u with box := { left := 127, right := 0, top := 63, bottom := 0 }, batch := 1 })

/-- 43_coalescer.md R111: DWUPDATE's encoding and effect: a no-op without a batch; in one the box is widened by the
raw operands and nothing else changes. -/
def Obligations.DwupdateWidensTheBox : Prop :=
  ∀ (s : State) (x y : Byte),
    encode (.dwupdate x y) = 0x600000 ||| (x.setWidth 24 <<< 8) ||| y.setWidth 24 ∧
    (s.batch = 0 → exec (.dwupdate x y) s = .next s) ∧
    (s.Idle → s.batch = 1 →
      ∃ b : Box, exec (.dwupdate x y) s = .next { s with box := b } ∧
        b.left.toNat = min s.box.left.toNat x.toNat ∧ b.right.toNat = max s.box.right.toNat x.toNat ∧
        b.top.toNat = min s.box.top.toNat y.toNat ∧ b.bottom.toNat = max s.box.bottom.toNat y.toNat)

/-- 43_coalescer.md R112, R113: DWEND's encoding and effect: nothing without a batch; in one, with the transport
live, the box clamped to the edges, the transactions of the covered rows in order and of the restoring GOTOXY, the
cursor where it was, CACHE byte for byte as it was, BATCH = 0. -/
def Obligations.DwendFlushesTheBox : Prop :=
  encode .dwend = 0x700000 ∧
  (∀ s : State, s.batch = 0 → exec .dwend s = .next s) ∧
  (∀ s : State, s.Ready → s.batch = 1 →
    ∃ t, exec .dwend s = .next t ∧
      t.box.left = s.box.left ∧ t.box.right.toNat = min s.box.right.toNat 127 ∧
      t.box.top = s.box.top ∧ t.box.bottom.toNat = min s.box.bottom.toNat 63 ∧
      t.tx = s.tx ++ flushTxs s.params s.readCache t.box ++ gotoTxs s.params s.cursor.pos ∧
      t.cursor = Cursor.ofPos s.cursor.pos ∧ (∀ a, t.readCache a = s.readCache a) ∧
      t.batch = 0 ∧ t.Ready ∧ t.rsp = s.rsp)

/-- 43_coalescer.md R114: how many transactions DWEND emits, and that it never emits more than 1074. -/
def Obligations.DwendTransactionCount : Prop :=
  ∀ (s t : State), s.Ready → exec .dwend s = .next t →
    (s.batch = 0 → t.tx.length = s.tx.length) ∧
    (s.batch = 1 → ¬ t.box.Nonempty → t.tx.length = s.tx.length + 2) ∧
    (s.batch = 1 → t.box.Nonempty →
      t.tx.length = s.tx.length + ((t.box.bottom.toNat / 8 - t.box.top.toNat / 8 + 1) *
        (2 + (t.box.right.toNat - t.box.left.toNat + 1)
          + (if t.box.left.toNat ≤ 63 ∧ 63 ≤ t.box.right.toNat then 2 else 0)
          + (if t.box.right.toNat = 127 then 2 else 0)) + 2)) ∧
    t.tx.length ≤ s.tx.length + 1074

/-- 43_coalescer.md R117 items 1 to 4, 6: after a flush (a DWEND or a DWSTART that found a batch), every covered
address is in VALID, not in DIRTY and shown as CACHE has it; the rest of the display is as before; CACHE, cursor and
SYNC as R117 says. No SYNC is needed on entry. It speaks of the LCD of 20_memory.md R47 (log 9, 10, 13). -/
def Obligations.FlushMakesTheDisplayShowTheCache : Prop :=
  ∀ (s t : State) (i : Instr), i = .dwend ∨ i = .dwstart → s.params.Wf → s.Ready → s.batch = 1 →
    exec i s = .next t →
    (∀ a, t.readCache a = s.readCache a) ∧ t.cursor = Cursor.ofPos s.cursor.pos ∧ t.Sync ∧
    (∀ a, s.box.clamp.Covers a →
      a.toNat ∈ t.ghost.valid ∧ a.toNat ∉ t.ghost.dirty ∧ t.lcd.ramAt a = t.readCache a) ∧
    (∀ a, ¬ s.box.clamp.Covers a → t.lcd.ramAt a = s.lcd.ramAt a) ∧
    t.batch = (if i = .dwend then 0 else 1) ∧ t.box.right.toNat ≤ 127 ∧ t.box.bottom.toNat ≤ 63

/-- 43_coalescer.md R117 item 5, 20_memory.md R49: from a state whose box covers what is dirty, a flush (DWEND, or
DWSTART in a batch) leaves nothing dirty, so that a coherent machine shows every valid byte as CACHE has it (log 9,
10, 13). -/
def Obligations.FlushLeavesNothingDirty : Prop :=
  ∀ (s t : State) (i : Instr), i = .dwend ∨ i = .dwstart → s.params.Wf → s.Ready → s.batch = 1 → s.DirtyInv →
    exec i s = .next t →
    t.ghost.dirty = [] ∧
      (s.Coherent → ∀ a : CacheAddr, a.toNat ∈ t.ghost.valid → t.lcd.ramAt a = t.readCache a)

/-! ### Frames: whatever next state a command answers, a completed or a stalled one -/

/-- 10_state.md R34, column "writes": whatever command runs, every byte of CACHE outside the address it stores to
reads as before; GOTOXY, RDDATA, DWUPDATE, DWSTART and DWEND leave every byte reading as before. -/
def Obligations.CacheFrame : Prop :=
  ∀ (i : Instr) (s t : State), exec i s = .next t →
    ∀ a, storeAddr i s ≠ some a → t.readCache a = s.readCache a

/-- 10_state.md R34, rows GOTOXY, WRDATA, RDDATA: what they leave unchanged. GOTOXY changes the cursor, the TX
channel and the LCD's address registers; WRDATA also CACHE, the display and the proof devices; RDDATA the RSP
channel only. -/
def Obligations.FrameOfCursorCommands : Prop :=
  (∀ (s t : State) (x y : Byte), exec (.gotoxy x y) s = .next t →
    t.params = s.params ∧ t.cache = s.cache ∧ t.box = s.box ∧ t.batch = s.batch ∧ t.rsp = s.rsp ∧
    t.reader = s.reader ∧ t.host = s.host ∧ t.resets = s.resets ∧ t.ghost = s.ghost ∧ t.lcd.ram = s.lcd.ram) ∧
  (∀ (s t : State) (d : Byte) (inv : Bit), exec (.wrdata d inv) s = .next t →
    t.params = s.params ∧ t.box = s.box ∧ t.batch = s.batch ∧ t.rsp = s.rsp ∧ t.reader = s.reader ∧
    t.host = s.host ∧ t.resets = s.resets) ∧
  (∀ s t : State, exec .rddata s = .next t →
    t.params = s.params ∧ t.cursor = s.cursor ∧ t.box = s.box ∧ t.batch = s.batch ∧ t.cache = s.cache ∧
    t.tx = s.tx ∧ t.transport = s.transport ∧ t.lcd = s.lcd ∧ t.ghost = s.ghost ∧ t.host = s.host ∧ t.resets = s.resets)

/-- 10_state.md R34, rows SETPIX: what it leaves unchanged in each mode; and of the byte it stores to, at most the
one bit of the pixel changes. -/
def Obligations.FrameOfSetpix : Prop :=
  ∀ (s t : State) (x y : Byte) (val : Bit), exec (.setpix x y val) s = .next t →
    t.params = s.params ∧ t.batch = s.batch ∧ t.rsp = s.rsp ∧ t.reader = s.reader ∧ t.host = s.host ∧
    t.resets = s.resets ∧ (s.batch = 0 → t.box = s.box) ∧
    (s.batch = 1 → t.tx = s.tx ∧ t.transport = s.transport ∧ t.lcd = s.lcd ∧ t.ghost.valid = s.ghost.valid ∧
      t.offer = s.offer) ∧
    (∀ j < 8, j ≠ (pixelBit y).toNat →
      (t.readCache (pixelAddr x y)).getLsbD j = (s.readCache (pixelAddr x y)).getLsbD j)

/-- 10_state.md R34, rows DWSTART, DWUPDATE, DWEND: what they leave unchanged. -/
def Obligations.FrameOfCoalescerCommands : Prop :=
  (∀ (s t : State) (x y : Byte), exec (.dwupdate x y) s = .next t →
    t = { s with box := t.box } ∧ (s.batch = 0 → t = s)) ∧
  (∀ s t : State, exec .dwstart s = .next t →
    t.params = s.params ∧ t.rsp = s.rsp ∧ t.reader = s.reader ∧ t.host = s.host ∧ t.resets = s.resets ∧
    (s.batch = 0 → t = { s with box := t.box, batch := t.batch })) ∧
  (∀ s t : State, exec .dwend s = .next t →
    t.params = s.params ∧ t.box.left = s.box.left ∧ t.box.top = s.box.top ∧ t.rsp = s.rsp ∧
    t.reader = s.reader ∧ t.host = s.host ∧ t.resets = s.resets ∧ (s.batch = 0 → t = s))

/-- 10_state.md R26: no command but DWSTART and DWEND writes BATCH; DWSTART leaves it 1 and DWEND 0 when they
complete. -/
def Obligations.OnlyDwstartAndDwendWriteBatch : Prop :=
  (∀ (i : Instr) (s t : State), i ≠ .dwstart → i ≠ .dwend → exec i s = .next t → t.batch = s.batch) ∧
  (∀ s t : State, exec .dwstart s = .next t → t.Idle → t.batch = 1) ∧
  (∀ s t : State, exec .dwend s = .next t → t.Idle → t.batch = 0)

/-- 30_encoding.md R68: exactly one response per completed RDDATA and none by any other command; the block is not
idle before the host has taken it. -/
def Obligations.OnlyRddataResponds : Prop :=
  (∀ (i : Instr) (s t : State), i ≠ .rddata → exec i s = .next t →
    t.rsp = s.rsp ∧ ∀ v, t.offer = some (.rsp v) → s.offer = some (.rsp v)) ∧
  (∀ s t : State, s.Idle → exec .rddata s = .next t → t.Idle → t.rsp = s.rsp ++ [s.readCache s.cursor.offset]) ∧
  (∀ s t : State, s.Idle → exec .rddata s = .next t → ¬ t.Idle →
    t.rsp = s.rsp ∧ t.offer = some (.rsp (s.readCache s.cursor.offset)))

/-- 10_state.md R31, 20_memory.md R48 item 4: no step but RESET takes a transaction or a response back. A step is no
RESET when none is next in the host's plan and, in a stall, none is planned behind waiting words either (log 20). -/
def Obligations.StreamsOnlyGrow : Prop :=
  ∀ s t : State, step s = .next t → (∀ r rest, s.host ≠ .reset r :: rest) →
    s.Idle ∨ (∀ r, HostEvent.reset r ∉ s.host) →
    s.tx <+: t.tx ∧ s.rsp <+: t.rsp

/-! ### Invariants every step keeps, from every state -/

/-- 10_state.md R28: every step keeps the invariants of the registers. -/
def Obligations.RegisterInvariantsAreKept : Prop :=
  ∀ s t : State, s.RegisterInv → step s = .next t → t.RegisterInv

/-- Every step keeps the canonical form of CACHE, the display RAM, VALID and DIRTY (the model's form, log 7). -/
def Obligations.MemoriesStayCanonical : Prop :=
  ∀ s t : State, s.MemoryInv → step s = .next t → t.MemoryInv

/-- 20_memory.md R49, 41_cache_access.md R93: COHERENT is kept by every step, stalls and RESET among them, provided
a WRDATA is taken only under SYNC (70_reset_and_hazards.md R143). It speaks of the LCD of R47 (log 9, 10, 13). -/
def Obligations.CoherenceIsKept : Prop :=
  ∀ s t : State, s.params.Wf → s.RegisterInv → s.Coherent → step s = .next t →
    (∀ w rest d inv, s.Idle → s.host = .command w :: rest → decode w = .ok (.wrdata d inv) → s.Sync) → t.Coherent

/-- 43_coalescer.md R115, R117 item 5: every step keeps it that nothing is dirty outside a batch and that the box
covers what is dirty in one (the LCD of R47; log 9, 10, 13). -/
def Obligations.DirtyBytesStayCovered : Prop :=
  ∀ s t : State, s.params.Wf → s.DirtyInv → step s = .next t → t.DirtyInv

/-- 30_encoding.md R67: every command byte emitted or on offer is one of the two kinds, and every step keeps that. -/
def Obligations.EmittedCommandsAreSetPageOrSetColumn : Prop :=
  ∀ s t : State, s.TxKnown → step s = .next t → t.TxKnown

/-- 10_state.md R28, 20_memory.md R49, 43_coalescer.md R117 item 5, 30_encoding.md R67: the five invariants hold
after reset, and the default parameters (log 9) are well-formed (92_eei_decisions.md D9). -/
def Obligations.InvariantsHoldAtReset : Prop :=
  State.reset.params.Wf ∧ State.reset.RegisterInv ∧ State.reset.MemoryInv ∧ State.reset.Coherent ∧
    State.reset.DirtyInv ∧ State.reset.TxKnown

/-- 60_exceptions.md R126 (row SYNC), 10_state.md R33: in immediate mode every completed command keeps SYNC;
GOTOXY, immediate SETPIX and a flush establish it; WRDATA and RDDATA keep it in both modes. By the LCD of R47 (log 9,
10). -/
def Obligations.SyncIsKeptInImmediateMode : Prop :=
  ∀ s t : State, s.params.Wf →
    (∀ i : Instr, s.batch = 0 → s.Sync → exec i s = .next t → t.Idle → t.Sync) ∧
    (∀ x y : Byte, exec (.gotoxy x y) s = .next t → t.Idle → t.Sync) ∧
    (∀ (x y : Byte) (val : Bit), s.batch = 0 → exec (.setpix x y val) s = .next t → t.Idle → t.Sync) ∧
    (s.batch = 1 → exec .dwend s = .next t → t.Idle → t.Sync) ∧
    (s.batch = 1 → exec .dwstart s = .next t → t.Idle → t.Sync) ∧
    (∀ (d : Byte) (inv : Bit), s.Sync → exec (.wrdata d inv) s = .next t → t.Idle → t.Sync) ∧
    (s.Sync → exec .rddata s = .next t → t.Sync)

/-! ### Whole-machine rules -/

/-- 42_setpixel.md R104: for the same operands and the same state but for BATCH, the two modes of SETPIX leave the
same CACHE and the same cursor; they differ in TX (5 or 7 transactions against none), in the box and in the display:
immediate leaves SYNC and the byte shown, valid and not dirty, deferred the display alone and the byte dirty (by the
LCD of R47 and the sets of R49; log 9, 10, 13). -/
def Obligations.SetpixModesAgree : Prop :=
  ∀ (s : State) (x y : Byte) (val : Bit), s.Ready → s.batch = 0 →
    ∃ t u, exec (.setpix x y val) s = .next t ∧ exec (.setpix x y val) { s with batch := 1 } = .next u ∧
      t.cursor = u.cursor ∧ (∀ a, t.readCache a = u.readCache a) ∧
      t.tx.length = s.tx.length + (if (pixelPos x y).col = 63 then 7 else 5) ∧ u.tx = s.tx ∧
      t.box = s.box ∧ u.box = s.box.widen (clampX x) (clampY y) ∧
      (s.params.Wf → t.Sync ∧ (pixelAddr x y).toNat ∈ t.ghost.valid ∧ (pixelAddr x y).toNat ∉ t.ghost.dirty ∧
        ∀ a, t.lcd.ramAt a = if a = pixelAddr x y then t.readCache a else s.lcd.ramAt a) ∧
      u.lcd = s.lcd ∧ u.ghost.valid = s.ghost.valid ∧
      (∀ k, k ∈ u.ghost.dirty ↔ k = (pixelAddr x y).toNat ∨ k ∈ s.ghost.dirty)

/-- 42_setpixel.md R105, R100: set then clear of one pixel, in either mode, clears its bit and restores the byte
exactly when the bit was 0. -/
def Obligations.SetThenClearOfAPixel : Prop :=
  ∀ (s : State) (x y : Byte), s.Ready →
    ∃ t, execAll [.setpix x y 1, .setpix x y 0] s = .next t ∧
      t.readCache (pixelAddr x y) = s.readCache (pixelAddr x y) &&& ~~~((1 : Byte) <<< (pixelBit y).toNat) ∧
      (t.readCache (pixelAddr x y) = s.readCache (pixelAddr x y) ↔
        (s.readCache (pixelAddr x y)).getLsbD (pixelBit y).toNat = false) ∧
      ∀ a, a ≠ pixelAddr x y → t.readCache a = s.readCache a

/-- 20_memory.md R47, the reference model of the LCD (log 9, 10 for what the spec takes from general knowledge): what
each kind of transaction does to the registers of its half and to the display RAM; the other half is unchanged. -/
def Obligations.LcdAppliesATransaction : Prop :=
  ∀ (c : Params) (d : Lcd) (cs : Bit),
    (∀ (t : Tx) (h : Bit), h ≠ t.cs → (d.receive c t).regs h = d.regs h) ∧
    (c.Wf → ∀ page : BitVec 3,
      (d.receive c { cs := cs, dc := 0, b := c.cmdPageBase ||| page.setWidth 8 }).regs cs =
        { page := page, col := (d.regs cs).col }) ∧
    (c.Wf → ∀ col : BitVec 6,
      (d.receive c { cs := cs, dc := 0, b := c.cmdColBase ||| col.setWidth 8 }).regs cs =
        { page := (d.regs cs).page, col := col }) ∧
    (∀ (b : Byte) (a : CacheAddr), (d.receive c { cs := cs, dc := 0, b := b }).ramAt a = d.ramAt a) ∧
    (∀ b : Byte,
      ((d.receive c { cs := cs, dc := 1, b := b }).regs cs).page = (d.regs cs).page ∧
      ((d.receive c { cs := cs, dc := 1, b := b }).regs cs).col.toNat = ((d.regs cs).col.toNat + 1) % 64 ∧
      ∀ a, (d.receive c { cs := cs, dc := 1, b := b }).ramAt a =
        if a = cacheOffset { cs := cs, col := (d.regs cs).col, page := (d.regs cs).page } then b else d.ramAt a)

/-- 41_cache_access.md R93, 70_reset_and_hazards.md R143: WRDATA stores the same byte in CACHE at the logical cursor
and on the display at the hardware cursor. Under SYNC the two are one address; it enters VALID and leaves DIRTY,
SYNC holds again, the cursor is at `next`, and COHERENT is kept (log 9, 10, 13). -/
def Obligations.WrdataUnderSyncWritesOneAddress : Prop :=
  ∀ (s : State) (d : Byte) (inv : Bit), s.Ready →
    ∃ t, exec (.wrdata d inv) s = .next t ∧ t.readCache s.cursor.offset = dataByte d inv ∧
      (∀ a, t.lcd.ramAt a = if a = s.lcd.target s.cursor.cs then dataByte d inv else s.lcd.ramAt a) ∧
      (s.Sync → s.cursor = Cursor.ofPos s.cursor.pos →
        s.lcd.target s.cursor.cs = s.cursor.offset ∧ (s.params.Wf → t.Sync) ∧
        t.cursor = Cursor.ofPos (nextPos s.cursor.pos) ∧
        (∀ k, k ∈ t.ghost.valid ↔ k = s.cursor.offset.toNat ∨ k ∈ s.ghost.valid) ∧
        (∀ k, k ∈ t.ghost.dirty ↔ k ∈ s.ghost.dirty ∧ k ≠ s.cursor.offset.toNat) ∧ (s.Coherent → t.Coherent))

/-- 41_cache_access.md R91 (corner cases), 70_reset_and_hazards.md R150: a byte written and re-addressed is read back;
RDDATA straight after WRDATA answers the byte of the next position, as CACHE held it before. -/
def Obligations.WrittenByteIsReadBack : Prop :=
  (∀ (s : State) (x y d : Byte) (inv : Bit), s.Ready → s.reader = .live →
    ∃ t, execAll [.gotoxy x y, .wrdata d inv, .gotoxy x y, .rddata] s = .next t ∧
      t.rsp = s.rsp ++ [dataByte d inv]) ∧
  (∀ (s : State) (d : Byte) (inv : Bit), s.Ready → s.reader = .live → s.cursor = Cursor.ofPos s.cursor.pos →
    ∃ t, execAll [.wrdata d inv, .rddata] s = .next t ∧
      t.rsp = s.rsp ++ [s.readCache (cacheOffset (nextPos s.cursor.pos))])

/-- 70_reset_and_hazards.md R142 step 3, 30_encoding.md R72: `CLRALL` from any idle state with the transport live: every
byte of CACHE and of the display 0 and in VALID, nothing dirty, COHERENT, SYNC, the cursor at the origin, 1058
transactions; the box and BATCH are untouched (the LCD of R47; log 9, 10). -/
def Obligations.ClrallGivesAKnownDisplay : Prop :=
  ∀ s : State, s.params.Wf → s.Ready →
    ∃ t, execAll (expandLine .clrall) s = .next t ∧ t.Ready ∧
      (∀ a, t.readCache a = 0 ∧ t.lcd.ramAt a = 0 ∧ a.toNat ∈ t.ghost.valid ∧ a.toNat ∉ t.ghost.dirty) ∧
      t.Coherent ∧ t.Sync ∧ t.cursor = { cs := 0, col := 0, page := 0, offset := 0 } ∧
      t.tx.length = s.tx.length + 1058 ∧ t.box = s.box ∧ t.batch = s.batch

/-- 41_cache_access.md R92: a run of up to 1024 WRDATA, each with its own byte and inversion, from position `p`: the
cursor is at `next` applied so often, byte k is at the k-th position, every other byte is as before, and the
transactions are the data bytes with the two commands of a wrap after each position in column 63. The marks of the
source: 64 and 128 bytes from the origin, and 1024 from anywhere. -/
def Obligations.RunOfWrdataWalksTheDisplay : Prop :=
  (∀ (s : State) (p : Pos) (ds : List (Byte × Bit)), s.Ready → s.cursor = Cursor.ofPos p → ds.length ≤ 1024 →
    ∃ t, execAll (ds.map fun q => .wrdata q.1 q.2) s = .next t ∧ t.Ready ∧
      t.cursor = Cursor.ofPos (nextPos^[ds.length] p) ∧
      t.tx = s.tx ++ runTxs s.params (ds.map fun q => dataByte q.1 q.2) p ∧
      (∀ (k : Nat) (q : Byte × Bit), ds[k]? = some q →
        t.readCache (cacheOffset (nextPos^[k] p)) = dataByte q.1 q.2) ∧
      (∀ a, (∀ k < ds.length, a ≠ cacheOffset (nextPos^[k] p)) → t.readCache a = s.readCache a)) ∧
  nextPos^[64] { cs := 0, col := 0, page := 0 } = { cs := 1, col := 0, page := 0 } ∧
  nextPos^[128] { cs := 0, col := 0, page := 0 } = { cs := 0, col := 0, page := 1 } ∧
  (∀ p : Pos, nextPos^[1024] p = p)

/-- 43_coalescer.md R115: after a batch of SETPIX commands the box is the bounding box of their clamped
coordinates; with DWUPDATE commands (those without a value) among them it still contains every pixel of a SETPIX. -/
def Obligations.BoxCoversTheBatch : Prop :=
  (∀ (s : State) (pixels : List (Byte × Byte × Bit)), s.Ready → pixels ≠ [] →
    ∃ t, execAll (.dwstart :: pixels.map (fun q => .setpix q.1 q.2.1 q.2.2) ++ [.dwend]) s = .next t ∧ t.batch = 0 ∧
      (∀ q ∈ pixels, t.box.left ≤ clampX q.1 ∧ clampX q.1 ≤ t.box.right ∧
        t.box.top ≤ clampY q.2.1 ∧ clampY q.2.1 ≤ t.box.bottom) ∧
      (∃ q ∈ pixels, t.box.left = clampX q.1) ∧ (∃ q ∈ pixels, t.box.right = clampX q.1) ∧
      (∃ q ∈ pixels, t.box.top = clampY q.2.1) ∧ (∃ q ∈ pixels, t.box.bottom = clampY q.2.1)) ∧
  (∀ (s : State) (points : List (Byte × Byte × Option Bit)), s.Ready →
    ∃ t, execAll (.dwstart :: points.map (fun q =>
          match q.2.2 with
          | some val => .setpix q.1 q.2.1 val
          | none => .dwupdate q.1 q.2.1) ++ [.dwend]) s = .next t ∧ t.batch = 0 ∧
      ∀ q ∈ points, q.2.2 ≠ none → t.box.left ≤ clampX q.1 ∧ clampX q.1 ≤ t.box.right ∧
        t.box.top ≤ clampY q.2.1 ∧ clampY q.2.1 ≤ t.box.bottom)

/-- 43_coalescer.md R116: batches do not nest. A bracket inside a bracket does what closing the outer batch first,
then the inner bracket, then the rest without a batch does; the last DWEND does nothing. -/
def Obligations.BatchesDoNotNest : Prop :=
  ∀ (s : State) (outer inner rest : List (Byte × Byte × Bit)), s.Ready →
    let pixels := fun l : List (Byte × Byte × Bit) => l.map fun q => Instr.setpix q.1 q.2.1 q.2.2
    ∃ t, t.batch = 0 ∧
      execAll (.dwstart :: pixels outer ++ .dwstart :: pixels inner ++ .dwend :: pixels rest ++ [.dwend]) s = .next t ∧
      execAll (.dwstart :: pixels outer ++ [.dwend] ++ .dwstart :: pixels inner ++ [.dwend] ++ pixels rest) s = .next t

/-- 10_state.md R28 item 5, 43_coalescer.md R115: `BOX_EMPTY` is degenerate, and one widening of a box that meets
the invariants, by whatever operands, makes a box that the clamp of DWEND leaves non-degenerate and that contains
the point if it is on the canvas. -/
def Obligations.WideningMakesTheBoxNonDegenerate : Prop :=
  ¬ Box.empty.Nonempty ∧
  ∀ (s t : State) (x y : Byte), s.RegisterInv → s.Idle → s.batch = 1 → exec (.dwupdate x y) s = .next t →
    t.box.Nonempty ∧ t.box.clamp.Nonempty ∧
    (x.toNat ≤ 127 → y.toNat ≤ 63 → t.box.clamp.Covers (cacheOffset (canvasPos x y)))

/-- 60_exceptions.md R127: a transport that accepts `n` transactions and then no more cuts the command off. If the
command emits no more than `n` it completes as with a live transport; else exactly its first `n` are delivered and
the next stays on offer. -/
def Obligations.StallCutsTheCommandOff : Prop :=
  ∀ (i : Instr) (s : State) (n : Nat), s.Idle → s.transport = .live →
    ∃ (t t' : State) (es : List Tx), exec i s = .next t ∧
      exec i { s with transport := .stallsAfter n } = .next t' ∧ t.tx = s.tx ++ es ∧
      (es.length ≤ n → t' = { t with transport := .stallsAfter (n - es.length) }) ∧
      (∀ e, es[n]? = some e → t'.tx = s.tx ++ es.take n ∧ t'.offer = some (.tx e) ∧ t'.rsp = s.rsp)

/-- 60_exceptions.md R127, 20_memory.md R48 item 2: where a cut-off GOTOXY, WRDATA and immediate SETPIX stand. GOTOXY
has loaded the cursor; WRDATA stalled at its data transaction has neither stored nor moved, and stalled at either
transaction of its wrap has done both; SETPIX stalled before its store has CACHE as it was and the cursor at the
pixel's byte. -/
def Obligations.StalledCommandsStopBetweenLines : Prop :=
  (∀ (s : State) (x y : Byte), s.Idle → s.transport = .stallsAfter 0 →
    exec (.gotoxy x y) s = .next { s with
      cursor := Cursor.ofPos (pixelPos x y), offer := some (.tx (Tx.setPage s.params (pixelPos x y))) }) ∧
  (∀ (s : State) (x y : Byte), s.Idle → s.transport = .stallsAfter 1 →
    exec (.gotoxy x y) s = .next { s with
      cursor := Cursor.ofPos (pixelPos x y), transport := .stallsAfter 0
      tx := s.tx ++ [Tx.setPage s.params (pixelPos x y)]
      lcd := s.lcd.receive s.params (Tx.setPage s.params (pixelPos x y))
      offer := some (.tx (Tx.setCol s.params (pixelPos x y))) }) ∧
  (∀ (s : State) (d : Byte) (inv : Bit), s.Idle → s.transport = .stallsAfter 0 →
    exec (.wrdata d inv) s = .next { s with
      offer := some (.tx { cs := s.cursor.cs, dc := 1, b := dataByte d inv }) }) ∧
  (∀ (s : State) (d : Byte) (inv : Bit) (n : Nat), s.Idle → s.transport = .stallsAfter (n + 1) → n ≤ 1 →
    s.cursor.col = 63 →
    ∃ t, exec (.wrdata d inv) s = .next t ∧
      (∀ a, t.readCache a = if a = s.cursor.offset then dataByte d inv else s.readCache a) ∧
      t.cursor = Cursor.ofPos (nextPos s.cursor.pos) ∧
      t.tx = s.tx ++ { cs := s.cursor.cs, dc := 1, b := dataByte d inv } ::
        (gotoTxs s.params (nextPos s.cursor.pos)).take n ∧
      t.offer = some (.tx (if n = 0 then Tx.setPage s.params (nextPos s.cursor.pos)
        else Tx.setCol s.params (nextPos s.cursor.pos)))) ∧
  (∀ (s : State) (x y : Byte) (val : Bit) (n : Nat), s.Idle → s.batch = 0 → s.transport = .stallsAfter n → n ≤ 4 →
    ∃ t e, exec (.setpix x y val) s = .next t ∧ t.offer = some (.tx e) ∧ t.cache = s.cache ∧
      t.cursor = Cursor.ofPos (pixelPos x y))

/-- 10_state.md R27, R31, 70_reset_and_hazards.md R149: nothing of the display comes back. Two machines that differ
only in the LCD and in the proof devices execute any command alike: registers, CACHE, TX and RSP stay equal. -/
def Obligations.TheDisplayIsNeverReadBack : Prop :=
  ∀ (i : Instr) (s : State) (d : Lcd) (g : Ghost),
    ∃ t t', exec i s = .next t ∧ exec i { s with lcd := d, ghost := g } = .next t' ∧
      t' = { t with lcd := t'.lcd, ghost := t'.ghost }

/-- 20_memory.md R46: what repeating a command does: RDDATA answers the same byte; GOTOXY changes only the TX
stream; DWEND does nothing; deferred SETPIX and DWUPDATE change nothing. -/
def Obligations.RepeatedCommands : Prop :=
  (∀ s : State, s.Idle → s.reader = .live →
    execAll [.rddata, .rddata] s =
      .next { s with rsp := s.rsp ++ [s.readCache s.cursor.offset, s.readCache s.cursor.offset] }) ∧
  (∀ (s : State) (x y : Byte), s.Ready →
    ∃ t, exec (.gotoxy x y) s = .next t ∧
      exec (.gotoxy x y) t = .next { t with tx := t.tx ++ gotoTxs s.params (pixelPos x y) }) ∧
  (∀ s t : State, s.Ready → exec .dwend s = .next t → exec .dwend t = .next t) ∧
  (∀ (s t : State) (x y : Byte) (val : Bit), s.Idle → s.batch = 1 → exec (.setpix x y val) s = .next t →
    exec (.setpix x y val) t = .next t) ∧
  (∀ (s t : State) (x y : Byte), exec (.dwupdate x y) s = .next t → exec (.dwupdate x y) t = .next t)

/-- 60_exceptions.md R125, R127: a flush cut off by the transport, in DWEND or in DWSTART, leaves the batch open and
the box clamped, CACHE as it reads, and the cursor where the blocked line stands, not at the saved position: at the
start of a row, at the byte on offer, at the position a wrap leads to, or, at its last line, at the saved position.
Cut off at its very first transaction it stands at the start of the first row. -/
def Obligations.StalledFlushStaysInTheBatch : Prop :=
  (∀ (s t : State) (i : Instr) (e : Tx), i = .dwend ∨ i = .dwstart → s.Idle → s.batch = 1 → exec i s = .next t →
    t.offer = some (.tx e) →
    t.batch = 1 ∧ t.box = s.box.clamp ∧ (∀ a, t.readCache a = s.readCache a) ∧
      (e.dc = 0 → e ∈ gotoTxs s.params t.cursor.pos) ∧
      (e.dc = 1 → e = { cs := t.cursor.cs, dc := 1, b := s.readCache t.cursor.offset } ∧
        s.box.clamp.Covers t.cursor.offset)) ∧
  (∀ (s : State) (i : Instr), i = .dwend ∨ i = .dwstart → s.Idle → s.batch = 1 → s.box.clamp.Nonempty →
    s.transport = .stallsAfter 0 →
    exec i s = .next { s with
      box := s.box.clamp, cursor := Cursor.ofPos (canvasAt s.box.left.toNat (s.box.top.toNat / 8))
      offer := some (.tx (Tx.setPage s.params (canvasAt s.box.left.toNat (s.box.top.toNat / 8)))) })

/-- 00_scope.md R6, 10_state.md R30: the two parameters are fixed: no command and no step changes them, RESET neither
(that they stand in the state is the model's choice, log 9). -/
def Obligations.ParametersAreFixed : Prop :=
  (∀ (i : Instr) (s t : State), exec i s = .next t → t.params = s.params) ∧
  (∀ s t : State, step s = .next t → t.params = s.params)
end

