-- ==== Sys2Proof/Laws/Coordinates.lean ====
section
/-! SUPPORT. The laws of the coordinate functions (40_addressing.md R80 to R84), as natural numbers where that is
what later proofs compute with. -/

namespace Sys2Proof.Machine

theorem bit_cases (b : Bit) : b = 0 ∨ b = 1 := by
  revert b; decide

theorem bit_ne_zero {b : Bit} : b ≠ 0 ↔ b = 1 := by
  revert b; decide

theorem bit_ne_one {b : Bit} : b ≠ 1 ↔ b = 0 := by
  revert b; decide

/-! ### The clamp -/

theorem clampX_toNat (x : Byte) : (clampX x).toNat = if 127 < x.toNat then 0 else x.toNat := by
  unfold clampX; simp only [BitVec.lt_def]; split <;> simp_all

theorem clampY_toNat (y : Byte) : (clampY y).toNat = if 63 < y.toNat then 0 else y.toNat := by
  unfold clampY; simp only [BitVec.lt_def]; split <;> simp_all

theorem clampX_le (x : Byte) : (clampX x).toNat ≤ 127 := by
  rw [clampX_toNat]; split <;> omega

theorem clampY_le (y : Byte) : (clampY y).toNat ≤ 63 := by
  rw [clampY_toNat]; split <;> omega

theorem clampX_of_le {x : Byte} (h : x.toNat ≤ 127) : clampX x = x :=
  BitVec.eq_of_toNat_eq (by rw [clampX_toNat, if_neg (by omega)])

theorem clampY_of_le {y : Byte} (h : y.toNat ≤ 63) : clampY y = y :=
  BitVec.eq_of_toNat_eq (by rw [clampY_toNat, if_neg (by omega)])

@[simp] theorem clampX_clampX (x : Byte) : clampX (clampX x) = clampX x := clampX_of_le (clampX_le x)

@[simp] theorem clampY_clampY (y : Byte) : clampY (clampY y) = clampY y := clampY_of_le (clampY_le y)

/-! ### The map and the way back -/

theorem Pos.ext_toNat {p q : Pos} (h1 : p.cs.toNat = q.cs.toNat) (h2 : p.col.toNat = q.col.toNat)
    (h3 : p.page.toNat = q.page.toNat) : p = q := by
  cases p; cases q
  simp only [Pos.mk.injEq]
  exact ⟨BitVec.eq_of_toNat_eq h1, BitVec.eq_of_toNat_eq h2, BitVec.eq_of_toNat_eq h3⟩

theorem canvasPos_cs (x y : Byte) : (canvasPos x y).cs.toNat = if 64 ≤ x.toNat then 1 else 0 := by
  simp only [canvasPos, BitVec.le_def]; split <;> simp_all

theorem canvasPos_col (x y : Byte) : (canvasPos x y).col.toNat = x.toNat % 64 := by
  have h : (64 : Byte).toNat = 64 := rfl
  have := x.isLt
  simp only [canvasPos, BitVec.le_def, h]
  split
  · simp; omega
  · simp

theorem canvasPos_page {y : Byte} (hy : y.toNat ≤ 63) (x : Byte) : (canvasPos x y).page.toNat = y.toNat / 8 := by
  simp [canvasPos, Nat.shiftRight_eq_div_pow]; omega

theorem logX_toNat (cs : Bit) (col : BitVec 6) : (logX cs col).toNat = 64 * cs.toNat + col.toNat := by
  have := cs.isLt; have := col.isLt
  simp [logX]; omega

theorem logY_toNat (page : BitVec 3) : (logY page).toNat = 8 * page.toNat := by
  have := page.isLt
  simp [logY]; omega

/-- The way back is exact, through the clamp (40_addressing.md R84). -/
theorem canvasPos_log (cs : Bit) (col : BitVec 6) (page : BitVec 3) :
    canvasPos (clampX (logX cs col)) (clampY (logY page)) = { cs := cs, col := col, page := page } := by
  have h1 := cs.isLt; have h2 := col.isLt; have h3 := page.isLt
  have hx : (logX cs col).toNat ≤ 127 := by rw [logX_toNat]; omega
  have hy : (logY page).toNat ≤ 63 := by rw [logY_toNat]; omega
  rw [clampX_of_le hx, clampY_of_le hy]
  refine Pos.ext_toNat ?_ ?_ ?_
  · rw [canvasPos_cs, logX_toNat]; split <;> dsimp only <;> omega
  · rw [canvasPos_col, logX_toNat]; dsimp only; omega
  · rw [canvasPos_page hy, logY_toNat]; dsimp only; omega

/-- The wrap of WRDATA from chip 1 lands on column 0 of chip 2, the same page. -/
theorem canvasPos_wrap1 (page : BitVec 3) :
    canvasPos (clampX 64) (clampY (8 * page.setWidth 8)) = { cs := 1, col := 0, page := page } := by
  revert page; decide

/-- The wrap of WRDATA from chip 2 lands on column 0 of chip 1, the next page, page 7 going to page 0. -/
theorem canvasPos_wrap2 (page : BitVec 3) :
    canvasPos (clampX 0) (clampY (8 * page.setWidth 8 + 8)) = { cs := 0, col := 0, page := page + 1 } := by
  revert page; decide

theorem canvasAt_eq {x p : Nat} (hx : x ≤ 127) (hp : p ≤ 7) :
    (canvasAt x p).cs.toNat = x / 64 ∧ (canvasAt x p).col.toNat = x % 64 ∧ (canvasAt x p).page.toNat = p := by
  have h1 : (BitVec.ofNat 8 x).toNat = x := by simp; omega
  have h2 : (BitVec.ofNat 8 (8 * p)).toNat = 8 * p := by simp; omega
  refine ⟨?_, ?_, ?_⟩
  · rw [canvasAt, canvasPos_cs, h1]; split <;> omega
  · rw [canvasAt, canvasPos_col, h1]
  · rw [canvasAt, canvasPos_page (by omega), h2]; omega

/-! ### Addresses -/

theorem cacheOffset_toNat (p : Pos) : (cacheOffset p).toNat = 512 * p.cs.toNat + 8 * p.col.toNat + p.page.toNat := by
  obtain ⟨cs, col, page⟩ := p
  have h2 := col.isLt; have h3 := page.isLt
  rcases bit_cases cs with rfl | rfl <;>
    simp [cacheOffset, halfBase, Nat.shiftLeft_eq] <;> omega

theorem cacheOffset_injective {p q : Pos} (h : cacheOffset p = cacheOffset q) : p = q := by
  have h := congrArg BitVec.toNat h
  rw [cacheOffset_toNat, cacheOffset_toNat] at h
  have := p.cs.isLt; have := p.col.isLt; have := p.page.isLt
  have := q.cs.isLt; have := q.col.isLt; have := q.page.isLt
  exact Pos.ext_toNat (by omega) (by omega) (by omega)

theorem addrX_toNat (a : CacheAddr) : (addrX a).toNat = a.toNat / 8 := by
  have := a.isLt
  simp [addrX, Nat.shiftRight_eq_div_pow]; omega

theorem addrPage_toNat (a : CacheAddr) : (addrPage a).toNat = a.toNat % 8 := by
  have h : a.toNat &&& 7 = a.toNat % 8 := Nat.and_two_pow_sub_one_eq_mod a.toNat 3
  rw [addrPage, BitVec.toNat_setWidth, BitVec.toNat_and]
  show (a.toNat &&& 7) % 256 = _
  omega

theorem addrX_cacheOffset (p : Pos) : (addrX (cacheOffset p)).toNat = 64 * p.cs.toNat + p.col.toNat := by
  have := p.page.isLt
  rw [addrX_toNat, cacheOffset_toNat]; omega

theorem addrPage_cacheOffset (p : Pos) : (addrPage (cacheOffset p)).toNat = p.page.toNat := by
  have := p.page.isLt
  rw [addrPage_toNat, cacheOffset_toNat]; omega

/-! ### The next position -/

theorem col_lt_iff (c : BitVec 6) : c < 63 ↔ c ≠ 63 := by
  revert c; decide

theorem nextPos_of_lt {p : Pos} (h : p.col < 63) : nextPos p = { cs := p.cs, col := p.col + 1, page := p.page } := by
  rw [nextPos, if_pos h]

theorem cacheOffset_next {p : Pos} (h : p.col < 63) : cacheOffset (nextPos p) = cacheOffset p + 8 := by
  have h' : p.col.toNat < 63 := h
  have h1 := p.cs.isLt; have h3 := p.page.isLt
  have hc : (p.col + 1).toNat = p.col.toNat + 1 := by simp; omega
  apply BitVec.eq_of_toNat_eq
  rw [nextPos_of_lt h, BitVec.toNat_add, cacheOffset_toNat, cacheOffset_toNat]
  simp only [hc]
  show _ = (_ + 8) % 1024
  omega

/-- Inside a canvas row, `next` is one column to the right, across the border of the halves too. -/
theorem nextPos_canvasAt {x p : Nat} (hx : x < 127) (hp : p ≤ 7) : nextPos (canvasAt x p) = canvasAt (x + 1) p := by
  obtain ⟨a1, a2, a3⟩ := canvasAt_eq (x := x) (by omega) hp
  obtain ⟨b1, b2, b3⟩ := canvasAt_eq (x := x + 1) (by omega) hp
  by_cases h : (canvasAt x p).col < 63
  · have h' : (canvasAt x p).col.toNat < 63 := h
    rw [nextPos_of_lt h]
    refine Pos.ext_toNat ?_ ?_ ?_
    · rw [b1]; show (canvasAt x p).cs.toNat = _; rw [a1]; omega
    · rw [b2]; show ((canvasAt x p).col + 1).toNat = _
      rw [BitVec.toNat_add, a2]; show (_ + 1) % 64 = _; omega
    · rw [b3]; exact a3
  · have h' : ¬ (canvasAt x p).col.toNat < 63 := h
    have hcs : (canvasAt x p).cs = 0 := BitVec.eq_of_toNat_eq (by rw [a1]; show _ = 0; omega)
    rw [nextPos, if_neg h, if_pos hcs]
    refine Pos.ext_toNat ?_ ?_ ?_
    · rw [b1]; show 1 = _; omega
    · rw [b2]; show 0 = _; omega
    · rw [b3]; exact a3

theorem col_eq_63_iff {x p : Nat} (hx : x ≤ 127) (hp : p ≤ 7) : (canvasAt x p).col = 63 ↔ x = 63 ∨ x = 127 := by
  obtain ⟨-, a2, -⟩ := canvasAt_eq hx hp
  constructor
  · intro h; rw [h] at a2; change 63 = _ at a2; omega
  · intro h; exact BitVec.eq_of_toNat_eq (by rw [a2]; show _ = 63; omega)

/-! ### The LCD's registers by half -/

@[simp] theorem Lcd.regs_setRegs_same (cs : Bit) (r : LcdRegs) (d : Lcd) : (d.setRegs cs r).regs cs = r := by
  rcases bit_cases cs with rfl | rfl <;> simp [Lcd.setRegs, Lcd.regs]

theorem Lcd.regs_setRegs_other {cs h : Bit} (hne : h ≠ cs) (r : LcdRegs) (d : Lcd) :
    (d.setRegs cs r).regs h = d.regs h := by
  rcases bit_cases cs with rfl | rfl <;> rcases bit_cases h with rfl | rfl <;> simp_all [Lcd.setRegs, Lcd.regs]

@[simp] theorem Lcd.setRegs_ram (cs : Bit) (r : LcdRegs) (d : Lcd) : (d.setRegs cs r).ram = d.ram := by
  unfold Lcd.setRegs; split <;> rfl

@[simp] theorem Lcd.setRegs_setRegs (cs : Bit) (r r' : LcdRegs) (d : Lcd) :
    (d.setRegs cs r).setRegs cs r' = d.setRegs cs r' := by
  unfold Lcd.setRegs; split <;> rfl

theorem Lcd.setRegs_regs (cs : Bit) (d : Lcd) : d.setRegs cs (d.regs cs) = d := by
  unfold Lcd.setRegs Lcd.regs; split <;> rfl

/-- A "set page" command loads the page register and nothing else. -/
theorem LcdRegs.command_page {c : Params} (hc : c.Wf) (q : BitVec 3) (r : LcdRegs) :
    r.command c (c.cmdPageBase ||| q.setWidth 8) = { r with page := q } := by
  have h : ∀ b : Byte, b &&& 0x07 = 0 → ∀ q : BitVec 3, (b ||| q.setWidth 8) &&& 0xF8 = b ∧
      (b ||| q.setWidth 8) &&& 0xC0 = b &&& 0xC0 ∧ (b ||| q.setWidth 8).setWidth 3 = q := by decide
  obtain ⟨h1, h2, h3⟩ := h _ hc.1 q
  unfold LcdRegs.command
  rw [if_pos h1, if_neg (h2 ▸ hc.2.2), h3]

/-- A "set column" command loads the column register and nothing else. -/
theorem LcdRegs.command_col {c : Params} (hc : c.Wf) (q : BitVec 6) (r : LcdRegs) :
    r.command c (c.cmdColBase ||| q.setWidth 8) = { r with col := q } := by
  have h : ∀ b : Byte, b &&& 0x3F = 0 → ∀ q : BitVec 6, (b ||| q.setWidth 8) &&& 0xF8 &&& 0xC0 = b ∧
      (b ||| q.setWidth 8) &&& 0xC0 = b ∧ (b ||| q.setWidth 8).setWidth 6 = q := by decide
  obtain ⟨h1, h2, h3⟩ := h _ hc.2.1 q
  have h0 : (c.cmdColBase ||| q.setWidth 8) &&& 0xF8 ≠ c.cmdPageBase := fun e => hc.2.2 (by rw [← e, h1])
  unfold LcdRegs.command
  rw [if_neg h0, if_pos h2, h3]

theorem Lcd.receive_setPage {c : Params} (hc : c.Wf) (p : Pos) (d : Lcd) :
    d.receive c (Tx.setPage c p) = d.setRegs p.cs { d.regs p.cs with page := p.page } :=
  congrArg (fun r => d.setRegs p.cs r) (LcdRegs.command_page hc p.page (d.regs p.cs))

theorem Lcd.receive_setCol {c : Params} (hc : c.Wf) (p : Pos) (d : Lcd) :
    d.receive c (Tx.setCol c p) = d.setRegs p.cs { d.regs p.cs with col := p.col } :=
  congrArg (fun r => d.setRegs p.cs r) (LcdRegs.command_col hc p.col (d.regs p.cs))

/-- A transaction leaves the registers of the other half. -/
theorem Lcd.receive_regs_other {t : Tx} {h : Bit} (hne : h ≠ t.cs) (c : Params) (d : Lcd) :
    (d.receive c t).regs h = d.regs h := by
  unfold Lcd.receive
  dsimp only
  split
  · exact Lcd.regs_setRegs_other hne _ _
  · exact Lcd.regs_setRegs_other hne _ d

/-- A command transaction leaves the display RAM. -/
theorem Lcd.receive_command_ram {t : Tx} (h : t.dc = 0) (c : Params) (d : Lcd) : (d.receive c t).ram = d.ram := by
  unfold Lcd.receive
  dsimp only
  rw [if_pos h, Lcd.setRegs_ram]

/-- The LCD after the two transactions of a GOTOXY. -/
def Lcd.goto (c : Params) (p : Pos) (d : Lcd) : Lcd := (d.receive c (Tx.setPage c p)).receive c (Tx.setCol c p)

/-- Both loads: the registers of the half are the position's. -/
theorem Lcd.goto_eq {c : Params} (hc : c.Wf) (p : Pos) (d : Lcd) :
    d.goto c p = d.setRegs p.cs { page := p.page, col := p.col } := by
  rw [Lcd.goto, Lcd.receive_setCol hc, Lcd.receive_setPage hc]; simp

@[simp] theorem Lcd.goto_ram (c : Params) (p : Pos) (d : Lcd) : (d.goto c p).ram = d.ram := by
  rw [Lcd.goto, Lcd.receive_command_ram rfl, Lcd.receive_command_ram rfl]

theorem Lcd.goto_regs_same {c : Params} (hc : c.Wf) (p : Pos) (d : Lcd) :
    (d.goto c p).regs p.cs = { page := p.page, col := p.col } := by
  rw [Lcd.goto_eq hc, Lcd.regs_setRegs_same]

theorem Lcd.goto_regs_other {p : Pos} {h : Bit} (hne : h ≠ p.cs) (c : Params) (d : Lcd) :
    (d.goto c p).regs h = d.regs h := by
  rw [Lcd.goto, Lcd.receive_regs_other hne, Lcd.receive_regs_other hne]

/-- A data transaction: the byte is stored at the half's target and its column goes up by one. -/
theorem Lcd.receive_data (c : Params) (cs : Bit) (v : Byte) (d : Lcd) :
    d.receive c (Tx.data cs v) =
      { d.setRegs cs { d.regs cs with col := (d.regs cs).col + 1 } with
        ram := Memory.write d.ram (d.target cs).toNat v } := by
  simp [Lcd.receive, Tx.data]

end Sys2Proof.Machine
end

