-- ==== Sys2Proof/Laws/State.lean ====
section
/-! SUPPORT. One lemma per field per update of State, so that no proof unfolds a record update. -/

namespace Sys2Proof.Machine

/-! ### `setBatch` -/

@[simp] theorem State.setBatch_params (b : Bit) (s : State) : (s.setBatch b).params = s.params := rfl
@[simp] theorem State.setBatch_cursor (b : Bit) (s : State) : (s.setBatch b).cursor = s.cursor := rfl
@[simp] theorem State.setBatch_box (b : Bit) (s : State) : (s.setBatch b).box = s.box := rfl
@[simp] theorem State.setBatch_batch (b : Bit) (s : State) : (s.setBatch b).batch = b := rfl
@[simp] theorem State.setBatch_cache (b : Bit) (s : State) : (s.setBatch b).cache = s.cache := rfl
@[simp] theorem State.setBatch_resets (b : Bit) (s : State) : (s.setBatch b).resets = s.resets := rfl
@[simp] theorem State.setBatch_offer (b : Bit) (s : State) : (s.setBatch b).offer = s.offer := rfl
@[simp] theorem State.setBatch_tx (b : Bit) (s : State) : (s.setBatch b).tx = s.tx := rfl
@[simp] theorem State.setBatch_rsp (b : Bit) (s : State) : (s.setBatch b).rsp = s.rsp := rfl
@[simp] theorem State.setBatch_host (b : Bit) (s : State) : (s.setBatch b).host = s.host := rfl
@[simp] theorem State.setBatch_transport (b : Bit) (s : State) : (s.setBatch b).transport = s.transport := rfl
@[simp] theorem State.setBatch_reader (b : Bit) (s : State) : (s.setBatch b).reader = s.reader := rfl
@[simp] theorem State.setBatch_lcd (b : Bit) (s : State) : (s.setBatch b).lcd = s.lcd := rfl
@[simp] theorem State.setBatch_ghost (b : Bit) (s : State) : (s.setBatch b).ghost = s.ghost := rfl

/-! ### `setBox` -/

@[simp] theorem State.setBox_params (b : Box) (s : State) : (s.setBox b).params = s.params := rfl
@[simp] theorem State.setBox_cursor (b : Box) (s : State) : (s.setBox b).cursor = s.cursor := rfl
@[simp] theorem State.setBox_box (b : Box) (s : State) : (s.setBox b).box = b := rfl
@[simp] theorem State.setBox_batch (b : Box) (s : State) : (s.setBox b).batch = s.batch := rfl
@[simp] theorem State.setBox_cache (b : Box) (s : State) : (s.setBox b).cache = s.cache := rfl
@[simp] theorem State.setBox_resets (b : Box) (s : State) : (s.setBox b).resets = s.resets := rfl
@[simp] theorem State.setBox_offer (b : Box) (s : State) : (s.setBox b).offer = s.offer := rfl
@[simp] theorem State.setBox_tx (b : Box) (s : State) : (s.setBox b).tx = s.tx := rfl
@[simp] theorem State.setBox_rsp (b : Box) (s : State) : (s.setBox b).rsp = s.rsp := rfl
@[simp] theorem State.setBox_host (b : Box) (s : State) : (s.setBox b).host = s.host := rfl
@[simp] theorem State.setBox_transport (b : Box) (s : State) : (s.setBox b).transport = s.transport := rfl
@[simp] theorem State.setBox_reader (b : Box) (s : State) : (s.setBox b).reader = s.reader := rfl
@[simp] theorem State.setBox_lcd (b : Box) (s : State) : (s.setBox b).lcd = s.lcd := rfl
@[simp] theorem State.setBox_ghost (b : Box) (s : State) : (s.setBox b).ghost = s.ghost := rfl

/-! ### `moveTo` -/

@[simp] theorem State.moveTo_params (p : Pos) (s : State) : (s.moveTo p).params = s.params := rfl
@[simp] theorem State.moveTo_cursor (p : Pos) (s : State) : (s.moveTo p).cursor = Cursor.ofPos p := rfl
@[simp] theorem State.moveTo_box (p : Pos) (s : State) : (s.moveTo p).box = s.box := rfl
@[simp] theorem State.moveTo_batch (p : Pos) (s : State) : (s.moveTo p).batch = s.batch := rfl
@[simp] theorem State.moveTo_cache (p : Pos) (s : State) : (s.moveTo p).cache = s.cache := rfl
@[simp] theorem State.moveTo_resets (p : Pos) (s : State) : (s.moveTo p).resets = s.resets := rfl
@[simp] theorem State.moveTo_offer (p : Pos) (s : State) : (s.moveTo p).offer = s.offer := rfl
@[simp] theorem State.moveTo_tx (p : Pos) (s : State) : (s.moveTo p).tx = s.tx := rfl
@[simp] theorem State.moveTo_rsp (p : Pos) (s : State) : (s.moveTo p).rsp = s.rsp := rfl
@[simp] theorem State.moveTo_host (p : Pos) (s : State) : (s.moveTo p).host = s.host := rfl
@[simp] theorem State.moveTo_transport (p : Pos) (s : State) : (s.moveTo p).transport = s.transport := rfl
@[simp] theorem State.moveTo_reader (p : Pos) (s : State) : (s.moveTo p).reader = s.reader := rfl
@[simp] theorem State.moveTo_lcd (p : Pos) (s : State) : (s.moveTo p).lcd = s.lcd := rfl
@[simp] theorem State.moveTo_ghost (p : Pos) (s : State) : (s.moveTo p).ghost = s.ghost := rfl

/-! ### `writeCache` -/

@[simp] theorem State.writeCache_params (a : CacheAddr) (v : Byte) (s : State) : (s.writeCache a v).params = s.params := rfl
@[simp] theorem State.writeCache_cursor (a : CacheAddr) (v : Byte) (s : State) : (s.writeCache a v).cursor = s.cursor := rfl
@[simp] theorem State.writeCache_box (a : CacheAddr) (v : Byte) (s : State) : (s.writeCache a v).box = s.box := rfl
@[simp] theorem State.writeCache_batch (a : CacheAddr) (v : Byte) (s : State) : (s.writeCache a v).batch = s.batch := rfl
@[simp] theorem State.writeCache_cache (a : CacheAddr) (v : Byte) (s : State) : (s.writeCache a v).cache = Memory.write s.cache a.toNat v := rfl
@[simp] theorem State.writeCache_resets (a : CacheAddr) (v : Byte) (s : State) : (s.writeCache a v).resets = s.resets := rfl
@[simp] theorem State.writeCache_offer (a : CacheAddr) (v : Byte) (s : State) : (s.writeCache a v).offer = s.offer := rfl
@[simp] theorem State.writeCache_tx (a : CacheAddr) (v : Byte) (s : State) : (s.writeCache a v).tx = s.tx := rfl
@[simp] theorem State.writeCache_rsp (a : CacheAddr) (v : Byte) (s : State) : (s.writeCache a v).rsp = s.rsp := rfl
@[simp] theorem State.writeCache_host (a : CacheAddr) (v : Byte) (s : State) : (s.writeCache a v).host = s.host := rfl
@[simp] theorem State.writeCache_transport (a : CacheAddr) (v : Byte) (s : State) : (s.writeCache a v).transport = s.transport := rfl
@[simp] theorem State.writeCache_reader (a : CacheAddr) (v : Byte) (s : State) : (s.writeCache a v).reader = s.reader := rfl
@[simp] theorem State.writeCache_lcd (a : CacheAddr) (v : Byte) (s : State) : (s.writeCache a v).lcd = s.lcd := rfl
@[simp] theorem State.writeCache_ghost (a : CacheAddr) (v : Byte) (s : State) : (s.writeCache a v).ghost = s.ghost := rfl

/-! ### `markValid` -/

@[simp] theorem State.markValid_params (a : CacheAddr) (s : State) : (s.markValid a).params = s.params := rfl
@[simp] theorem State.markValid_cursor (a : CacheAddr) (s : State) : (s.markValid a).cursor = s.cursor := rfl
@[simp] theorem State.markValid_box (a : CacheAddr) (s : State) : (s.markValid a).box = s.box := rfl
@[simp] theorem State.markValid_batch (a : CacheAddr) (s : State) : (s.markValid a).batch = s.batch := rfl
@[simp] theorem State.markValid_cache (a : CacheAddr) (s : State) : (s.markValid a).cache = s.cache := rfl
@[simp] theorem State.markValid_resets (a : CacheAddr) (s : State) : (s.markValid a).resets = s.resets := rfl
@[simp] theorem State.markValid_offer (a : CacheAddr) (s : State) : (s.markValid a).offer = s.offer := rfl
@[simp] theorem State.markValid_tx (a : CacheAddr) (s : State) : (s.markValid a).tx = s.tx := rfl
@[simp] theorem State.markValid_rsp (a : CacheAddr) (s : State) : (s.markValid a).rsp = s.rsp := rfl
@[simp] theorem State.markValid_host (a : CacheAddr) (s : State) : (s.markValid a).host = s.host := rfl
@[simp] theorem State.markValid_transport (a : CacheAddr) (s : State) : (s.markValid a).transport = s.transport := rfl
@[simp] theorem State.markValid_reader (a : CacheAddr) (s : State) : (s.markValid a).reader = s.reader := rfl
@[simp] theorem State.markValid_lcd (a : CacheAddr) (s : State) : (s.markValid a).lcd = s.lcd := rfl
@[simp] theorem State.markValid_ghost (a : CacheAddr) (s : State) : (s.markValid a).ghost = { s.ghost with valid := AddrSet.insert s.ghost.valid a.toNat } := rfl

/-! ### `markDirty` -/

@[simp] theorem State.markDirty_params (a : CacheAddr) (s : State) : (s.markDirty a).params = s.params := rfl
@[simp] theorem State.markDirty_cursor (a : CacheAddr) (s : State) : (s.markDirty a).cursor = s.cursor := rfl
@[simp] theorem State.markDirty_box (a : CacheAddr) (s : State) : (s.markDirty a).box = s.box := rfl
@[simp] theorem State.markDirty_batch (a : CacheAddr) (s : State) : (s.markDirty a).batch = s.batch := rfl
@[simp] theorem State.markDirty_cache (a : CacheAddr) (s : State) : (s.markDirty a).cache = s.cache := rfl
@[simp] theorem State.markDirty_resets (a : CacheAddr) (s : State) : (s.markDirty a).resets = s.resets := rfl
@[simp] theorem State.markDirty_offer (a : CacheAddr) (s : State) : (s.markDirty a).offer = s.offer := rfl
@[simp] theorem State.markDirty_tx (a : CacheAddr) (s : State) : (s.markDirty a).tx = s.tx := rfl
@[simp] theorem State.markDirty_rsp (a : CacheAddr) (s : State) : (s.markDirty a).rsp = s.rsp := rfl
@[simp] theorem State.markDirty_host (a : CacheAddr) (s : State) : (s.markDirty a).host = s.host := rfl
@[simp] theorem State.markDirty_transport (a : CacheAddr) (s : State) : (s.markDirty a).transport = s.transport := rfl
@[simp] theorem State.markDirty_reader (a : CacheAddr) (s : State) : (s.markDirty a).reader = s.reader := rfl
@[simp] theorem State.markDirty_lcd (a : CacheAddr) (s : State) : (s.markDirty a).lcd = s.lcd := rfl
@[simp] theorem State.markDirty_ghost (a : CacheAddr) (s : State) : (s.markDirty a).ghost = { s.ghost with dirty := AddrSet.insert s.ghost.dirty a.toNat } := rfl

/-! ### `markClean` -/

@[simp] theorem State.markClean_params (a : CacheAddr) (v : Byte) (s : State) : (s.markClean a v).params = s.params := rfl
@[simp] theorem State.markClean_cursor (a : CacheAddr) (v : Byte) (s : State) : (s.markClean a v).cursor = s.cursor := rfl
@[simp] theorem State.markClean_box (a : CacheAddr) (v : Byte) (s : State) : (s.markClean a v).box = s.box := rfl
@[simp] theorem State.markClean_batch (a : CacheAddr) (v : Byte) (s : State) : (s.markClean a v).batch = s.batch := rfl
@[simp] theorem State.markClean_cache (a : CacheAddr) (v : Byte) (s : State) : (s.markClean a v).cache = s.cache := rfl
@[simp] theorem State.markClean_resets (a : CacheAddr) (v : Byte) (s : State) : (s.markClean a v).resets = s.resets := rfl
@[simp] theorem State.markClean_offer (a : CacheAddr) (v : Byte) (s : State) : (s.markClean a v).offer = s.offer := rfl
@[simp] theorem State.markClean_tx (a : CacheAddr) (v : Byte) (s : State) : (s.markClean a v).tx = s.tx := rfl
@[simp] theorem State.markClean_rsp (a : CacheAddr) (v : Byte) (s : State) : (s.markClean a v).rsp = s.rsp := rfl
@[simp] theorem State.markClean_host (a : CacheAddr) (v : Byte) (s : State) : (s.markClean a v).host = s.host := rfl
@[simp] theorem State.markClean_transport (a : CacheAddr) (v : Byte) (s : State) : (s.markClean a v).transport = s.transport := rfl
@[simp] theorem State.markClean_reader (a : CacheAddr) (v : Byte) (s : State) : (s.markClean a v).reader = s.reader := rfl
@[simp] theorem State.markClean_lcd (a : CacheAddr) (v : Byte) (s : State) : (s.markClean a v).lcd = s.lcd := rfl
@[simp] theorem State.markClean_valid (a : CacheAddr) (v : Byte) (s : State) :
    (s.markClean a v).ghost.valid = s.ghost.valid := rfl

theorem State.markClean_dirty (a : CacheAddr) (v : Byte) (s : State) :
    (s.markClean a v).ghost.dirty =
      if s.readCache a = v then AddrSet.remove s.ghost.dirty a.toNat else s.ghost.dirty := rfl

/-! ### `deliver` -/

@[simp] theorem State.deliver_params (t : Tx) (s : State) : (s.deliver t).params = s.params := by
  unfold State.deliver; dsimp only; split <;> rfl
@[simp] theorem State.deliver_cursor (t : Tx) (s : State) : (s.deliver t).cursor = s.cursor := by
  unfold State.deliver; dsimp only; split <;> rfl
@[simp] theorem State.deliver_box (t : Tx) (s : State) : (s.deliver t).box = s.box := by
  unfold State.deliver; dsimp only; split <;> rfl
@[simp] theorem State.deliver_batch (t : Tx) (s : State) : (s.deliver t).batch = s.batch := by
  unfold State.deliver; dsimp only; split <;> rfl
@[simp] theorem State.deliver_cache (t : Tx) (s : State) : (s.deliver t).cache = s.cache := by
  unfold State.deliver; dsimp only; split <;> rfl
@[simp] theorem State.deliver_resets (t : Tx) (s : State) : (s.deliver t).resets = s.resets := by
  unfold State.deliver; dsimp only; split <;> rfl
@[simp] theorem State.deliver_offer (t : Tx) (s : State) : (s.deliver t).offer = s.offer := by
  unfold State.deliver; dsimp only; split <;> rfl
@[simp] theorem State.deliver_tx (t : Tx) (s : State) : (s.deliver t).tx = s.tx ++ [t] := by
  unfold State.deliver; dsimp only; split <;> rfl
@[simp] theorem State.deliver_rsp (t : Tx) (s : State) : (s.deliver t).rsp = s.rsp := by
  unfold State.deliver; dsimp only; split <;> rfl
@[simp] theorem State.deliver_host (t : Tx) (s : State) : (s.deliver t).host = s.host := by
  unfold State.deliver; dsimp only; split <;> rfl
@[simp] theorem State.deliver_transport (t : Tx) (s : State) : (s.deliver t).transport = s.transport := by
  unfold State.deliver; dsimp only; split <;> rfl
@[simp] theorem State.deliver_reader (t : Tx) (s : State) : (s.deliver t).reader = s.reader := by
  unfold State.deliver; dsimp only; split <;> rfl
@[simp] theorem State.deliver_lcd (t : Tx) (s : State) : (s.deliver t).lcd = s.lcd.receive s.params t := by
  unfold State.deliver; dsimp only; split <;> rfl
theorem State.deliver_ghost (t : Tx) (s : State) :
    (s.deliver t).ghost =
      if t.dc = 1 then { s.ghost with valid := AddrSet.insert s.ghost.valid (s.lcd.target t.cs).toNat }
      else s.ghost := by
  unfold State.deliver; dsimp only; split <;> rfl

@[simp] theorem State.deliver_dirty (t : Tx) (s : State) : (s.deliver t).ghost.dirty = s.ghost.dirty := by
  rw [State.deliver_ghost]; split <;> rfl

/-! ### `readCache` sees only the cache and the number of the reset -/

theorem State.readCache_congr {s s' : State} (hc : s'.cache = s.cache) (hr : s'.resets = s.resets) (a : CacheAddr) :
    s'.readCache a = s.readCache a := by
  simp only [State.readCache, hc, hr]

@[simp] theorem State.setBatch_readCache (b : Bit) (s : State) (a : CacheAddr) :
    (s.setBatch b).readCache a = s.readCache a := rfl
@[simp] theorem State.setBox_readCache (b : Box) (s : State) (a : CacheAddr) :
    (s.setBox b).readCache a = s.readCache a := rfl
@[simp] theorem State.moveTo_readCache (p : Pos) (s : State) (a : CacheAddr) :
    (s.moveTo p).readCache a = s.readCache a := rfl
@[simp] theorem State.markValid_readCache (k : CacheAddr) (s : State) (a : CacheAddr) :
    (s.markValid k).readCache a = s.readCache a := rfl
@[simp] theorem State.markDirty_readCache (k : CacheAddr) (s : State) (a : CacheAddr) :
    (s.markDirty k).readCache a = s.readCache a := rfl
@[simp] theorem State.markClean_readCache (k : CacheAddr) (v : Byte) (s : State) (a : CacheAddr) :
    (s.markClean k v).readCache a = s.readCache a := State.readCache_congr (by simp) (by simp) a
@[simp] theorem State.deliver_readCache (t : Tx) (s : State) (a : CacheAddr) :
    (s.deliver t).readCache a = s.readCache a := State.readCache_congr (by simp) (by simp) a

/-! ### The cursor at a position -/

@[simp] theorem Cursor.ofPos_pos (p : Pos) : (Cursor.ofPos p).pos = p := rfl
@[simp] theorem Cursor.ofPos_cs (p : Pos) : (Cursor.ofPos p).cs = p.cs := rfl
@[simp] theorem Cursor.ofPos_col (p : Pos) : (Cursor.ofPos p).col = p.col := rfl
@[simp] theorem Cursor.ofPos_page (p : Pos) : (Cursor.ofPos p).page = p.page := rfl
@[simp] theorem Cursor.ofPos_offset (p : Pos) : (Cursor.ofPos p).offset = cacheOffset p := rfl

end Sys2Proof.Machine
end

