-- ==== Sys2Proof/Laws/Memory.lean ====
section
/-! SUPPORT. The laws of byte memories and address sets, and of CACHE: a read after a write, a write leaves every
other address alone, every operation keeps the canonical form (20_memory.md R48 item 3). -/

namespace Sys2Proof.Machine

theorem Memory.read?_write_same (m : Memory) (k : Nat) (v : Byte) : Memory.read? (Memory.write m k v) k = some v := by
  induction m with
  | nil => simp [Memory.write, Memory.read?]
  | cons c m ih =>
    obtain ⟨a, w⟩ := c
    unfold Memory.write
    split
    · simp [Memory.read?]
    · split
      · simp [Memory.read?]
      · simp only [Memory.read?, ih]
        rw [if_neg (by omega)]

theorem Memory.read?_write_other (m : Memory) {k j : Nat} (h : j ≠ k) (v : Byte) :
    Memory.read? (Memory.write m k v) j = Memory.read? m j := by
  induction m with
  | nil => simp [Memory.write, Memory.read?, Ne.symm h]
  | cons c m ih =>
    obtain ⟨a, w⟩ := c
    unfold Memory.write
    split
    · simp [Memory.read?, Ne.symm h]
    · split
      · subst_vars; simp [Memory.read?, Ne.symm h]
      · simp only [Memory.read?, ih]

theorem Memory.mem_write {m : Memory} {k : Nat} {v : Byte} {c : Host.Cell} (h : c ∈ Memory.write m k v) :
    c = (k, v) ∨ c ∈ m := by
  induction m with
  | nil => simpa [Memory.write] using h
  | cons d m ih =>
    obtain ⟨a, w⟩ := d
    unfold Memory.write at h
    split at h
    · simpa using h
    · split at h
      · rcases List.mem_cons.mp h with h | h
        · exact .inl h
        · exact .inr (List.mem_cons_of_mem _ h)
      · rcases List.mem_cons.mp h with h | h
        · exact .inr (h ▸ List.mem_cons_self)
        · exact (ih h).imp_right (List.mem_cons_of_mem _)

theorem Memory.wf_write {m : Memory} (hm : Memory.wf m) {k : Nat} (hk : k < 1024) (v : Byte) :
    Memory.wf (Memory.write m k v) := by
  refine ⟨?_, fun c hc => ?_⟩
  · have h := hm.1
    clear hm
    induction m with
    | nil => simp [Memory.write]
    | cons d m ih =>
      obtain ⟨a, w⟩ := d
      obtain ⟨hd, hp⟩ := List.pairwise_cons.mp h
      unfold Memory.write
      split
      · rename_i hka
        refine List.pairwise_cons.mpr ⟨fun c hc => ?_, h⟩
        rcases List.mem_cons.mp hc with rfl | hc
        · exact hka
        · exact Nat.lt_trans hka (hd c hc)
      · split
        · subst_vars; exact List.pairwise_cons.mpr ⟨hd, hp⟩
        · refine List.pairwise_cons.mpr ⟨fun c hc => ?_, ih hp⟩
          rcases Memory.mem_write hc with rfl | hc
          · show a < k; omega
          · exact hd c hc
  · rcases Memory.mem_write hc with rfl | hc
    · exact hk
    · exact hm.2 c hc

theorem AddrSet.mem_insert {l : AddrSet} {k a : Nat} : a ∈ AddrSet.insert l k ↔ a = k ∨ a ∈ l := by
  induction l with
  | nil => simp [AddrSet.insert]
  | cons b l ih =>
    unfold AddrSet.insert
    split
    · simp
    · split
      · subst_vars; simp
      · simp only [List.mem_cons, ih]; tauto

theorem AddrSet.mem_remove {l : AddrSet} {k a : Nat} : a ∈ AddrSet.remove l k ↔ a ∈ l ∧ a ≠ k := by
  simp [AddrSet.remove]

theorem AddrSet.wf_insert {l : AddrSet} (hl : AddrSet.wf l) {k : Nat} (hk : k < 1024) :
    AddrSet.wf (AddrSet.insert l k) := by
  refine ⟨?_, fun a ha => ?_⟩
  · have h := hl.1
    clear hl
    induction l with
    | nil => simp [AddrSet.insert]
    | cons b l ih =>
      obtain ⟨hd, hp⟩ := List.pairwise_cons.mp h
      unfold AddrSet.insert
      split
      · rename_i hkb
        refine List.pairwise_cons.mpr ⟨fun c hc => ?_, h⟩
        rcases List.mem_cons.mp hc with rfl | hc
        · exact hkb
        · exact Nat.lt_trans hkb (hd c hc)
      · split
        · exact h
        · refine List.pairwise_cons.mpr ⟨fun c hc => ?_, ih hp⟩
          rcases AddrSet.mem_insert.mp hc with rfl | hc
          · omega
          · exact hd c hc
  · rcases AddrSet.mem_insert.mp ha with rfl | ha
    · exact hk
    · exact hl.2 a ha

theorem AddrSet.wf_remove {l : AddrSet} (hl : AddrSet.wf l) (k : Nat) : AddrSet.wf (AddrSet.remove l k) :=
  ⟨hl.1.sublist List.filter_sublist, fun a ha => hl.2 a (AddrSet.mem_remove.mp ha).1⟩

theorem State.readCache_writeCache_same (s : State) (a : CacheAddr) (v : Byte) :
    (s.writeCache a v).readCache a = v := by
  simp [State.readCache, Memory.read?_write_same]

theorem State.readCache_writeCache_other (s : State) {a k : CacheAddr} (h : a ≠ k) (v : Byte) :
    (s.writeCache k v).readCache a = s.readCache a := by
  have h' : a.toNat ≠ k.toNat := fun e => h (BitVec.eq_of_toNat_eq e)
  simp [State.readCache, Memory.read?_write_other _ h']

/-- What CACHE reads after a store, at every address. -/
theorem State.readCache_writeCache (s : State) (a k : CacheAddr) (v : Byte) :
    (s.writeCache k v).readCache a = if a = k then v else s.readCache a := by
  split
  · subst_vars; exact s.readCache_writeCache_same _ v
  · exact s.readCache_writeCache_other ‹_› v

/-- Storing the byte an address already reads as changes no read. -/
theorem State.readCache_writeCache_self (s : State) (a k : CacheAddr) :
    (s.writeCache k (s.readCache k)).readCache a = s.readCache a := by
  rw [State.readCache_writeCache]; split
  · subst_vars; rfl
  · rfl

end Sys2Proof.Machine
end

