-- ==== Sys2Proof/Laws/Channels.lean ====
section
/-! SUPPORT. What `andThen`, `emit` and `respond` can do (00_scope.md R10, 60_exceptions.md R127), and the
commands GOTOXY and WRDATA as one equation each when the transport is live. -/

namespace Sys2Proof.Machine

theorem State.andThen_idle {s : State} (h : s.Idle) (f : State → State) : s.andThen f = f s := by
  simp only [State.andThen, h]

theorem State.andThen_blocked {s : State} {o : Offer} (h : s.offer = some o) (f : State → State) :
    s.andThen f = s := by
  simp only [State.andThen, h]

/-- What sequencing can do: perform the next line, or stay at a blocked word. -/
theorem State.andThen_cases (s : State) (f : State → State) :
    (s.Idle ∧ s.andThen f = f s) ∨ (∃ o, s.offer = some o ∧ s.andThen f = s) := by
  cases h : s.offer with
  | none => exact .inl ⟨h, State.andThen_idle h f⟩
  | some o => exact .inr ⟨o, rfl, State.andThen_blocked h f⟩

/-- A predicate that holds before a line and that the line keeps, holds after it. -/
theorem State.andThen_keeps {P : State → Prop} {s : State} {f : State → State} (hs : P s)
    (hf : s.Idle → P s → P (f s)) : P (s.andThen f) := by
  rcases s.andThen_cases f with ⟨h, e⟩ | ⟨o, h, e⟩ <;> rw [e]
  · exact hf h hs
  · exact hs

/-- What `Emit` can do: nothing (already blocked), deliver the transaction, or leave it on offer. -/
theorem State.emit_cases (s : State) (t : Tx) :
    ((∃ o, s.offer = some o) ∧ s.emit t = s) ∨
      (s.Idle ∧ ∃ r, s.transport.accept = some r ∧ s.emit t = ({ s with transport := r }).deliver t) ∨
        (s.Idle ∧ s.transport.accept = none ∧ s.emit t = { s with offer := some (.tx t) }) := by
  rcases s.andThen_cases (State.offerTx t) with ⟨h, e⟩ | ⟨o, h, e⟩
  · right
    cases ha : s.transport.accept with
    | some r => left; exact ⟨h, r, rfl, by rw [State.emit, e, State.offerTx, ha]⟩
    | none => right; exact ⟨h, rfl, by rw [State.emit, e, State.offerTx, ha]⟩
  · left; exact ⟨⟨o, h⟩, e⟩

/-- What `Respond` can do. -/
theorem State.respond_cases (s : State) (v : Byte) :
    ((∃ o, s.offer = some o) ∧ s.respond v = s) ∨
      (s.Idle ∧ ∃ r, s.reader.accept = some r ∧ s.respond v = { s with reader := r, rsp := s.rsp ++ [v] }) ∨
        (s.Idle ∧ s.reader.accept = none ∧ s.respond v = { s with offer := some (.rsp v) }) := by
  rcases s.andThen_cases (State.offerRsp v) with ⟨h, e⟩ | ⟨o, h, e⟩
  · right
    cases ha : s.reader.accept with
    | some r => left; exact ⟨h, r, rfl, by rw [State.respond, e, State.offerRsp, ha]⟩
    | none => right; exact ⟨h, rfl, by rw [State.respond, e, State.offerRsp, ha]⟩
  · left; exact ⟨⟨o, h⟩, e⟩

/-- A predicate kept by a delivery, by the transport's readiness and by a word on offer is kept by `Emit`. -/
theorem State.emit_keeps {P : State → Prop} {s : State} {t : Tx} (hs : P s)
    (hd : ∀ r, P (({ s with transport := r }).deliver t)) (ho : P { s with offer := some (.tx t) }) :
    P (s.emit t) := by
  rcases s.emit_cases t with ⟨-, e⟩ | ⟨-, r, -, e⟩ | ⟨-, -, e⟩ <;> rw [e]
  · exact hs
  · exact hd r
  · exact ho

theorem State.emit_ready {s : State} (h : s.Ready) (t : Tx) : s.emit t = s.deliver t := by
  obtain ⟨ho, ht⟩ := h
  simp only [State.emit, State.andThen, State.offerTx, ho, ht, Receiver.accept]
  congr 1
  cases s; simp_all

theorem State.deliver_ready {s : State} (h : s.Ready) (t : Tx) : (s.deliver t).Ready := by
  simpa [State.Ready] using h

/-! ### GOTOXY with a live transport -/

/-- GOTOXY when nothing blocks: cursor, TX stream and the selected half's registers; nothing else (R85). -/
theorem gotoxy_ready {s : State} (h : s.Ready) (x y : Byte) :
    gotoxy x y s = { s with
      cursor := Cursor.ofPos (pixelPos x y)
      tx := s.tx ++ gotoTxs s.params (pixelPos x y)
      lcd := s.lcd.goto s.params (pixelPos x y) } := by
  have h1 : (s.moveTo (pixelPos x y)).Ready := h
  have h2 := State.deliver_ready h1 (Tx.setPage s.params (pixelPos x y))
  show ((s.moveTo (pixelPos x y)).emit (Tx.setPage s.params (pixelPos x y))).emit
    (Tx.setCol s.params (pixelPos x y)) = _
  rw [State.emit_ready h1, State.emit_ready h2]
  have hn1 : (Tx.setPage s.params (pixelPos x y)).dc ≠ 1 := by show (0 : Bit) ≠ 1; decide
  have hn2 : (Tx.setCol s.params (pixelPos x y)).dc ≠ 1 := by show (0 : Bit) ≠ 1; decide
  unfold State.deliver
  dsimp only
  rw [if_neg hn2, if_neg hn1]
  simp only [State.moveTo, Lcd.goto, gotoTxs, List.append_assoc, List.cons_append, List.nil_append]

theorem gotoxy_ready_ready {s : State} (h : s.Ready) (x y : Byte) : (gotoxy x y s).Ready := by
  rw [gotoxy_ready h]; exact h

theorem gotoxy_ready_sync {s : State} (h : s.Ready) (hc : s.params.Wf) (x y : Byte) : (gotoxy x y s).Sync := by
  rw [gotoxy_ready h]
  exact Lcd.goto_regs_same hc _ _

/-- The restoring GOTOXY of a flush: back to the remembered position (40_addressing.md R84). -/
theorem pixelPos_log (c : Cursor) : pixelPos (logX c.cs c.col) (logY c.page) = c.pos :=
  canvasPos_log c.cs c.col c.page

theorem pixelPos_clamp (x y : Byte) : pixelPos (clampX x) (clampY y) = pixelPos x y := by
  simp [pixelPos]

/-- GOTOXY sees only the clamped operands. -/
theorem gotoxy_clamp (x y : Byte) (s : State) : gotoxy (clampX x) (clampY y) s = gotoxy x y s := by
  simp [gotoxy]

end Sys2Proof.Machine
end

