-- ==== Sys2Proof/Laws/Write.lean ====
section
/-! SUPPORT. WRDATA with a live transport, as one equation and as the facts later proofs cite, some of them
under SYNC or for well-formed parameters (41_cache_access.md R90, R93). -/

namespace Sys2Proof.Machine

theorem advance_fast {s : State} (h : s.cursor.col < 63) :
    advance s = { s with cursor := { s.cursor with col := s.cursor.col + 1, offset := s.cursor.offset + 8 } } := by
  unfold advance; dsimp only; rw [if_pos h]

/-- The wrap is a GOTOXY to the next position. -/
theorem advance_wrap {s : State} (h : ¬ s.cursor.col < 63) :
    ∃ x y, advance s = gotoxy x y s ∧ pixelPos x y = nextPos s.cursor.pos := by
  have h' : ¬ s.cursor.pos.col < 63 := h
  unfold advance; dsimp only; rw [if_neg h]
  rcases bit_cases s.cursor.cs with hc | hc
  · have hc' : s.cursor.pos.cs = 0 := hc
    refine ⟨64, 8 * s.cursor.page.setWidth 8, by rw [if_pos hc], ?_⟩
    rw [nextPos, if_neg h', if_pos hc']
    exact canvasPos_wrap1 s.cursor.page
  · have hc' : s.cursor.pos.cs ≠ 0 := by show s.cursor.cs ≠ 0; rw [hc]; decide
    refine ⟨0, 8 * s.cursor.page.setWidth 8 + 8, by rw [if_neg (show s.cursor.cs ≠ 0 from hc')], ?_⟩
    rw [nextPos, if_neg h', if_neg hc']
    exact canvasPos_wrap2 s.cursor.page

/-- The cursor after a byte write: the registers as R90 moves them. -/
def movedCursor (c : Cursor) : Cursor :=
  if c.col < 63 then { c with col := c.col + 1, offset := c.offset + 8 } else Cursor.ofPos (nextPos c.pos)

/-- The LCD after the advance from a cursor: re-addressed on a wrap only. -/
def movedLcd (k : Params) (c : Cursor) (d : Lcd) : Lcd := if c.col < 63 then d else d.goto k (nextPos c.pos)

/-- The transactions of the advance from a position. -/
def wrapTxs (c : Params) (p : Pos) : List Tx := if p.col = 63 then gotoTxs c (nextPos p) else []

theorem dataTxs_eq (c : Params) (v : Byte) (p : Pos) : dataTxs c v p = Tx.data p.cs v :: wrapTxs c p := rfl

theorem advance_ready {s : State} (h : s.Ready) :
    advance s = { s with
      cursor := movedCursor s.cursor, tx := s.tx ++ wrapTxs s.params s.cursor.pos
      lcd := movedLcd s.params s.cursor s.lcd } := by
  by_cases hc : s.cursor.col < 63
  · have h63 : s.cursor.pos.col ≠ 63 := (col_lt_iff _).mp hc
    rw [advance_fast hc, movedCursor, movedLcd, wrapTxs, if_pos hc, if_pos hc, if_neg h63, List.append_nil]
  · obtain ⟨x, y, e, hp⟩ := advance_wrap hc
    have h63 : s.cursor.pos.col = 63 := not_not.mp fun n => hc ((col_lt_iff _).mpr n)
    rw [e, gotoxy_ready h, hp, movedCursor, movedLcd, wrapTxs, if_neg hc, if_neg hc, if_pos h63]

/-- CACHE, the display and the proof devices after the store of WRDATA, before the advance. -/
def stored (v : Byte) (s : State) : State :=
  ((s.deliver (Tx.data s.cursor.cs v)).writeCache s.cursor.offset v).markClean (s.lcd.target s.cursor.cs) v

theorem stored_ready {s : State} (h : s.Ready) (v : Byte) : (stored v s).Ready := by
  simpa [stored, State.Ready] using h

/-- WRDATA when nothing blocks: transmit and store, then advance (R90). -/
theorem wrdata_ready {s : State} (h : s.Ready) (d : Byte) (inv : Bit) :
    wrdata d inv s = advance (stored (dataByte d inv) s) := by
  have hd := State.deliver_ready h (Tx.data s.cursor.cs (dataByte d inv))
  unfold wrdata
  dsimp only
  rw [State.emit_ready h, State.andThen_idle hd.1]
  simp only [State.deliver_cursor]
  rfl

@[simp] theorem stored_cursor (v : Byte) (s : State) : (stored v s).cursor = s.cursor := by simp [stored]

theorem wrdata_ready_ready {s : State} (h : s.Ready) (d : Byte) (inv : Bit) : (wrdata d inv s).Ready := by
  rw [wrdata_ready h, advance_ready (stored_ready h _)]; exact stored_ready h (dataByte d inv)

theorem movedCursor_ofPos (p : Pos) : movedCursor (Cursor.ofPos p) = Cursor.ofPos (nextPos p) := by
  by_cases h : p.col < 63
  · rw [movedCursor, if_pos (show (Cursor.ofPos p).col < 63 from h)]
    show Cursor.mk p.cs (p.col + 1) p.page (cacheOffset p + 8) = _
    rw [← cacheOffset_next h, nextPos_of_lt h]; rfl
  · rw [movedCursor, if_neg (show ¬ (Cursor.ofPos p).col < 63 from h)]; rfl

@[simp] theorem stored_params (v : Byte) (s : State) : (stored v s).params = s.params := by simp [stored]

/-- What WRDATA of the byte `v` at position `p` does: the byte to TX and CACHE, the cursor to the next position; and
if SYNC holds, with well-formed parameters, the same byte to the display at the same address, and SYNC again
(41_cache_access.md R90, R93). -/
structure Wrote (p : Pos) (v : Byte) (s t : State) : Prop where
  ready : t.Ready
  cursor : t.cursor = Cursor.ofPos (nextPos p)
  tx : t.tx = s.tx ++ dataTxs s.params v p
  reads : ∀ a, t.readCache a = if a = cacheOffset p then v else s.readCache a
  sync : s.params.Wf → s.Sync → t.Sync
  shows : s.Sync → ∀ a, t.lcd.ramAt a = if a = cacheOffset p then v else s.lcd.ramAt a
  valid : s.Sync → ∀ k, k ∈ t.ghost.valid ↔ k = (cacheOffset p).toNat ∨ k ∈ s.ghost.valid
  dirty : s.Sync → ∀ k, k ∈ t.ghost.dirty ↔ k ∈ s.ghost.dirty ∧ k ≠ (cacheOffset p).toNat
  params : t.params = s.params
  box : t.box = s.box
  batch : t.batch = s.batch
  resets : t.resets = s.resets
  rsp : t.rsp = s.rsp
  host : t.host = s.host
  reader : t.reader = s.reader

theorem target_of_sync {s : State} (hs : s.Sync) : s.lcd.target s.cursor.cs = cacheOffset s.cursor.pos := by
  simp only [State.Sync] at hs
  simp [Lcd.target, hs, Cursor.pos]

theorem ramAt_write (d : Lcd) (m : Memory) (hm : m = d.ram) (k a : CacheAddr) (v : Byte) (d' : Lcd)
    (hd : d'.ram = Memory.write m k.toNat v) : d'.ramAt a = if a = k then v else d.ramAt a := by
  subst hm
  unfold Lcd.ramAt
  rw [hd]
  split
  · subst_vars; simp [Memory.read?_write_same]
  · rename_i hne
    rw [Memory.read?_write_other _ (fun e => hne (BitVec.eq_of_toNat_eq e))]

theorem wrdata_wrote {s : State} (h : s.Ready) {p : Pos} (hc : s.cursor = Cursor.ofPos p) (d : Byte) (inv : Bit) :
    Wrote p (dataByte d inv) s (wrdata d inv s) := by
  have hcs : s.cursor.cs = p.cs := by rw [hc]; rfl
  have hoff : s.cursor.offset = cacheOffset p := by rw [hc]; rfl
  have htarget : s.Sync → s.lcd.target s.cursor.cs = cacheOffset p := fun hs => by rw [target_of_sync hs, hc]; rfl
  generalize hv : dataByte d inv = v
  have e : wrdata d inv s = { stored v s with
      cursor := Cursor.ofPos (nextPos p), tx := s.tx ++ dataTxs s.params v p
      lcd := movedLcd s.params (Cursor.ofPos p) (s.lcd.receive s.params (Tx.data p.cs v)) } := by
    rw [wrdata_ready h, hv, advance_ready (stored_ready h v), stored_cursor, stored_params, hc, movedCursor_ofPos]
    simp [stored, dataTxs_eq, hc]
  have hram : (wrdata d inv s).lcd.ram = Memory.write s.lcd.ram (s.lcd.target s.cursor.cs).toNat v := by
    rw [e, hcs]
    show (movedLcd _ _ _).ram = _
    rw [Lcd.receive_data]
    unfold movedLcd; split <;> simp
  have hg : (wrdata d inv s).ghost = (stored v s).ghost := by rw [e]
  have hread : ((s.deliver (Tx.data s.cursor.cs v)).writeCache s.cursor.offset v).readCache (cacheOffset p) = v := by
    rw [hoff]; exact State.readCache_writeCache_same _ _ _
  refine { ready := wrdata_ready_ready h d inv, cursor := by rw [e], tx := by rw [e], reads := fun a => ?_,
           sync := fun hw hs => ?_, shows := fun hs a => ?_, valid := fun hs k => ?_, dirty := fun hs k => ?_,
           params := ?_, box := ?_, batch := ?_, resets := ?_, rsp := ?_, host := ?_, reader := ?_ }
  · have : (wrdata d inv s).readCache a = (stored v s).readCache a :=
      State.readCache_congr (by rw [e]) (by rw [e]) a
    rw [this, stored, State.markClean_readCache, State.readCache_writeCache, hoff, State.deliver_readCache]
  · have hsync : s.lcd.regs p.cs = { page := p.page, col := p.col } := by rw [State.Sync, hc] at hs; exact hs
    rw [e]
    show (movedLcd _ _ _).regs (nextPos p).cs = { page := (nextPos p).page, col := (nextPos p).col }
    rw [Lcd.receive_data]
    unfold movedLcd
    by_cases hlt : p.col < 63
    · rw [if_pos (show (Cursor.ofPos p).col < 63 from hlt), nextPos_of_lt hlt]
      show (s.lcd.setRegs p.cs _).regs p.cs = _
      rw [Lcd.regs_setRegs_same, hsync]
    · rw [if_neg (show ¬ (Cursor.ofPos p).col < 63 from hlt)]
      exact Lcd.goto_regs_same hw _ _
  · rw [htarget hs] at hram
    exact ramAt_write s.lcd _ rfl _ a v _ hram
  · rw [hg, stored, State.markClean_valid, State.writeCache_ghost, State.deliver_ghost,
      if_pos (show (Tx.data s.cursor.cs v).dc = 1 from rfl), AddrSet.mem_insert]
    show k = (s.lcd.target s.cursor.cs).toNat ∨ _ ↔ _
    rw [htarget hs]
  · rw [hg, stored, htarget hs, State.markClean_dirty, if_pos hread, AddrSet.mem_remove]
    simp
  all_goals rw [e]; simp [stored]

end Sys2Proof.Machine
end

