-- ==== Sys2Proof/Laws/Cases.lean ====
section
/-! SUPPORT. Everything the bodies of the commands can do from an idle block, whatever the transport's readiness:
one inversion lemma per body, and how a predicate is carried through a flush (60_exceptions.md R127). -/

namespace Sys2Proof.Machine

theorem State.emit_idle {s : State} (h : s.Idle) (t : Tx) : s.emit t = s.offerTx t := State.andThen_idle h _

/-- What offering a transaction can do. -/
theorem State.offerTx_cases (s : State) (t : Tx) :
    (∃ r, s.transport.accept = some r ∧ s.offerTx t = ({ s with transport := r }).deliver t) ∨
      (s.transport.accept = none ∧ s.offerTx t = { s with offer := some (.tx t) }) := by
  unfold State.offerTx
  cases h : s.transport.accept with
  | some r => exact .inl ⟨r, rfl, rfl⟩
  | none => exact .inr ⟨rfl, rfl⟩

/-- The delivery of a command transaction: the proof devices stay. -/
theorem deliver_command {t : Tx} (h : t.dc = 0) (s : State) :
    s.deliver t = { s with tx := s.tx ++ [t], lcd := s.lcd.receive s.params t } := by
  unfold State.deliver
  dsimp only
  rw [if_neg (by rw [h]; decide)]

/-- What GOTOXY can do from an idle block: stall at "set page", stall at "set column", or complete. -/
theorem gotoxy_cases {s : State} (h : s.Idle) (x y : Byte) :
    (s.transport.accept = none ∧
      gotoxy x y s = { s with
        cursor := Cursor.ofPos (pixelPos x y), offer := some (.tx (Tx.setPage s.params (pixelPos x y))) }) ∨
    (∃ r, s.transport.accept = some r ∧ r.accept = none ∧
      gotoxy x y s = { s with
        cursor := Cursor.ofPos (pixelPos x y), transport := r, tx := s.tx ++ [Tx.setPage s.params (pixelPos x y)]
        lcd := s.lcd.receive s.params (Tx.setPage s.params (pixelPos x y))
        offer := some (.tx (Tx.setCol s.params (pixelPos x y))) }) ∨
    (∃ r r', s.transport.accept = some r ∧ r.accept = some r' ∧
      gotoxy x y s = { s with
        cursor := Cursor.ofPos (pixelPos x y), transport := r', tx := s.tx ++ gotoTxs s.params (pixelPos x y)
        lcd := s.lcd.goto s.params (pixelPos x y) }) := by
  have e : gotoxy x y s =
      ((s.moveTo (pixelPos x y)).emit (Tx.setPage s.params (pixelPos x y))).emit
        (Tx.setCol s.params (pixelPos x y)) := rfl
  have h0 : (s.moveTo (pixelPos x y)).Idle := h
  rw [e, State.emit_idle h0]
  rcases State.offerTx_cases (s.moveTo (pixelPos x y)) (Tx.setPage s.params (pixelPos x y)) with
    ⟨r, ha, e1⟩ | ⟨ha, e1⟩
  · rw [e1, deliver_command rfl]
    rw [State.emit_idle (s := { s.moveTo (pixelPos x y) with
      transport := r, tx := _, lcd := _ }) h]
    right
    rcases State.offerTx_cases { s.moveTo (pixelPos x y) with
      transport := r, tx := s.tx ++ [Tx.setPage s.params (pixelPos x y)]
      lcd := s.lcd.receive s.params (Tx.setPage s.params (pixelPos x y)) }
      (Tx.setCol s.params (pixelPos x y)) with ⟨r', ha', e2⟩ | ⟨ha', e2⟩
    · refine .inr ⟨r, r', ha, ha', e2.trans ?_⟩
      rw [deliver_command rfl]
      simp only [List.append_assoc, List.cons_append, List.nil_append]
      rfl
    · exact .inl ⟨r, ha, ha', e2⟩
  · rw [e1]
    exact .inl ⟨ha, rfl⟩

/-- A GOTOXY that completes establishes SYNC, at the pixel's position (40_addressing.md R85). -/
theorem gotoxy_completes {s : State} (h : s.Idle) {x y : Byte} (hi : (gotoxy x y s).Idle) :
    (s.params.Wf → (gotoxy x y s).Sync) ∧ (gotoxy x y s).cursor = Cursor.ofPos (pixelPos x y) := by
  rcases gotoxy_cases h x y with ⟨-, e⟩ | ⟨r, -, -, e⟩ | ⟨r, r', -, -, e⟩
  · rw [e] at hi; exact nomatch hi
  · rw [e] at hi; exact nomatch hi
  · rw [e]; exact ⟨fun w => Lcd.goto_regs_same w _ _, rfl⟩

/-- What WRDATA can do from an idle block: stall at its data transaction, or store and advance. -/
theorem wrdata_cases {s : State} (h : s.Idle) (d : Byte) (inv : Bit) :
    (s.transport.accept = none ∧
      wrdata d inv s = { s with offer := some (.tx (Tx.data s.cursor.cs (dataByte d inv))) }) ∨
    (∃ r, s.transport.accept = some r ∧
      wrdata d inv s = advance (stored (dataByte d inv) { s with transport := r })) := by
  unfold wrdata
  dsimp only
  rw [State.emit_idle h]
  rcases State.offerTx_cases s (Tx.data s.cursor.cs (dataByte d inv)) with ⟨r, ha, e1⟩ | ⟨ha, e1⟩
  · right
    refine ⟨r, ha, ?_⟩
    rw [e1, State.andThen_idle (by rw [State.Idle, State.deliver_offer]; exact h)]
    simp only [State.deliver_cursor]
    rfl
  · left
    exact ⟨ha, by rw [e1]; rfl⟩

theorem stored_idle {s : State} (h : s.Idle) (v : Byte) : (stored v s).Idle := by
  simpa [stored, State.Idle] using h

/-- What the advance can do: one column, or a GOTOXY to the next position. -/
theorem advance_cases (s : State) :
    (s.cursor.col < 63 ∧
      advance s = { s with cursor := { s.cursor with col := s.cursor.col + 1, offset := s.cursor.offset + 8 } }) ∨
    (s.cursor.col = 63 ∧ ∃ x y, advance s = gotoxy x y s ∧ pixelPos x y = nextPos s.cursor.pos) := by
  by_cases h : s.cursor.col < 63
  · exact .inl ⟨h, advance_fast h⟩
  · exact .inr ⟨not_not.mp fun n => h ((col_lt_iff _).mpr n), advance_wrap h⟩

/-! ### A predicate carried through a flush -/

theorem flushBytes_keeps {P : State → Prop}
    (hw : ∀ u, u.Idle → P u → P (wrdata (u.readCache u.cursor.offset) 0 u)) (n : Nat) :
    ∀ {s : State}, P s → P (flushBytes n s) := by
  induction n with
  | zero => exact fun h => h
  | succ n ih => exact fun h => ih (State.andThen_keeps h (hw _))

theorem flushRow_keeps {P : State → Prop} (hg : ∀ u x y, u.Idle → P u → P (gotoxy x y u))
    (hw : ∀ u, u.Idle → P u → P (wrdata (u.readCache u.cursor.offset) 0 u)) {s : State} (h : P s) (yy : Byte) :
    P (flushRow yy s) :=
  State.andThen_keeps (State.andThen_keeps h (hg _ _ _)) fun _ hp => flushBytes_keeps hw _ hp

theorem flushRows_keeps {P : State → Prop} (hr : ∀ u yy, P u → P (flushRow yy u)) (fuel : Nat) :
    ∀ {s : State} (yy : Byte), P s → P (flushRows fuel yy s) := by
  induction fuel with
  | zero => exact fun _ h => h
  | succ fuel ih =>
    intro s yy h
    unfold flushRows
    split
    · exact ih _ (hr _ _ h)
    · exact h

theorem flushBox_keeps {P : State → Prop} (hr : ∀ u yy, P u → P (flushRow yy u)) {s : State} (h : P s) :
    P (flushBox s) := by
  unfold flushBox
  split
  · exact flushRows_keeps hr _ _ h
  · exact h

/-- A predicate carried through DWEND: kept by the clamp of the box, by a row, by GOTOXY and by clearing BATCH. -/
theorem dwend_keeps {P : State → Prop} {s : State} (h : P s) (hc : P (s.setBox s.box.clamp))
    (hr : ∀ u yy, P u → P (flushRow yy u)) (hg : ∀ u x y, u.Idle → P u → P (gotoxy x y u))
    (hb : ∀ u, P u → P (u.setBatch 0)) : P (dwend s) := by
  unfold dwend
  split
  · exact State.andThen_keeps (State.andThen_keeps (flushBox_keeps hr hc) (hg _ _ _)) fun _ => hb _
  · exact h

/-! ### What the bodies leave unchanged, completed or stalled -/

/-- The fields no GOTOXY, no WRDATA and no flush touches. -/
structure SameRest (s t : State) : Prop where
  params : t.params = s.params
  box : t.box = s.box
  batch : t.batch = s.batch
  resets : t.resets = s.resets
  rsp : t.rsp = s.rsp
  host : t.host = s.host
  reader : t.reader = s.reader

theorem SameRest.refl (s : State) : SameRest s s := ⟨rfl, rfl, rfl, rfl, rfl, rfl, rfl⟩

theorem SameRest.trans {s t u : State} (h : SameRest s t) (g : SameRest t u) : SameRest s u :=
  ⟨g.params.trans h.params, g.box.trans h.box, g.batch.trans h.batch, g.resets.trans h.resets, g.rsp.trans h.rsp,
    g.host.trans h.host, g.reader.trans h.reader⟩

theorem gotoxy_sameRest {s : State} (h : s.Idle) (x y : Byte) : SameRest s (gotoxy x y s) := by
  rcases gotoxy_cases h x y with ⟨-, e⟩ | ⟨r, -, -, e⟩ | ⟨r, r', -, -, e⟩ <;> rw [e] <;>
    exact ⟨rfl, rfl, rfl, rfl, rfl, rfl, rfl⟩

/-- GOTOXY touches neither CACHE, nor the display RAM, nor the proof devices. -/
theorem gotoxy_memories {s : State} (h : s.Idle) (x y : Byte) :
    (gotoxy x y s).cache = s.cache ∧ (gotoxy x y s).lcd.ram = s.lcd.ram ∧ (gotoxy x y s).ghost = s.ghost := by
  rcases gotoxy_cases h x y with ⟨-, e⟩ | ⟨r, -, -, e⟩ | ⟨r, r', -, -, e⟩ <;> rw [e] <;>
    simp [Lcd.receive_command_ram (t := Tx.setPage s.params (pixelPos x y)) rfl]

theorem stored_sameRest (v : Byte) (s : State) : SameRest s (stored v s) := by
  constructor <;> simp [stored]

theorem advance_sameRest {s : State} (h : s.Idle) : SameRest s (advance s) := by
  rcases advance_cases s with ⟨-, e⟩ | ⟨-, x, y, e, -⟩ <;> rw [e]
  · exact ⟨rfl, rfl, rfl, rfl, rfl, rfl, rfl⟩
  · exact gotoxy_sameRest h x y

/-- The advance touches neither CACHE, nor the display RAM, nor the proof devices. -/
theorem advance_memories {s : State} (h : s.Idle) :
    (advance s).cache = s.cache ∧ (advance s).lcd.ram = s.lcd.ram ∧ (advance s).ghost = s.ghost := by
  rcases advance_cases s with ⟨-, e⟩ | ⟨-, x, y, e, -⟩ <;> rw [e]
  · exact ⟨rfl, rfl, rfl⟩
  · exact gotoxy_memories h x y

theorem wrdata_sameRest {s : State} (h : s.Idle) (d : Byte) (inv : Bit) : SameRest s (wrdata d inv s) := by
  rcases wrdata_cases h d inv with ⟨-, e⟩ | ⟨r, -, e⟩ <;> rw [e]
  · exact ⟨rfl, rfl, rfl, rfl, rfl, rfl, rfl⟩
  · have h' : ({ s with transport := r } : State).Idle := h
    have h1 : SameRest s { s with transport := r } := ⟨rfl, rfl, rfl, rfl, rfl, rfl, rfl⟩
    exact h1.trans ((stored_sameRest _ _).trans (advance_sameRest (stored_idle h' _)))

/-- WRDATA leaves every byte of CACHE but the one under the cursor as it reads, and stores there if it is not
stalled at once. -/
theorem wrdata_reads {s : State} (h : s.Idle) (d : Byte) (inv : Bit) :
    (∀ a, (wrdata d inv s).readCache a = s.readCache a) ∨
      ∀ a, (wrdata d inv s).readCache a = if a = s.cursor.offset then dataByte d inv else s.readCache a := by
  rcases wrdata_cases h d inv with ⟨-, e⟩ | ⟨r, -, e⟩ <;> rw [e]
  · exact .inl fun a => rfl
  · right
    intro a
    have h' : ({ s with transport := r } : State).Idle := h
    have hm := advance_memories (stored_idle h' (dataByte d inv))
    have hr := (advance_sameRest (stored_idle h' (dataByte d inv))).resets
    rw [State.readCache_congr hm.1 hr, stored, State.markClean_readCache, State.readCache_writeCache,
      State.deliver_readCache]
    rfl

end Sys2Proof.Machine
end

