-- ==== Sys2Proof/Laws/Encoding.lean ====
section
/-! SUPPORT. The fields of a command word determine it, and what they are of a word built by `cw24` or masked
(30_encoding.md R61). -/

namespace Sys2Proof

/-- A word is the sum of its fields at their places (30_encoding.md R61). -/
theorem commandWord_toNat (w : CommandWord) : w.toNat = (fieldOP w).toNat * 2 ^ 20 + (fieldZ w).toNat * 2 ^ 17 +
    (fieldF w).toNat * 2 ^ 16 + (fieldA w).toNat * 2 ^ 8 + (fieldB w).toNat := by
  have := w.isLt
  simp [fieldOP, fieldZ, fieldF, fieldA, fieldB, Nat.shiftRight_eq_div_pow]
  omega

theorem fields_ext {w w' : CommandWord} (h1 : fieldOP w = fieldOP w') (h2 : fieldZ w = fieldZ w')
    (h3 : fieldF w = fieldF w') (h4 : fieldA w = fieldA w') (h5 : fieldB w = fieldB w') : w = w' :=
  BitVec.eq_of_toNat_eq (by rw [commandWord_toNat w, commandWord_toNat w', h1, h2, h3, h4, h5])

theorem fields_cw24 (op : BitVec 4) (f : Bit) (a b : Byte) :
    fieldOP (cw24 op f a b) = op ∧ fieldZ (cw24 op f a b) = 0 ∧ fieldF (cw24 op f a b) = f ∧
      fieldA (cw24 op f a b) = a ∧ fieldB (cw24 op f a b) = b := by
  unfold fieldOP fieldZ fieldF fieldA fieldB cw24
  refine ⟨?_, ?_, ?_, ?_, ?_⟩ <;> ext i hi <;> simp <;> grind

theorem fields_and (w m : CommandWord) :
    fieldOP (w &&& m) = fieldOP w &&& fieldOP m ∧ fieldZ (w &&& m) = fieldZ w &&& fieldZ m ∧
      fieldF (w &&& m) = fieldF w &&& fieldF m ∧ fieldA (w &&& m) = fieldA w &&& fieldA m ∧
        fieldB (w &&& m) = fieldB w &&& fieldB m := by
  refine ⟨?_, ?_, ?_, ?_, ?_⟩ <;>
    simp [fieldOP, fieldZ, fieldF, fieldA, fieldB, BitVec.extractLsb'_and]

/-- A word with `Z` zero is built from its fields. -/
theorem eq_cw24_of_fieldZ {w : CommandWord} (hz : fieldZ w = 0) :
    w = cw24 (fieldOP w) (fieldF w) (fieldA w) (fieldB w) := by
  obtain ⟨h1, h2, h3, h4, h5⟩ := fields_cw24 (fieldOP w) (fieldF w) (fieldA w) (fieldB w)
  exact fields_ext h1.symm (hz.trans h2.symm) h3.symm h4.symm h5.symm

theorem and_mask8 (a : Byte) : a &&& 0xFF = a ∧ a &&& 0 = 0 := by
  constructor <;> (revert a; decide)

theorem and_mask4 (a : BitVec 4) : a &&& 0xF = a := by
  revert a; decide

theorem and_mask1 (a : Bit) : a &&& 1 = a ∧ a &&& 0 = 0 := by
  constructor <;> (revert a; decide)

/-- What the masks of read fields keep of a word (30_encoding.md R63, R65). -/
theorem cw24_and_mask (op : BitVec 4) (f : Bit) (a b : Byte) :
    cw24 op f a b &&& 0xFEFFFF = cw24 op 0 a b ∧ cw24 op f a b &&& 0xFFFF00 = cw24 op f a 0 ∧
      cw24 op f a b &&& 0xFE0000 = cw24 op 0 0 0 ∧ cw24 op f a b &&& 0xFFFFFF = cw24 op f a b := by
  refine ⟨?_, ?_, ?_, ?_⟩ <;> apply fields_ext <;> simp only [fields_and, fields_cw24] <;>
    first
    | exact and_mask4 _
    | exact (and_mask1 _).1
    | exact (and_mask1 _).2
    | exact (and_mask8 _).1
    | exact (and_mask8 _).2
    | rfl

end Sys2Proof
end

