-- ==== Sys2Proof/Laws/Exec.lean ====
section
/-! SUPPORT. SETPIX, the flush and `exec` as a whole, whatever the transport's readiness: SETPIX as one equation per
mode, what a flush cannot change, a blocked flush, and how a predicate is carried through a command and a step. -/

namespace Sys2Proof.Machine

/-! ### SETPIX -/

/-- SETPIX in a batch, as one update of the state (42_setpixel.md R103). -/
theorem setpix_deferred {s : State} (hb : s.batch = 1) (x y : Byte) (val : Bit) :
    setpix x y val s = { s with
      cursor := Cursor.ofPos (nextPos (pixelPos x y))
      cache := Memory.write s.cache (pixelAddr x y).toNat (setBit (s.readCache (pixelAddr x y)) (pixelBit y) val)
      box := s.box.widen (clampX x) (clampY y)
      ghost := { s.ghost with dirty := AddrSet.insert s.ghost.dirty (pixelAddr x y).toNat } } := by
  rw [setpix, if_neg (by rw [hb]; decide), setpixDeferred]
  dsimp only
  rw [dwupdate, if_pos (by simpa [State.InBatch] using hb)]
  rfl

/-- SETPIX outside a batch with a live transport: WRDATA of the changed byte after the two GOTOXYs (R102). -/
theorem setpix_immediate_ready {s : State} (h : s.Ready) (hb : s.batch = 0) (x y : Byte) (val : Bit) :
    setpix x y val s = wrdata (setBit (s.readCache (pixelAddr x y)) (pixelBit y) val) 0 { s with
      cursor := Cursor.ofPos (pixelPos x y)
      tx := s.tx ++ gotoTxs s.params (pixelPos x y) ++ gotoTxs s.params (pixelPos x y)
      lcd := (s.lcd.goto s.params (pixelPos x y)).goto s.params (pixelPos x y) } := by
  have h1 := gotoxy_ready_ready h x y
  have h2 := gotoxy_ready_ready h1 x y
  rw [setpix, if_pos hb, setpixImmediate]
  dsimp only
  rw [gotoxy_clamp, State.andThen_idle h1.1, gotoxy_clamp, State.andThen_idle h2.1, gotoxy_ready h1, gotoxy_ready h]
  rfl

/-- A predicate carried through immediate SETPIX. -/
theorem setpixImmediate_keeps {P : State → Prop} (hg : ∀ u x y, u.Idle → P u → P (gotoxy x y u))
    (hw : ∀ u d inv, u.Idle → P u → P (wrdata d inv u)) {s : State} (hi : s.Idle) (h : P s) (x y : Byte) (val : Bit) :
    P (setpixImmediate x y val s) := by
  unfold setpixImmediate
  dsimp only
  exact State.andThen_keeps (hg _ _ _ hi h) fun hi' h' =>
    State.andThen_keeps (hg _ _ _ hi' h') fun hi'' h'' => hw _ _ _ hi'' h''

/-! ### The flush -/

theorem flushBytes_blocked {o : Offer} (n : Nat) : ∀ {s : State}, s.offer = some o → flushBytes n s = s := by
  induction n with
  | zero => exact fun _ => rfl
  | succ n ih => intro s h; rw [flushBytes, State.andThen_blocked h, ih h]

theorem flushRow_blocked {o : Offer} {s : State} (h : s.offer = some o) (yy : Byte) : flushRow yy s = s := by
  rw [flushRow, State.andThen_blocked h, State.andThen_blocked h]

theorem flushRows_blocked {o : Offer} (fuel : Nat) :
    ∀ {s : State} (yy : Byte), s.offer = some o → flushRows fuel yy s = s := by
  induction fuel with
  | zero => exact fun _ _ => rfl
  | succ fuel ih =>
    intro s yy h
    rw [flushRows]
    split
    · rw [flushRow_blocked h, ih _ h]
    · rfl

/-- A flush, completed or stalled, leaves every byte of CACHE as it reads. -/
theorem dwend_readCache (s : State) (a : CacheAddr) : (dwend s).readCache a = s.readCache a := by
  have hg : ∀ (u : State) (x y : Byte), u.Idle → (∀ a, u.readCache a = s.readCache a) →
      ∀ a, (gotoxy x y u).readCache a = s.readCache a := fun u x y hi h a => by
    rw [State.readCache_congr (gotoxy_memories hi x y).1 (gotoxy_sameRest hi x y).resets, h]
  refine dwend_keeps (P := fun u => ∀ a, u.readCache a = s.readCache a) (fun _ => rfl) (fun _ => rfl) ?_ hg
    (fun _ h => h) a
  refine fun u yy h => flushRow_keeps (P := fun u => ∀ a, u.readCache a = s.readCache a) hg ?_ h yy
  intro u hi h a
  rcases wrdata_reads hi (u.readCache u.cursor.offset) 0 with e | e <;> rw [e]
  · exact h a
  · split
    · subst_vars; simp [dataByte, h]
    · exact h a

/-! ### A command and a step -/

/-- The body of a command: what `exec` performs on an idle block. -/
def bodyOf (i : Instr) : State → State :=
  match i with
  | .gotoxy x y => gotoxy x y
  | .wrdata d inv => wrdata d inv
  | .rddata => rddata
  | .setpix x y val => setpix x y val
  | .dwstart => dwstart
  | .dwupdate x y => dwupdate x y
  | .dwend => dwend

/-- `exec` answers a next state: the body's on an idle block, the same state on a blocked one. -/
theorem exec_eq (i : Instr) (s : State) : exec i s = .next (s.andThen (bodyOf i)) := by
  cases i <;> rfl

theorem exec_idle {s : State} (h : s.Idle) (i : Instr) : exec i s = .next (bodyOf i s) := by
  rw [exec_eq, State.andThen_idle h]

/-- A predicate carried through any command: kept by the operations the bodies are made of. -/
theorem exec_keeps {P : State → Prop} (hg : ∀ u x y, u.Idle → P u → P (gotoxy x y u))
    (hw : ∀ u d inv, u.Idle → P u → P (wrdata d inv u)) (hr : ∀ u v, u.Idle → P u → P (u.respond v))
    (hd : ∀ u x y val, u.Idle → u.batch = 1 → P u → P (setpix x y val u)) (hbox : ∀ u b, P u → P (u.setBox b))
    (hbat : ∀ u b, P u → P (u.setBatch b)) {i : Instr} {s t : State} (hs : P s) (hx : exec i s = .next t) : P t := by
  have hdw : ∀ s, P s → P (dwend s) := fun s hs =>
    dwend_keeps hs (hbox _ _ hs) (fun u yy h => flushRow_keeps hg (fun u => hw u _ _) h yy) hg fun u => hbat u _
  rw [exec_eq] at hx
  injection hx with hx
  rw [← hx]
  refine State.andThen_keeps hs fun hi _ => ?_
  cases i with
  | gotoxy x y => exact hg _ _ _ hi hs
  | wrdata d inv => exact hw _ _ _ hi hs
  | rddata => exact hr _ _ hi hs
  | setpix x y val =>
    show P (setpix x y val s)
    rcases bit_cases s.batch with hb | hb
    · rw [setpix, if_pos hb]; exact setpixImmediate_keeps hg hw hi hs x y val
    · exact hd _ _ _ _ hi hb hs
  | dwstart =>
    show P ((if s.InBatch then dwend s else s).andThen fun s => (s.setBox Box.empty).setBatch 1)
    refine State.andThen_keeps ?_ fun _ h => hbat _ _ (hbox _ _ h)
    split
    · exact hdw _ hs
    · exact hs
  | dwupdate x y =>
    show P (dwupdate x y s)
    unfold dwupdate
    split
    · exact hbox _ _ hs
    · exact hs
  | dwend => exact hdw _ hs

/-- No RESET is due on an idle block whose host has a command next; on a busy block, when none is planned. -/
theorem dueReset_none {busy : Bool} {plan : List HostEvent} (h : ∀ r rest, plan ≠ .reset r :: rest)
    (hb : busy = false ∨ ∀ r, .reset r ∉ plan) : dueReset busy plan = none := by
  induction plan with
  | nil => rfl
  | cons e plan ih =>
    cases e with
    | reset r => exact absurd rfl (h r plan)
    | command w =>
      rcases hb with rfl | hb
      · rfl
      · have hb' : ∀ r, HostEvent.reset r ∉ plan := fun r hm => hb r (List.mem_cons_of_mem _ hm)
        rw [dueReset, ih (fun r rest e => hb' r (e ▸ List.mem_cons_self)) (.inr hb')]
        exact ite_self _

/-- The RESET taken behind waiting command words: the one planned first. -/
theorem dueReset_some {busy : Bool} (r : ResetEvent) (rest : List HostEvent) (waiting : List CommandWord)
    (hb : waiting = [] ∨ busy = true) :
    dueReset busy (waiting.map .command ++ .reset r :: rest) =
      some (r, if r.keepsWaiting then waiting.map .command ++ rest else rest) := by
  induction waiting with
  | nil => simp [dueReset]
  | cons w ws ih =>
    have hb := hb.resolve_left (by simp)
    rw [List.map_cons, List.cons_append, dueReset, if_pos hb, ih (.inr hb)]
    cases hk : r.keepsWaiting <;> simp [hk]

/-- What a step can do: wait, take the RESET that is due, execute the command of a word, or ignore a reserved word. -/
theorem step_cases {s t : State} (h : step s = .next t) :
    (t = s ∧ dueReset s.offer.isSome s.host = none) ∨
    (∃ r rest, dueReset s.offer.isSome s.host = some (r, rest) ∧ t = ({ s with host := rest }).takeReset r) ∨
    (∃ w rest, s.host = .command w :: rest ∧ s.Idle ∧
      ((∃ i, decode w = .ok i ∧ exec i { s with host := rest } = .next t) ∨
        ∃ r, decode w = .error r ∧ t = { s with host := rest })) := by
  unfold step serve at h
  split at h
  · injection h with h; exact .inr (.inl ⟨_, _, ‹_›, h.symm⟩)
  · split at h
    · refine .inr (.inr ⟨_, _, ‹_›, ‹_›, ?_⟩)
      unfold acceptWord at h
      split at h
      · exact .inl ⟨_, ‹_›, h⟩
      · injection h with h; exact .inr ⟨_, ‹_›, h.symm⟩
    · injection h with h; exact .inl ⟨h.symm, ‹_›⟩

end Sys2Proof.Machine
end

