-- ==== Sys2Proof/Laws/Flush.lean ====
section
/-! SUPPORT. The flush of DWEND with a live transport: what a run of bytes, a row, the rows and the whole command
do to the cache, the display, the proof devices and the TX stream (43_coalescer.md R112, R113, R117). -/

namespace Sys2Proof.Machine

/-- From `s` to `t` the display was rewritten from CACHE at the addresses of `A` and nowhere else, CACHE reads as
before, and the addresses of `A` are in VALID and out of DIRTY; what it says of the display and of the proof devices
it says for well-formed parameters. -/
structure Flushed (A : CacheAddr → Prop) (s t : State) : Prop where
  ready : t.Ready
  reads : ∀ a, t.readCache a = s.readCache a
  showsIn : s.params.Wf → ∀ a, A a → t.lcd.ramAt a = s.readCache a
  showsOut : s.params.Wf → ∀ a, ¬ A a → t.lcd.ramAt a = s.lcd.ramAt a
  valid : s.params.Wf → ∀ k, k ∈ t.ghost.valid ↔ (∃ a, A a ∧ k = a.toNat) ∨ k ∈ s.ghost.valid
  dirty : s.params.Wf → ∀ k, k ∈ t.ghost.dirty ↔ k ∈ s.ghost.dirty ∧ ∀ a, A a → k ≠ a.toNat
  params : t.params = s.params
  box : t.box = s.box
  batch : t.batch = s.batch
  resets : t.resets = s.resets
  rsp : t.rsp = s.rsp
  host : t.host = s.host
  reader : t.reader = s.reader

theorem Flushed.trans {A B : CacheAddr → Prop} {s t u : State} (h : Flushed A s t) (g : Flushed B t u) :
    Flushed (fun a => A a ∨ B a) s u where
  ready := g.ready
  reads a := (g.reads a).trans (h.reads a)
  showsIn w a ha := by
    by_cases hb : B a
    · exact (g.showsIn (h.params ▸ w) a hb).trans (h.reads a)
    · rw [g.showsOut (h.params ▸ w) a hb]; exact h.showsIn w a (ha.resolve_right hb)
  showsOut w a ha := by
    rw [g.showsOut (h.params ▸ w) a fun b => ha (.inr b)]; exact h.showsOut w a fun b => ha (.inl b)
  valid w k := by
    rw [g.valid (h.params ▸ w), h.valid w]
    constructor
    · rintro (⟨a, ha, e⟩ | ⟨a, ha, e⟩ | hk)
      · exact .inl ⟨a, .inr ha, e⟩
      · exact .inl ⟨a, .inl ha, e⟩
      · exact .inr hk
    · rintro (⟨a, ha | ha, e⟩ | hk)
      · exact .inr (.inl ⟨a, ha, e⟩)
      · exact .inl ⟨a, ha, e⟩
      · exact .inr (.inr hk)
  dirty w k := by
    rw [g.dirty (h.params ▸ w), h.dirty w]
    constructor
    · rintro ⟨⟨hk, ha⟩, hb⟩; exact ⟨hk, fun a hab => hab.elim (ha a) (hb a)⟩
    · rintro ⟨hk, hab⟩; exact ⟨⟨hk, fun a ha => hab a (.inl ha)⟩, fun a hb => hab a (.inr hb)⟩
  params := g.params.trans h.params
  box := g.box.trans h.box
  batch := g.batch.trans h.batch
  resets := g.resets.trans h.resets
  rsp := g.rsp.trans h.rsp
  host := g.host.trans h.host
  reader := g.reader.trans h.reader

theorem Flushed.congr {A B : CacheAddr → Prop} {s t : State} (h : Flushed A s t) (hAB : ∀ a, A a ↔ B a) :
    Flushed B s t :=
  (funext fun a => propext (hAB a) : A = B) ▸ h

/-- GOTOXY flushes nothing. -/
theorem gotoxy_flushed {s : State} (h : s.Ready) (x y : Byte) : Flushed (fun _ => False) s (gotoxy x y s) := by
  have hr := gotoxy_ready_ready h x y
  rw [gotoxy_ready h] at hr ⊢
  refine { ready := hr, reads := fun a => rfl, showsIn := fun _ a => False.elim, showsOut := fun _ a _ => ?_,
           valid := fun _ k => by simp, dirty := fun _ k => by simp, params := rfl, box := rfl, batch := rfl, resets := rfl,
           rsp := rfl, host := rfl, reader := rfl }
  simp [Lcd.ramAt]

/-- WRDATA of the byte read under the cursor flushes that one address. -/
theorem Wrote.flushed {p : Pos} {s t : State} (hs : s.params.Wf → s.Sync)
    (h : Wrote p (s.readCache (cacheOffset p)) s t) :
    Flushed (fun a => a = cacheOffset p) s t where
  ready := h.ready
  reads a := by rw [h.reads]; split <;> simp_all
  showsIn w a ha := by rw [h.shows (hs w), if_pos ha, ha]
  showsOut w a ha := by rw [h.shows (hs w), if_neg ha]
  valid w k := by rw [h.valid (hs w)]; simp
  dirty w k := by rw [h.dirty (hs w)]; simp
  params := h.params
  box := h.box
  batch := h.batch
  resets := h.resets
  rsp := h.rsp
  host := h.host
  reader := h.reader

/-- A run of `n` bytes from position `p`. -/
theorem flushBytes_spec (n : Nat) : ∀ {s : State} {p : Pos}, s.Ready → (s.params.Wf → s.Sync) →
    s.cursor = Cursor.ofPos p → Flushed (fun a => ∃ k < n, a = cacheOffset (nextPos^[k] p)) s (flushBytes n s) ∧
      (s.params.Wf → (flushBytes n s).Sync) ∧ (flushBytes n s).cursor = Cursor.ofPos (nextPos^[n] p) ∧
        (flushBytes n s).tx = s.tx ++
          (List.range n).flatMap fun k => dataTxs s.params (s.readCache (cacheOffset (nextPos^[k] p))) (nextPos^[k] p) := by
  induction n with
  | zero =>
    intro s p h hs hc
    refine ⟨{ ready := h, reads := fun a => rfl, showsIn := ?_, showsOut := fun _ a _ => rfl,
              valid := fun _ k => by simp [flushBytes], dirty := fun _ k => by simp [flushBytes], params := rfl, box := rfl,
              batch := rfl, resets := rfl, rsp := rfl, host := rfl, reader := rfl }, hs, hc,
            by simp [flushBytes]⟩
    simp
  | succ n ih =>
    intro s p h hs hc
    have hoff : s.cursor.offset = cacheOffset p := by rw [hc]; rfl
    have hw : Wrote p (s.readCache (cacheOffset p)) s (wrdata (s.readCache s.cursor.offset) 0 s) := by
      have := wrdata_wrote h hc (s.readCache s.cursor.offset) 0
      rw [hoff] at this ⊢
      simpa [dataByte] using this
    have e : flushBytes (n + 1) s = flushBytes n (wrdata (s.readCache s.cursor.offset) 0 s) := by
      rw [flushBytes, State.andThen_idle h.1]
    obtain ⟨g1, g2, g3, g4⟩ := ih hw.ready (fun w => hw.sync (hw.params ▸ w) (hs (hw.params ▸ w))) hw.cursor
    rw [e]
    refine ⟨((hw.flushed hs).trans g1).congr fun a => ?_, fun w => g2 (hw.params.symm ▸ w), ?_, ?_⟩
    · constructor
      · rintro (ha | ⟨k, hk, ha⟩)
        · exact ⟨0, by omega, ha⟩
        · exact ⟨k + 1, by omega, ha⟩
      · rintro ⟨k, hk, ha⟩
        cases k with
        | zero => exact .inl ha
        | succ k => exact .inr ⟨k, by omega, ha⟩
    · rw [g3]; rfl
    · rw [g4, hw.tx, hw.params, List.range_succ_eq_map, List.flatMap_cons, List.flatMap_map, List.append_assoc]
      congr 2
      congr 1
      funext k
      have : ∀ a, (wrdata (s.readCache s.cursor.offset) 0 s).readCache a = s.readCache a := (hw.flushed hs).reads
      rw [this]
      rfl

theorem nextPos_iterate_canvasAt {x p : Nat} (hp : p ≤ 7) (k : Nat) (h : x + k ≤ 127) :
    nextPos^[k] (canvasAt x p) = canvasAt (x + k) p := by
  induction k with
  | zero => rfl
  | succ k ih => rw [Function.iterate_succ_apply', ih (by omega), nextPos_canvasAt (by omega) hp]; rfl

/-- The address is in canvas column `x` to `x + n - 1` of page `p`. -/
abbrev InRow (x n p : Nat) (a : CacheAddr) : Prop := ∃ k < n, a = cacheOffset (canvasAt (x + k) p)

theorem inRow_iff {x n p : Nat} (hx : x + n ≤ 128) (hp : p ≤ 7) (a : CacheAddr) :
    InRow x n p a ↔ x ≤ a.toNat / 8 ∧ a.toNat / 8 < x + n ∧ a.toNat % 8 = p := by
  constructor
  · rintro ⟨k, hk, rfl⟩
    obtain ⟨h1, h2, h3⟩ := canvasAt_eq (x := x + k) (by omega) hp
    rw [cacheOffset_toNat, h1, h2, h3]; omega
  · rintro ⟨h1, h2, h3⟩
    refine ⟨a.toNat / 8 - x, by omega, BitVec.eq_of_toNat_eq ?_⟩
    obtain ⟨g1, g2, g3⟩ := canvasAt_eq (x := x + (a.toNat / 8 - x)) (by omega) hp
    rw [cacheOffset_toNat, g1, g2, g3]; omega

/-- The box lies on the canvas and is not degenerate, as after the clamp of DWEND. -/
structure Box.OnCanvas (b : Box) : Prop where
  lr : b.left.toNat ≤ b.right.toNat
  tb : b.top.toNat ≤ b.bottom.toNat
  right : b.right.toNat ≤ 127
  bottom : b.bottom.toNat ≤ 63

theorem minByte_toNat (a b : Byte) : (minByte a b).toNat = min a.toNat b.toNat := by
  unfold minByte; simp only [BitVec.le_def]; split <;> omega

theorem maxByte_toNat (a b : Byte) : (maxByte a b).toNat = max a.toNat b.toNat := by
  unfold maxByte; simp only [BitVec.le_def]; split <;> omega

theorem Box.clamp_onCanvas {b : Box} (h : b.clamp.Nonempty) : b.clamp.OnCanvas where
  lr := h.1
  tb := h.2
  right := by show (minByte b.right 127).toNat ≤ 127; rw [minByte_toNat]; exact Nat.min_le_right _ _
  bottom := by show (minByte b.bottom 63).toNat ≤ 63; rw [minByte_toNat]; exact Nat.min_le_right _ _

/-- One row of the flush. -/
theorem flushRow_spec {s : State} (h : s.Ready) (hb : s.box.OnCanvas) {p : Nat} (hp : p ≤ 7) {yy : Byte}
    (hyy : yy = BitVec.ofNat 8 (8 * p)) :
    Flushed (InRow s.box.left.toNat s.box.rowBytes p) s (flushRow yy s) ∧
      (flushRow yy s).tx = s.tx ++ rowTxs s.params s.readCache s.box.left.toNat s.box.rowBytes p := by
  have hlr := hb.lr; have hr := hb.right
  have hn : (s.box.right - s.box.left).toNat + 1 = s.box.rowBytes := by
    rw [Box.rowBytes, BitVec.toNat_sub_of_le (by exact hlr)]
  have hrow : s.box.left.toNat + s.box.rowBytes ≤ 128 := by rw [Box.rowBytes]; omega
  have hpos : pixelPos s.box.left yy = canvasAt s.box.left.toNat p := by
    have h8 : yy.toNat ≤ 63 := by rw [hyy]; simp; omega
    rw [pixelPos, canvasAt, clampX_of_le (by omega), clampY_of_le h8, hyy]
    simp
  have hg := gotoxy_flushed h s.box.left yy
  have hg' : (gotoxy s.box.left yy s).params.Wf → (gotoxy s.box.left yy s).Sync :=
    fun w => gotoxy_ready_sync h (hg.params ▸ w) s.box.left yy
  have hgc : (gotoxy s.box.left yy s).cursor = Cursor.ofPos (canvasAt s.box.left.toNat p) := by
    rw [gotoxy_ready h, hpos]
  have hgt : (gotoxy s.box.left yy s).tx = s.tx ++ gotoTxs s.params (canvasAt s.box.left.toNat p) := by
    rw [gotoxy_ready h, hpos]
  have e : flushRow yy s = flushBytes s.box.rowBytes (gotoxy s.box.left yy s) := by
    rw [flushRow, State.andThen_idle h.1, State.andThen_idle hg.ready.1, hg.box, hn]
  obtain ⟨f1, -, -, f4⟩ := flushBytes_spec s.box.rowBytes hg.ready hg' hgc
  rw [e]
  have hiter : ∀ k < s.box.rowBytes, nextPos^[k] (canvasAt s.box.left.toNat p) = canvasAt (s.box.left.toNat + k) p :=
    fun k hk => nextPos_iterate_canvasAt hp k (by omega)
  refine ⟨(hg.trans f1).congr fun a => ?_, ?_⟩
  · constructor
    · rintro (hf | ⟨k, hk, ha⟩)
      · exact hf.elim
      · exact ⟨k, hk, by rw [ha, hiter k hk]⟩
    · rintro ⟨k, hk, ha⟩
      exact .inr ⟨k, hk, by rw [ha, hiter k hk]⟩
  · rw [f4, hgt, hg.params, List.append_assoc, rowTxs]
    congr 2
    rw [List.flatMap_def, List.flatMap_def]
    congr 1
    refine List.map_congr_left fun k hk => ?_
    rw [hiter k (List.mem_range.mp hk), hg.reads]

/-- The rows of the flush from page `p` on. -/
theorem flushRows_spec (fuel : Nat) : ∀ {s : State} {p : Nat} {yy : Byte}, s.Ready → s.box.OnCanvas →
    yy = BitVec.ofNat 8 (8 * p) → p ≤ 8 → 8 ≤ p + fuel →
    Flushed (fun a => ∃ r < s.box.bottom.toNat / 8 + 1 - p, InRow s.box.left.toNat s.box.rowBytes (p + r) a) s
        (flushRows fuel yy s) ∧
      (flushRows fuel yy s).tx = s.tx ++ (List.range (s.box.bottom.toNat / 8 + 1 - p)).flatMap fun r =>
        rowTxs s.params s.readCache s.box.left.toNat s.box.rowBytes (p + r) := by
  induction fuel with
  | zero =>
    intro s p yy h hb hyy hp hf
    have hbot := hb.bottom
    have h0 : s.box.bottom.toNat / 8 + 1 - p = 0 := by omega
    refine ⟨{ ready := h, reads := fun a => rfl, showsIn := ?_, showsOut := fun _ a _ => rfl, valid := ?_,
              dirty := ?_, params := rfl, box := rfl, batch := rfl, resets := rfl, rsp := rfl, host := rfl, reader := rfl }, ?_⟩
    all_goals simp [h0, flushRows]
  | succ fuel ih =>
    intro s p yy h hb hyy hp hf
    have hbot := hb.bottom
    by_cases hle : yy ≤ s.box.bottom
    · have hle' : yy.toNat ≤ s.box.bottom.toNat := hle
      have h8 : yy.toNat = 8 * p := by rw [hyy]; simp; omega
      obtain ⟨r1, r2⟩ := flushRow_spec h hb (p := p) (by omega) hyy
      have hb' : (flushRow yy s).box.OnCanvas := by rw [r1.box]; exact hb
      obtain ⟨i1, i2⟩ := ih (p := p + 1) (yy := yy + 8) r1.ready hb' (by rw [hyy]; apply BitVec.eq_of_toNat_eq; simp; omega)
        (by omega) (by omega)
      have e : flushRows (fuel + 1) yy s = flushRows fuel (yy + 8) (flushRow yy s) := by
        rw [flushRows, if_pos hle]
      have hN : s.box.bottom.toNat / 8 + 1 - p = (s.box.bottom.toNat / 8 + 1 - (p + 1)) + 1 := by omega
      rw [e]
      refine ⟨(r1.trans i1).congr fun a => ?_, ?_⟩
      · rw [r1.box, hN]
        constructor
        · rintro (ha | ⟨r, hr, ha⟩)
          · exact ⟨0, by omega, ha⟩
          · exact ⟨r + 1, by omega, by rw [show p + (r + 1) = p + 1 + r by omega]; exact ha⟩
        · rintro ⟨r, hr, ha⟩
          cases r with
          | zero => exact .inl ha
          | succ r => exact .inr ⟨r, by omega, by rw [show p + 1 + r = p + (r + 1) by omega]; exact ha⟩
      · rw [i2, r2, r1.box, r1.params, hN, List.range_succ_eq_map, List.flatMap_cons, List.flatMap_map, List.append_assoc]
        congr 2
        have : (flushRow yy s).readCache = s.readCache := funext r1.reads
        rw [this, List.flatMap_def, List.flatMap_def]
        congr 1
        refine List.map_congr_left fun r _ => ?_
        show _ = rowTxs _ _ _ _ (p + (r + 1))
        rw [show p + (r + 1) = p + 1 + r by omega]
    · have hlt : ¬ yy.toNat ≤ s.box.bottom.toNat := hle
      have h8 : yy.toNat = 8 * p := by rw [hyy]; simp; omega
      have h0 : s.box.bottom.toNat / 8 + 1 - p = 0 := by omega
      have e : flushRows (fuel + 1) yy s = s := by rw [flushRows, if_neg hle]
      rw [e]
      refine ⟨{ ready := h, reads := fun a => rfl, showsIn := ?_, showsOut := fun _ a _ => rfl, valid := ?_,
                dirty := ?_, params := rfl, box := rfl, batch := rfl, resets := rfl, rsp := rfl, host := rfl, reader := rfl }, ?_⟩
      all_goals simp [h0]

theorem and_f8 (b : Byte) : b &&& 0xF8 = BitVec.ofNat 8 (8 * (b.toNat / 8)) := by
  revert b; decide

theorem shiftRight3_toNat (b : Byte) : (b >>> 3).toNat = b.toNat / 8 := by
  simp [Nat.shiftRight_eq_div_pow]

/-- The addresses of the rows are those the box covers (43_coalescer.md R113). -/
theorem covers_iff {b : Box} (hb : b.OnCanvas) (a : CacheAddr) :
    (∃ r < b.bottom.toNat / 8 + 1 - b.top.toNat / 8, InRow b.left.toNat b.rowBytes (b.top.toNat / 8 + r) a) ↔
      b.Covers a := by
  have hlr := hb.lr; have htb := hb.tb; have hr := hb.right; have hbt := hb.bottom
  have hn : b.rowBytes = b.right.toNat - b.left.toNat + 1 := rfl
  simp only [Box.Covers, Box.Nonempty, BitVec.le_def, addrX_toNat, addrPage_toNat, shiftRight3_toNat]
  constructor
  · rintro ⟨r, hr', h⟩
    rw [inRow_iff (by omega) (by omega)] at h
    omega
  · intro h
    refine ⟨a.toNat % 8 - b.top.toNat / 8, by omega, ?_⟩
    rw [inRow_iff (by omega) (by omega)]
    omega

/-- The flush of a clamped box: its covered addresses, and its transactions (43_coalescer.md R113). -/
theorem flushBox_spec {s : State} (h : s.Ready) (hb : s.box.Nonempty → s.box.OnCanvas) :
    Flushed (fun a => s.box.Covers a) s (flushBox s) ∧
      (flushBox s).tx = s.tx ++ flushTxs s.params s.readCache s.box := by
  by_cases hn : s.box.Nonempty
  · have hb := hb hn
    have htb := hb.tb; have hbt := hb.bottom
    obtain ⟨f1, f2⟩ := flushRows_spec 8 (p := s.box.top.toNat / 8) h hb (and_f8 s.box.top) (by omega) (by omega)
    have e : flushBox s = flushRows 8 (s.box.top &&& 0xF8) s := by rw [flushBox, if_pos hn]
    rw [e]
    refine ⟨f1.congr fun a => ?_, ?_⟩
    · exact covers_iff hb a
    · rw [f2, flushTxs, if_pos hn, Box.rows]
      rw [show s.box.bottom.toNat / 8 + 1 - s.box.top.toNat / 8 = s.box.bottom.toNat / 8 - s.box.top.toNat / 8 + 1 by omega]
  · have e : flushBox s = s := by rw [flushBox, if_neg hn]
    rw [e, flushTxs, if_neg hn]
    refine ⟨{ ready := h, reads := fun a => rfl, showsIn := ?_, showsOut := fun _ a _ => rfl, valid := ?_,
              dirty := ?_, params := rfl, box := rfl, batch := rfl, resets := rfl, rsp := rfl, host := rfl, reader := rfl }, by simp⟩
    all_goals simp [Box.Covers, hn]

/-- DWEND in a batch with a live transport: the flush of the clamped box, then the cursor, the hardware cursor and
the flag (43_coalescer.md R112). -/
theorem dwend_ready {s : State} (h : s.Ready) (hb : s.batch = 1) :
    ∃ u, Flushed (fun a => s.box.clamp.Covers a) (s.setBox s.box.clamp) u ∧
      u.tx = s.tx ++ dwendTxs s ∧ (s.params.Wf → u.Sync) ∧ u.cursor = Cursor.ofPos s.cursor.pos ∧ dwend s = u.setBatch 0 := by
  obtain ⟨f1, f2⟩ := flushBox_spec (s := s.setBox s.box.clamp) h fun hn => Box.clamp_onCanvas hn
  have hg := gotoxy_flushed f1.ready (logX s.cursor.cs s.cursor.col) (logY s.cursor.page)
  refine ⟨gotoxy (logX s.cursor.cs s.cursor.col) (logY s.cursor.page) (flushBox (s.setBox s.box.clamp)),
    (f1.trans hg).congr fun a => by simp, ?_,
    fun w => gotoxy_ready_sync f1.ready (f1.params ▸ w) _ _, ?_, ?_⟩
  · rw [gotoxy_ready f1.ready, pixelPos_log]
    show (flushBox (s.setBox s.box.clamp)).tx ++ _ = _
    rw [f2, f1.params, dwendTxs, List.append_assoc]
    rfl
  · rw [gotoxy_ready f1.ready, pixelPos_log]
  · unfold dwend
    dsimp only
    rw [if_pos hb, State.andThen_idle f1.ready.1, State.andThen_idle hg.ready.1]

end Sys2Proof.Machine
end

