-- ==== Sys2Proof/Laws/PerInstr.lean ====
section
/-! SUPPORT. Statements about every command as syntax, one lemma per constructor of `Instr`. -/

namespace Sys2Proof.Laws.OpcodeField

/-- The opcode of a command (30_encoding.md R63, column "OP"). -/
def opcode (i : Instr) : BitVec 4 :=
  match i with
  | .gotoxy _ _ => 1
  | .wrdata _ _ => 2
  | .rddata => 3
  | .setpix _ _ _ => 4
  | .dwstart => 5
  | .dwupdate _ _ => 6
  | .dwend => 7

/-- The word of a command holds the command's opcode in `OP` and zero in `Z` (30_encoding.md R61, R63, R64). -/
def Statement (i : Instr) : Prop := fieldOP (encode i) = opcode i ∧ fieldZ (encode i) = 0

theorem of_cw24 (op : BitVec 4) (f : Bit) (a b : Byte) : fieldOP (cw24 op f a b) = op ∧ fieldZ (cw24 op f a b) = 0 :=
  ⟨(fields_cw24 op f a b).1, (fields_cw24 op f a b).2.1⟩

theorem gotoxy (x y : Byte) : Statement (.gotoxy x y) := of_cw24 _ _ _ _

theorem wrdata (d : Byte) (inv : Bit) : Statement (.wrdata d inv) := of_cw24 _ _ _ _

theorem rddata : Statement .rddata := of_cw24 _ _ _ _

theorem setpix (x y : Byte) (val : Bit) : Statement (.setpix x y val) := of_cw24 _ _ _ _

theorem dwstart : Statement .dwstart := of_cw24 _ _ _ _

theorem dwupdate (x y : Byte) : Statement (.dwupdate x y) := of_cw24 _ _ _ _

theorem dwend : Statement .dwend := of_cw24 _ _ _ _

end Sys2Proof.Laws.OpcodeField
end

