-- ==== Sys2Proof/Tests/Slice0.lean ====
section
/-! SUPPORT. Tests: ill-formed terms are refused, words written out from the spec's encoding decode, one step per
command against the spec's own tables, and a witness for every statement with hypotheses. -/

namespace Sys2Proof.Tests

open Sys2Proof.Machine

/-! ### Builders -/

/-- The state a command leaves. -/
def after (i : Instr) (s : State) : State :=
  match exec i s with
  | .next t => t
  | .fault _ => s
  | .refused _ => s

/-- After reset, then both cursors at `p` (SYNC), `p` also the other half's hardware cursor. -/
def cursorAt (p : Pos) : State :=
  let r : LcdRegs := { page := p.page, col := p.col }
  { State.reset with cursor := Cursor.ofPos p, lcd := { chip1 := r, chip2 := r, ram := [] } }

/-- At the origin, in SYNC. -/
def origin : State := cursorAt { cs := 0, col := 0, page := 0 }

/-- With a batch open and the box given. -/
def batchOf (left right top bottom : Byte) (s : State) : State :=
  { s with batch := 1, box := { left := left, right := right, top := top, bottom := bottom } }

/-- With the byte `v` in CACHE at `a`. -/
def holding (a : CacheAddr) (v : Byte) (s : State) : State := s.writeCache a v

/-- With a transaction on offer that the transport does not accept. -/
def stalled : State := { origin with transport := .stallsAfter 0, offer := some (.tx { cs := 0, dc := 0, b := 0xB8 }) }

/-- With these events ahead. -/
def planning (events : List HostEvent) (s : State) : State := { s with host := events }

/-- A RESET after which both receivers are live. -/
def resetNow (keepsWaiting : Bool) : HostEvent :=
  .reset { transport := .live, reader := .live, keepsWaiting := keepsWaiting }

/-- The TX words of a state. -/
def txWords (s : State) : List TxWord := s.tx.map Tx.word

/-! ### Ill-formed terms (30_encoding.md R64, R65, R71, R72) -/

theorem test_wf_z_field : ¬ CommandWord.WellFormed 0x120000 := by decide
theorem test_wf_opcode_zero : ¬ CommandWord.WellFormed 0x000000 := by decide
theorem test_wf_opcode_eight : ¬ CommandWord.WellFormed 0x800000 := by decide
theorem test_wf_unread_f : ¬ CommandWord.WellFormed 0x110000 := by decide
theorem test_wf_unread_b : ¬ CommandWord.WellFormed 0x200001 := by decide
theorem test_wf_unread_a : ¬ CommandWord.WellFormed 0x300100 := by decide
theorem test_wf_command_word : CommandWord.WellFormed 0x41C864 := by decide
theorem test_wf_gotoxy_x : AsmLine.wellFormed (.gotoxy 256 0) = false := by decide
theorem test_wf_gotoxy_y : AsmLine.wellFormed (.gotoxy 0 256) = false := by decide
theorem test_wf_wrdata_d : AsmLine.wellFormed (.wrdata 256 0) = false := by decide
theorem test_wf_wrdata_inv : AsmLine.wellFormed (.wrdata 0 2) = false := by decide
theorem test_wf_setpix_x : AsmLine.wellFormed (.setpix 256 0 0) = false := by decide
theorem test_wf_setpix_y : AsmLine.wellFormed (.setpix 0 256 0) = false := by decide
theorem test_wf_setpix_val : AsmLine.wellFormed (.setpix 0 0 2) = false := by decide
theorem test_wf_dwupdate_x : AsmLine.wellFormed (.dwupdate 256 0) = false := by decide
theorem test_wf_dwupdate_y : AsmLine.wellFormed (.dwupdate 0 256) = false := by decide
theorem test_wf_blit_empty : AsmLine.wellFormed (.blit []) = false := by decide
theorem test_wf_blit_byte : AsmLine.wellFormed (.blit [0, 256]) = false := by decide
theorem test_wf_fill_d : AsmLine.wellFormed (.fill 3 256) = false := by decide

/-! ### Decoding: words written out field by field, OP, Z, F, A, B (30_encoding.md R61, R63) -/

theorem test_decode_gotoxy : decode 0b0001_000_0_01000110_00010100 = .ok (.gotoxy 70 20) := by decide
theorem test_decode_wrdata : decode 0b0010_000_1_01111110_00000000 = .ok (.wrdata 0x7E 1) := by decide
theorem test_decode_rddata : decode 0b0011_000_0_00000000_00000000 = .ok .rddata := by decide
theorem test_decode_setpix : decode 0b0100_000_1_11001000_01100100 = .ok (.setpix 200 100 1) := by decide
theorem test_decode_dwstart : decode 0b0101_000_0_00000000_00000000 = .ok .dwstart := by decide
theorem test_decode_dwupdate : decode 0b0110_000_0_11001000_01100100 = .ok (.dwupdate 200 100) := by decide
theorem test_decode_dwend : decode 0b0111_000_0_00000000_00000000 = .ok .dwend := by decide
theorem test_decode_z_first : decode 0b1111_001_0_00000000_00000000 = .error (.zField 1) := by decide
theorem test_decode_table_word : decodeTableWord 24 0x217E00 = some (.wrdata 0x7E 1) := by decide
theorem test_decode_table_reserved : decodeTableWord 24 0x900000 = none := by decide

/-- The words of 42_setpixel.md R102, 43_coalescer.md R111, 41_cache_access.md R90. -/
theorem test_encode_words : encode (.setpix 63 63 1) = 0x413F3F ∧ encode (.dwupdate 3 40) = 0x600328 ∧
    encode (.wrdata 0 1) = 0x210000 := by decide

/-! ### The assembler (30_encoding.md R71, R72) -/

theorem test_parse_hex_and_comment :
    parseLine "  WRDATA 0x7E, 1   ; inverted" = some (.wrdata 0x7E 1) := by decide
theorem test_parse_blit : parseLine "BLIT 1, 0x02, 3" = some (.blit [1, 2, 3]) := by decide
theorem test_assemble_fill : assembleLine (.fill 3 0x55) = some [0x205500, 0x205500, 0x205500] := by decide
theorem test_asm_text : asmText (.setpix 200 100 1) = "SETPIX 200, 100, 1" := by decide

/-! ### One step per command, from the tables of the command rules -/

/-- 40_addressing.md R85, worked example. -/
theorem test_gotoxy_example : (after (.gotoxy 70 20) origin).cursor = { cs := 1, col := 6, page := 2, offset := 562 } ∧
    txWords (after (.gotoxy 70 20) origin) = [0x2BA, 0x246] := by decide

/-- R85, row 128, 63: x is clamped alone. -/
theorem test_gotoxy_clamps : (after (.gotoxy 128 63) origin).cursor = { cs := 0, col := 0, page := 7, offset := 7 } ∧
    txWords (after (.gotoxy 128 63) origin) = [0x0BF, 0x040] := by decide

/-- 41_cache_access.md R90, row `WRDATA 0x7E, 1`: the inverted byte is stored and sent. -/
theorem test_wrdata_inverts : txWords (after (.wrdata 0x7E 1) origin) = [0x181] ∧
    (after (.wrdata 0x7E 1) origin).readCache 0 = 0x81 ∧
    (after (.wrdata 0x7E 1) origin).cursor = { cs := 0, col := 1, page := 0, offset := 8 } := by decide

/-- R90, last row: the byte after the last byte of the display is the first. -/
theorem test_wrdata_wraps_to_origin :
    txWords (after (.wrdata 0xFF 0) (cursorAt { cs := 1, col := 63, page := 7 })) = [0x3FF, 0x0B8, 0x040] ∧
    (after (.wrdata 0xFF 0) (cursorAt { cs := 1, col := 63, page := 7 })).readCache 1023 = 0xFF ∧
    (after (.wrdata 0xFF 0) (cursorAt { cs := 1, col := 63, page := 7 })).cursor =
      { cs := 0, col := 0, page := 0, offset := 0 } := by decide

/-- 41_cache_access.md R91, worked example. -/
theorem test_rddata_example :
    (after .rddata (holding 562 0x10 (cursorAt { cs := 1, col := 6, page := 2 }))).rsp = [0x10] ∧
    (after .rddata (holding 562 0x10 (cursorAt { cs := 1, col := 6, page := 2 }))).cursor.offset = 562 := by decide

/-- 42_setpixel.md R102, row `SETPIX 63, 63, 1`, on a byte that was 0. -/
theorem test_setpix_immediate_wraps :
    txWords (after (.setpix 63 63 1) (holding 511 0 origin)) = [0x0BF, 0x07F, 0x0BF, 0x07F, 0x180, 0x2BF, 0x240] ∧
    (after (.setpix 63 63 1) (holding 511 0 origin)).cursor = { cs := 1, col := 0, page := 7, offset := 519 } := by
  decide

/-- 42_setpixel.md R103, row `SETPIX 70, 20, 1`, on a byte that was 0. -/
theorem test_setpix_deferred :
    (after (.setpix 70 20 1) (holding 562 0 (batchOf 10 10 10 10 origin))).readCache 562 = 0x10 ∧
    (after (.setpix 70 20 1) (holding 562 0 (batchOf 10 10 10 10 origin))).cursor =
      { cs := 1, col := 7, page := 2, offset := 570 } ∧
    (after (.setpix 70 20 1) (holding 562 0 (batchOf 10 10 10 10 origin))).box =
      { left := 10, right := 70, top := 10, bottom := 20 } := by decide

/-- 43_coalescer.md R110, corner case: with an empty box open, only the restoring GOTOXY. -/
theorem test_dwstart_closes_the_batch :
    txWords (after .dwstart (batchOf 127 0 63 0 (cursorAt { cs := 0, col := 5, page := 1 }))) = [0x0B9, 0x045] ∧
    (after .dwstart (batchOf 127 0 63 0 (cursorAt { cs := 0, col := 5, page := 1 }))).batch = 1 := by decide

/-- 43_coalescer.md R111, row `DWUPDATE 200, 100`: raw operands. -/
theorem test_dwupdate_raw : (after (.dwupdate 200 100) (batchOf 127 0 63 0 origin)).box =
    { left := 127, right := 200, top := 63, bottom := 100 } := by decide

/-- R111, row `DWUPDATE 5, 5` without a batch. -/
theorem test_dwupdate_without_batch : (after (.dwupdate 5 5) origin).box = origin.box := by decide

/-- 43_coalescer.md R112, worked example: seven transactions. -/
theorem test_dwend_one_byte :
    txWords (after .dwend (holding 1023 0x55 (batchOf 127 200 63 100 origin))) =
      [0x2BF, 0x27F, 0x355, 0x0B8, 0x040, 0x0B8, 0x040] ∧
    (after .dwend (holding 1023 0x55 (batchOf 127 200 63 100 origin))).box =
      { left := 127, right := 127, top := 63, bottom := 63 } ∧
    (after .dwend (holding 1023 0x55 (batchOf 127 200 63 100 origin))).batch = 0 := by decide

/-- The state a step leaves. -/
def stepped (s : State) : State :=
  match step s with
  | .next t => t
  | .fault _ => s
  | .refused _ => s

/-- 30_encoding.md R64: a reserved word is taken and nothing else changes. -/
theorem test_step_ignores_reserved :
    (stepped (planning [.command 0x920000] origin)).host = [] ∧
    (stepped (planning [.command 0x920000] origin)).cursor = origin.cursor ∧
    (stepped (planning [.command 0x920000] origin)).tx = [] := by decide

/-- 43_coalescer.md R111: the word placed for the next step runs straight after reset, and does nothing without a
batch; 43_coalescer.md R110: DWSTART's opens one. -/
theorem test_step_runs_placed_word :
    (stepped (State.reset.withFetchWord 24 0x60C864)).host = [] ∧
    (stepped (State.reset.withFetchWord 24 0x60C864)).box = State.reset.box ∧
    (stepped (State.reset.withFetchWord 24 0x500000)).batch = 1 := by decide

/-- 70_reset_and_hazards.md R140: RESET in a stall, with a batch open. -/
theorem test_reset_in_a_stall :
    (stepped (planning [resetNow false] (batchOf 0 1 0 1 stalled))).offer = none ∧
    (stepped (planning [resetNow false] (batchOf 0 1 0 1 stalled))).batch = 0 ∧
    (stepped (planning [resetNow false] (batchOf 0 1 0 1 stalled))).box =
      { left := 127, right := 0, top := 63, bottom := 0 } := by decide

/-- 70_reset_and_hazards.md R149: in a stall a RESET behind a waiting command is taken; the command is withdrawn or
kept, as the RESET says (log 20). -/
theorem test_reset_behind_a_waiting_command :
    (stepped (planning [.command 0x100000, resetNow false] stalled)).offer = none ∧
    (stepped (planning [.command 0x100000, resetNow false] stalled)).host = [] ∧
    (stepped (planning [.command 0x100000, resetNow true] stalled)).host = [.command 0x100000] := by decide

/-- 00_scope.md R6, 30_encoding.md R67: GOTOXY with other bases. -/
theorem test_gotoxy_with_other_bases :
    txWords (after (.gotoxy 70 20) { origin with params := { cmdPageBase := 0x80, cmdColBase := 0xC0 } }) =
      [0x282, 0x2C6] := by decide

/-- 60_exceptions.md R127: WRDATA stalled in its wrap has stored and moved, and offers "set page". -/
theorem test_wrdata_stalls_in_its_wrap :
    txWords (after (.wrdata 0xAA 0) { cursorAt { cs := 0, col := 63, page := 2 } with transport := .stallsAfter 1 }) =
      [0x1AA] ∧
    (after (.wrdata 0xAA 0) { cursorAt { cs := 0, col := 63, page := 2 } with transport := .stallsAfter 1 }).offer =
      some (.tx { cs := 1, dc := 0, b := 0xBA }) ∧
    (after (.wrdata 0xAA 0)
      { cursorAt { cs := 0, col := 63, page := 2 } with transport := .stallsAfter 1 }).cursor.offset = 514 := by
  decide

/-! ### Witnesses: states and operands that meet the hypotheses of the statements -/

theorem test_witness_DecodingIsTotalAndRoundTrips :
    (0x120000 : CommandWord).extractLsb' 17 3 ≠ 0 ∧ (0x100000 : CommandWord).extractLsb' 17 3 = 0 ∧
    (0x100000 : CommandWord).extractLsb' 20 4 = 0x1 ∧ (0x210000 : CommandWord).extractLsb' 20 4 = 0x2 ∧
    (0x300000 : CommandWord).extractLsb' 20 4 = 0x3 ∧ (0x400000 : CommandWord).extractLsb' 20 4 = 0x4 ∧
    (0x500000 : CommandWord).extractLsb' 20 4 = 0x5 ∧ (0x600000 : CommandWord).extractLsb' 20 4 = 0x6 ∧
    (0x70FFFF : CommandWord).extractLsb' 20 4 = 0x7 ∧ (8 : BitVec 4) ≤ (0x800000 : CommandWord).extractLsb' 20 4 ∧
    (0x000000 : CommandWord).extractLsb' 20 4 = 0 ∧ decode 0x70FFFF = .ok .dwend := by decide

theorem test_witness_ReservedWordsHaveNoCommand :
    CommandWord.Reserved 0x1E0000 ∧ fieldZ 0x1E0000 ≠ 0 ∧ fieldZ 0x800000 = 0 ∧ CommandWord.Reserved 0x800000 ∧
    fieldZ 0x000000 = 0 ∧ CommandWord.Reserved 0x000000 := by decide

theorem test_witness_UnreadFieldsAreIgnored :
    CommandWord.readMask 0x31FFFF = CommandWord.readMask 0x300000 ∧
    (0x31FFFF : CommandWord) &&& CommandWord.readMask 0x31FFFF = 0x300000 &&& CommandWord.readMask 0x300000 ∧
    (0x31FFFF : CommandWord) ≠ 0x300000 ∧ CommandWord.WellFormed 0x21FF00 ∧
    decode 0x21FF00 = .ok (.wrdata 0xFF 1) := by decide

/-- Operands at the ends of their ranges; the words are the numbers of 30_encoding.md R71 and R72. -/
theorem test_witness_AssembledLinesDecode :
    AsmLine.wellFormed (.setpix 255 255 1) = true ∧ AsmLine.wellFormed (.setpix 255 255 2) = false ∧
    assembleLine (.setpix 255 255 1) = some [0x41FFFF] ∧ ([0, 255] : List Nat) ≠ [] ∧
    (∀ b ∈ ([0, 255] : List Nat), b ≤ 255) ∧ assembleLine (.blit [0, 255]) = some [0x200000, 0x20FF00] := by decide

theorem test_witness_ResetIsTakenAtAnyTime :
    (planning [.command 0x100000, resetNow true] stalled).host =
      [0x100000].map .command ++ .reset { transport := .live, reader := .live, keepsWaiting := true } :: [] ∧
    ¬ (planning [.command 0x100000, resetNow true] stalled).Idle ∧
    (planning [.command 0x100000, resetNow true] stalled).offer = some (.tx { cs := 0, dc := 0, b := 0xB8 }) ∧
    (planning [resetNow false] origin).host =
      ([] : List CommandWord).map .command ++
        .reset { transport := .live, reader := .live, keepsWaiting := false } :: [] ∧
    (∀ x, (planning [resetNow false] origin).offer ≠ some (.tx x)) :=
  ⟨rfl, by decide, rfl, rfl, fun _ => nofun⟩

theorem test_witness_StepRunsTheDecodedCommand :
    (planning [.command 0x500000] origin).host = .command 0x500000 :: [] ∧
    (planning [.command 0x500000] origin).Idle ∧ decode 0x500000 = .ok .dwstart := by decide

theorem test_witness_ReservedWordIsIgnored :
    (planning [.command 0x0E0000] origin).host = .command 0x0E0000 :: [] ∧
    (planning [.command 0x0E0000] origin).Idle ∧ CommandWord.Reserved 0x0E0000 := by decide

theorem test_witness_BusyBlockTakesNoCommand :
    (planning [.command 0x700000] stalled).offer = some (.tx { cs := 0, dc := 0, b := 0xB8 }) ∧
    ∀ r, HostEvent.reset r ∉ (planning [.command 0x700000] stalled).host := ⟨rfl, fun _ => by simp [planning]⟩

/-- Both sides of the half's edge, and the last pixel. -/
theorem test_witness_CoordinatesAreClampedAndMapped :
    (63 : Byte).toNat ≤ 127 ∧ (64 : Byte).toNat ≤ 127 ∧ (127 : Byte).toNat ≤ 127 ∧ (63 : Byte).toNat ≤ 63 ∧
    canvasPos 63 7 = { cs := 0, col := 63, page := 0 } ∧ canvasPos 64 8 = { cs := 1, col := 0, page := 1 } ∧
    canvasPos 127 63 = { cs := 1, col := 63, page := 7 } := by decide

theorem test_witness_CacheAddressesAreABijection :
    cacheOffset { cs := 1, col := 63, page := 7 } = cacheOffset { cs := 1, col := 63, page := 7 } ∧
    (127 : Byte).toNat ≤ 127 ∧ (63 : Byte).toNat ≤ 63 ∧ (cacheOffset (canvasPos 127 63)).toNat = 1023 := by decide

theorem test_witness_NextVisitsEveryPositionOnce :
    ({ cs := 0, col := 62, page := 0 } : Pos).col.toNat < 63 ∧
    nextPos { cs := 0, col := 62, page := 0 } = { cs := 0, col := 63, page := 0 } ∧
    nextPos { cs := 0, col := 63, page := 2 } = { cs := 1, col := 0, page := 2 } ∧
    nextPos { cs := 1, col := 63, page := 2 } = { cs := 0, col := 0, page := 3 } ∧
    nextPos { cs := 1, col := 63, page := 7 } = { cs := 0, col := 0, page := 0 } := by decide

theorem test_witness_SetBitChangesOneBit : (7 : Nat) < 8 ∧ setBit 0x00 7 1 = 0x80 ∧ setBit 0xFF 0 0 = 0xFE := by decide

/-- The hypothesis of the statements for an idle block with the transport live, and that of well-formed parameters. -/
theorem test_witness_GotoxyMovesTheCursor :
    origin.Ready ∧ origin.params.Wf ∧ (0 : Bit) ≠ (after (.gotoxy 64 0) origin).cursor.cs := by decide

theorem test_witness_WrdataSendsStoresAndAdvances :
    (cursorAt { cs := 0, col := 62, page := 0 }).Ready ∧ (cursorAt { cs := 0, col := 62, page := 0 }).cursor.col < 63 ∧
    (cursorAt { cs := 0, col := 63, page := 2 }).cursor.col = 63 ∧ (cursorAt { cs := 0, col := 63, page := 2 }).cursor.cs = 0 ∧
    (cursorAt { cs := 1, col := 63, page := 7 }).cursor.col = 63 ∧
    (cursorAt { cs := 1, col := 63, page := 7 }).cursor.cs = 1 := by decide

theorem test_witness_RddataAnswersTheByteUnderTheCursor :
    origin.Idle ∧ origin.reader.accept = some .live ∧
    ({ origin with reader := .stallsAfter 1 } : State).reader.accept = some (.stallsAfter 0) := by decide

theorem test_witness_SetpixSetsOnePixel : origin.Ready ∧ (batchOf 127 0 63 0 origin).Ready ∧ (7 : Nat) < 8 := by decide

theorem test_witness_SetpixImmediateWritesThrough : origin.Ready ∧ origin.batch = 0 := by decide

theorem test_witness_SetpixDeferredStaysInTheCache :
    (batchOf 127 0 63 0 origin).Idle ∧ (batchOf 127 0 63 0 origin).batch = 1 := by decide

theorem test_witness_DwstartOpensABatch :
    origin.Idle ∧ origin.batch = 0 ∧ (batchOf 5 9 5 9 origin).Ready ∧ (batchOf 5 9 5 9 origin).batch = 1 := by decide

theorem test_witness_DwupdateWidensTheBox :
    origin.batch = 0 ∧ (batchOf 5 9 5 9 origin).Idle ∧ (batchOf 5 9 5 9 origin).batch = 1 := by decide

theorem test_witness_DwendFlushesTheBox :
    origin.batch = 0 ∧ (batchOf 127 200 63 100 origin).Ready ∧ (batchOf 127 200 63 100 origin).batch = 1 := by decide

/-- No batch; a degenerate box; a box over both halves' last columns. -/
theorem test_witness_DwendTransactionCount :
    origin.Ready ∧ origin.batch = 0 ∧ exec .dwend origin = .next (after .dwend origin) ∧
    (batchOf 127 0 63 0 origin).batch = 1 ∧ ¬ (after .dwend (batchOf 127 0 63 0 origin)).box.Nonempty ∧
    (batchOf 127 127 56 63 origin).batch = 1 ∧ (after .dwend (batchOf 127 127 56 63 origin)).box.Nonempty :=
  ⟨by decide, by decide, rfl, by decide, by decide, by decide, by decide⟩

/-- A batch with one dirty byte inside the box. -/
def oneDirty : State :=
  { holding 81 0x04 (batchOf 10 10 10 10 origin) with ghost := { valid := [0], dirty := [81] } }

theorem test_witness_FlushMakesTheDisplayShowTheCache :
    oneDirty.params.Wf ∧ oneDirty.Ready ∧ oneDirty.batch = 1 ∧ exec .dwend oneDirty = .next (after .dwend oneDirty) ∧
    exec .dwstart oneDirty = .next (after .dwstart oneDirty) ∧ oneDirty.box.clamp.Covers 81 ∧
    ¬ oneDirty.box.clamp.Covers 80 := ⟨by decide, by decide, by decide, rfl, rfl, by decide, by decide⟩

theorem test_witness_oneDirty_DirtyInv : oneDirty.DirtyInv := ⟨by decide, by decide⟩

/-- A state whose valid, clean byte is the same in CACHE and on the display. -/
def coherentState : State :=
  { oneDirty with cache := [(0, 0x11), (81, 0x04)], lcd := { origin.lcd with ram := [(0, 0x11)] } }

theorem test_witness_coherentState_Coherent : coherentState.Coherent := by
  intro a hv _
  have h : a.toNat = 0 := by simpa [coherentState, oneDirty] using hv
  rw [BitVec.eq_of_toNat_eq (y := 0) h]
  decide

theorem test_witness_FlushLeavesNothingDirty :
    coherentState.params.Wf ∧ coherentState.Ready ∧ coherentState.batch = 1 ∧ coherentState.DirtyInv ∧
    coherentState.Coherent ∧ exec .dwend coherentState = .next (after .dwend coherentState) ∧
    exec .dwstart coherentState = .next (after .dwstart coherentState) ∧
    (0 : CacheAddr).toNat ∈ (after .dwend coherentState).ghost.valid :=
  ⟨by decide, by decide, by decide, ⟨by decide, by decide⟩, test_witness_coherentState_Coherent, rfl, rfl, by decide⟩

theorem test_witness_CacheFrame :
    exec (.wrdata 1 0) origin = .next (after (.wrdata 1 0) origin) ∧ storeAddr (.wrdata 1 0) origin ≠ some 1 ∧
    exec (.setpix 0 0 1) origin = .next (after (.setpix 0 0 1) origin) ∧ storeAddr (.setpix 0 0 1) origin ≠ some 1 ∧
    storeAddr .dwend origin ≠ some 0 := ⟨rfl, by decide, rfl, by decide, by decide⟩

theorem test_witness_FrameOfCursorCommands :
    exec (.gotoxy 1 1) origin = .next (after (.gotoxy 1 1) origin) ∧
    exec (.wrdata 1 1) origin = .next (after (.wrdata 1 1) origin) ∧
    exec .rddata origin = .next (after .rddata origin) := ⟨rfl, rfl, rfl⟩

theorem test_witness_FrameOfSetpix :
    exec (.setpix 1 1 1) origin = .next (after (.setpix 1 1 1) origin) ∧ origin.batch = 0 ∧
    exec (.setpix 1 1 1) oneDirty = .next (after (.setpix 1 1 1) oneDirty) ∧ oneDirty.batch = 1 ∧
    (7 : Nat) < 8 ∧ (7 : Nat) ≠ (pixelBit 1).toNat := ⟨rfl, by decide, rfl, by decide, by decide, by decide⟩

theorem test_witness_FrameOfCoalescerCommands :
    exec (.dwupdate 1 1) oneDirty = .next (after (.dwupdate 1 1) oneDirty) ∧ origin.batch = 0 ∧
    exec .dwstart origin = .next (after .dwstart origin) ∧ exec .dwend origin = .next (after .dwend origin) :=
  ⟨rfl, by decide, rfl, rfl⟩

theorem test_witness_OnlyDwstartAndDwendWriteBatch :
    Instr.rddata ≠ .dwstart ∧ Instr.rddata ≠ .dwend ∧ exec .rddata origin = .next (after .rddata origin) ∧
    exec .dwstart oneDirty = .next (after .dwstart oneDirty) ∧ (after .dwstart oneDirty).Idle ∧
    exec .dwend oneDirty = .next (after .dwend oneDirty) ∧ (after .dwend oneDirty).Idle :=
  ⟨by decide, by decide, rfl, rfl, by decide, rfl, by decide⟩

/-- A host that does not take the response. -/
def unread : State := { origin with reader := .stallsAfter 0 }

theorem test_witness_OnlyRddataResponds :
    Instr.dwend ≠ .rddata ∧ exec .dwend origin = .next (after .dwend origin) ∧
    origin.Idle ∧ exec .rddata origin = .next (after .rddata origin) ∧ (after .rddata origin).Idle ∧
    unread.Idle ∧ exec .rddata unread = .next (after .rddata unread) ∧ (after .rddata unread).offer.isSome = true ∧
    ({ unread with offer := some (.rsp 0) } : State).offer = some (.rsp 0) :=
  ⟨by decide, rfl, by decide, rfl, by decide, by decide, rfl, by decide, rfl⟩

/-- An idle block with a command next; a stalled block with no RESET planned. -/
theorem test_witness_StreamsOnlyGrow :
    step (planning [.command 0x100000] origin) = .next (stepped (planning [.command 0x100000] origin)) ∧
    (∀ r rest, (planning [.command 0x100000] origin).host ≠ .reset r :: rest) ∧
    (planning [.command 0x100000] origin).Idle ∧
    step (planning [.command 0x100000] stalled) = .next (planning [.command 0x100000] stalled) ∧
    (∀ r rest, (planning [.command 0x100000] stalled).host ≠ .reset r :: rest) ∧
    ∀ r, HostEvent.reset r ∉ (planning [.command 0x100000] stalled).host :=
  ⟨rfl, fun _ _ => nofun, by decide, rfl, fun _ _ => nofun, fun _ => by simp [planning]⟩

/-- A state with a command to execute, for the invariants. -/
def aboutToFlush : State := planning [.command 0x700000] coherentState

theorem test_witness_RegisterInvariantsAreKept :
    aboutToFlush.RegisterInv ∧ step aboutToFlush = .next (stepped aboutToFlush) :=
  ⟨⟨rfl, by decide, by decide, by decide, by decide⟩, rfl⟩

theorem test_witness_MemoriesStayCanonical :
    aboutToFlush.MemoryInv ∧ step aboutToFlush = .next (stepped aboutToFlush) :=
  ⟨⟨by decide, by decide, by decide, by decide⟩, rfl⟩

/-- A WRDATA about to be taken under SYNC. -/
def aboutToWrite : State := planning [.command 0x207E00] { coherentState with batch := 0 }

theorem test_witness_CoherenceIsKept :
    aboutToWrite.params.Wf ∧ aboutToWrite.RegisterInv ∧ aboutToWrite.Coherent ∧
    step aboutToWrite = .next (stepped aboutToWrite) ∧ aboutToWrite.Idle ∧
    aboutToWrite.host = .command 0x207E00 :: [] ∧ decode 0x207E00 = .ok (.wrdata 0x7E 0) ∧ aboutToWrite.Sync :=
  ⟨by decide, ⟨rfl, by decide, by decide, by decide, by decide⟩, test_witness_coherentState_Coherent, rfl, by decide, rfl,
    by decide, by decide⟩

theorem test_witness_DirtyBytesStayCovered :
    aboutToFlush.params.Wf ∧ aboutToFlush.DirtyInv ∧ step aboutToFlush = .next (stepped aboutToFlush) :=
  ⟨by decide, ⟨by decide, by decide⟩, rfl⟩

/-- One transaction emitted, the second on offer. -/
theorem test_witness_EmittedCommandsAreSetPageOrSetColumn :
    ({ stalled with tx := [{ cs := 0, dc := 0, b := 0x7F }] } : State).TxKnown ∧
    step { stalled with tx := [{ cs := 0, dc := 0, b := 0x7F }] } =
      .next { stalled with tx := [{ cs := 0, dc := 0, b := 0x7F }] } := by
  refine ⟨⟨?_, ?_⟩, rfl⟩
  · intro t ht _
    rw [List.mem_singleton.mp ht]
    exact .inr ⟨63, by decide⟩
  · intro t ht _
    injection ht with ht
    injection ht with ht
    rw [← ht]
    exact .inl ⟨0, by decide⟩

theorem test_witness_SyncIsKeptInImmediateMode :
    origin.params.Wf ∧ oneDirty.params.Wf ∧ origin.batch = 0 ∧ origin.Sync ∧
    exec (.wrdata 1 0) origin = .next (after (.wrdata 1 0) origin) ∧
    (after (.wrdata 1 0) origin).Idle ∧ exec (.gotoxy 1 1) origin = .next (after (.gotoxy 1 1) origin) ∧
    (after (.gotoxy 1 1) origin).Idle ∧ exec (.setpix 1 1 1) origin = .next (after (.setpix 1 1 1) origin) ∧
    (after (.setpix 1 1 1) origin).Idle ∧ oneDirty.batch = 1 ∧
    exec .dwend oneDirty = .next (after .dwend oneDirty) ∧ (after .dwend oneDirty).Idle ∧
    exec .dwstart oneDirty = .next (after .dwstart oneDirty) ∧ (after .dwstart oneDirty).Idle ∧
    exec .rddata origin = .next (after .rddata origin) :=
  ⟨by decide, by decide, by decide, by decide, rfl, by decide, rfl, by decide, rfl, by decide, by decide, rfl, by decide,
    rfl, by decide, rfl⟩

theorem test_witness_SetpixModesAgree : origin.Ready ∧ origin.batch = 0 ∧ origin.params.Wf := by decide

theorem test_witness_SetThenClearOfAPixel : origin.Ready ∧ oneDirty.Ready := by decide

theorem test_witness_LcdAppliesATransaction :
    (1 : Bit) ≠ ({ cs := 0, dc := 0, b := 0xB8 } : Tx).cs ∧ Params.Wf { cmdPageBase := 0x80, cmdColBase := 0xC0 } ∧
    ¬ Params.Wf { cmdPageBase := 0xB8, cmdColBase := 0x80 } := by decide

/-- Under SYNC, and with SYNC lost. -/
theorem test_witness_WrdataUnderSyncWritesOneAddress :
    coherentState.Ready ∧ coherentState.params.Wf ∧ coherentState.Sync ∧
    coherentState.cursor = Cursor.ofPos coherentState.cursor.pos ∧
    coherentState.Coherent ∧
    ¬ ({ coherentState with cursor := Cursor.ofPos { cs := 0, col := 1, page := 0 } } : State).Sync :=
  ⟨by decide, by decide, by decide, rfl, test_witness_coherentState_Coherent, by decide⟩

theorem test_witness_WrittenByteIsReadBack :
    origin.Ready ∧ origin.reader = .live ∧ origin.cursor = Cursor.ofPos origin.cursor.pos := by decide

theorem test_witness_ClrallGivesAKnownDisplay :
    oneDirty.params.Wf ∧ oneDirty.Ready ∧ State.reset.params.Wf ∧ State.reset.Ready :=
  ⟨by decide, by decide, by decide, ⟨rfl, rfl⟩⟩

theorem test_witness_RunOfWrdataWalksTheDisplay :
    origin.Ready ∧ origin.cursor = Cursor.ofPos { cs := 0, col := 0, page := 0 } ∧
    ([(1, 0), (2, 1)] : List (Byte × Bit)).length ≤ 1024 ∧ ([(1, 0), (2, 1)] : List (Byte × Bit))[1]? = some (2, 1) ∧
    ∀ k < ([(1, 0), (2, 1)] : List (Byte × Bit)).length,
      (9 : CacheAddr) ≠ cacheOffset (nextPos^[k] { cs := 0, col := 0, page := 0 }) := by decide

theorem test_witness_BoxCoversTheBatch :
    oneDirty.Ready ∧ ([(70, 20, 1)] : List (Byte × Byte × Bit)) ≠ [] ∧
    (70, 20, 1) ∈ ([(70, 20, 1)] : List (Byte × Byte × Bit)) ∧
    (70, 20, some 1) ∈ ([(200, 3, none), (70, 20, some 1)] : List (Byte × Byte × Option Bit)) ∧
    ((70, 20, some 1) : Byte × Byte × Option Bit).2.2 ≠ none := by decide

theorem test_witness_BatchesDoNotNest : origin.Ready ∧ oneDirty.Ready := by decide

theorem test_witness_WideningMakesTheBoxNonDegenerate :
    aboutToFlush.RegisterInv ∧ aboutToFlush.Idle ∧ aboutToFlush.batch = 1 ∧
    exec (.dwupdate 127 63) aboutToFlush = .next (after (.dwupdate 127 63) aboutToFlush) ∧
    (127 : Byte).toNat ≤ 127 ∧ (63 : Byte).toNat ≤ 63 :=
  ⟨⟨rfl, by decide, by decide, by decide, by decide⟩, by decide, by decide, rfl, by decide, by decide⟩

/-- GOTOXY emits two transactions: with `n = 2` it completes, with `n = 1` it is cut at the second. -/
theorem test_witness_StallCutsTheCommandOff :
    origin.Idle ∧ origin.transport = .live ∧
    (after (.gotoxy 0 0) origin).tx = origin.tx ++ gotoTxs origin.params { cs := 0, col := 0, page := 0 } ∧
    (gotoTxs origin.params { cs := 0, col := 0, page := 0 }).length ≤ 2 ∧
    (gotoTxs origin.params { cs := 0, col := 0, page := 0 })[1]? =
      some (Tx.setCol origin.params { cs := 0, col := 0, page := 0 }) := by decide

/-- Each command at the ends of the range of its clause. -/
theorem test_witness_StalledCommandsStopBetweenLines :
    ({ origin with transport := .stallsAfter 0 } : State).Idle ∧
    ({ origin with transport := .stallsAfter 0 } : State).transport = .stallsAfter 0 ∧
    ({ origin with transport := .stallsAfter 1 } : State).transport = .stallsAfter 1 ∧
    ({ cursorAt { cs := 0, col := 63, page := 2 } with transport := .stallsAfter 1 } : State).transport =
      .stallsAfter (0 + 1) ∧
    ({ cursorAt { cs := 1, col := 63, page := 7 } with transport := .stallsAfter 2 } : State).transport =
      .stallsAfter (1 + 1) ∧
    ({ cursorAt { cs := 0, col := 63, page := 2 } with transport := .stallsAfter 1 } : State).cursor.col = 63 ∧
    ({ cursorAt { cs := 1, col := 63, page := 7 } with transport := .stallsAfter 2 } : State).cursor.col = 63 ∧
    ({ origin with transport := .stallsAfter 4 } : State).transport = .stallsAfter 4 ∧
    ({ origin with transport := .stallsAfter 4 } : State).batch = 0 := by decide

theorem test_witness_RepeatedCommands :
    origin.Idle ∧ origin.reader = .live ∧ origin.Ready ∧ exec .dwend oneDirty = .next (after .dwend oneDirty) ∧
    oneDirty.Ready ∧ oneDirty.batch = 1 ∧ exec (.setpix 1 1 1) oneDirty = .next (after (.setpix 1 1 1) oneDirty) ∧
    exec (.dwupdate 1 1) oneDirty = .next (after (.dwupdate 1 1) oneDirty) :=
  ⟨by decide, by decide, by decide, rfl, by decide, by decide, rfl, rfl⟩

/-- A batch whose flush the transport cuts off after `n` transactions. -/
def cutOff (n : Nat) : State := { oneDirty with transport := .stallsAfter n }

/-- Cut off at "set page", and at the data byte, in DWEND and in DWSTART. -/
theorem test_witness_StalledFlushStaysInTheBatch :
    (cutOff 0).Idle ∧ (cutOff 0).batch = 1 ∧ (cutOff 0).box.clamp.Nonempty ∧ (cutOff 0).transport = .stallsAfter 0 ∧
    exec .dwend (cutOff 0) = .next (after .dwend (cutOff 0)) ∧
    (after .dwend (cutOff 0)).offer = some (.tx { cs := 0, dc := 0, b := 0xB9 }) ∧
    exec .dwstart (cutOff 2) = .next (after .dwstart (cutOff 2)) ∧ (cutOff 2).Idle ∧ (cutOff 2).batch = 1 ∧
    (after .dwstart (cutOff 2)).offer = some (.tx { cs := 0, dc := 1, b := 0x04 }) :=
  ⟨by decide, by decide, by decide, rfl, rfl, by decide, rfl, by decide, by decide, by decide⟩

theorem test_witness_ParametersAreFixed :
    exec (.gotoxy 1 1) origin = .next (after (.gotoxy 1 1) origin) ∧
    step (planning [resetNow false] stalled) = .next (stepped (planning [resetNow false] stalled)) := ⟨rfl, rfl⟩

end Sys2Proof.Tests
end

section
/-! SUPPORT. The scope of the block: its parameters are fixed (00_scope.md R6), and an idle block executes the
host's next command word (00_scope.md R8, 30_encoding.md R60). -/

namespace Sys2Proof.Machine

/-! ### The parameters -/

@[simp] theorem State.respond_params (v : Byte) (s : State) : (s.respond v).params = s.params := by
  rcases s.respond_cases v with ⟨-, e⟩ | ⟨-, r, -, e⟩ | ⟨-, -, e⟩ <;> rw [e]

@[simp] theorem State.takeReset_params (r : ResetEvent) (s : State) : (s.takeReset r).params = s.params := rfl

theorem exec_params {i : Instr} {s t : State} (hx : exec i s = .next t) : t.params = s.params :=
  exec_keeps (P := fun u => u.params = s.params)
    (fun _ x y hi h => (gotoxy_sameRest hi x y).params.trans h)
    (fun _ d inv hi h => (wrdata_sameRest hi d inv).params.trans h)
    (fun u v _ h => (u.respond_params v).trans h)
    (fun _ x y val _ hb h => by rw [setpix_deferred hb x y val]; exact h)
    (fun u b h => (u.setBox_params b).trans h)
    (fun u b h => (u.setBatch_params b).trans h) rfl hx

theorem step_params {s t : State} (h : step s = .next t) : t.params = s.params := by
  rcases step_cases h with ⟨rfl, -⟩ | ⟨r, rest, -, rfl⟩ | ⟨w, rest, -, -, ⟨i, -, hx⟩ | ⟨r, -, rfl⟩⟩
  · rfl
  · exact State.takeReset_params r _
  · exact (exec_params hx).trans rfl
  · rfl

/-! ### The host's next command word -/

/-- An idle block whose host has a command next takes the word: no RESET is due before it. -/
theorem step_command {s : State} {w : CommandWord} {rest : List HostEvent} (hh : s.host = .command w :: rest)
    (hi : s.Idle) : step s = acceptWord w { s with host := rest } := by
  have hd : dueReset false (.command w :: rest) = none := dueReset_none (fun _ _ e => nomatch e) (.inl rfl)
  simp only [step, serve, hi, hh, Option.isSome_none, hd]

theorem acceptWord_ok {w : CommandWord} {i : Instr} (hd : decode w = .ok i) (s : State) :
    acceptWord w s = exec i s := by
  rw [acceptWord, hd]

/-! ### The obligations -/

/-- Settles O60: a command is carried through by `exec_keeps`, a step by the four cases of `step_cases`;
RESET is the one of them that builds its state from `State.reset`, and it puts the parameters back. -/
theorem parametersAreFixed : Obligations.ParametersAreFixed :=
  ⟨fun _ _ _ => exec_params, fun _ _ => step_params⟩

/-- Settles O10: the step accepts the word, and an accepted word that decodes is executed. -/
theorem stepRunsTheDecodedCommand : Obligations.StepRunsTheDecodedCommand :=
  fun _ _ _ _ hh hi hd => (step_command hh hi).trans (acceptWord_ok hd _)

end Sys2Proof.Machine
end

section
/-! SUPPORT. The registers (10_state.md R24 to R28, R35): what each command, completed or stalled, can do to the cursor
and to the box with BATCH, the invariants that this keeps, and the values after reset. -/

namespace Sys2Proof.Machine

/-! ### The bodies of the commands, completed or stalled -/

/-- What a command can answer: its body's state from an idle block, the same state from a blocked one. -/
theorem exec_cases {i : Instr} {s t : State} (hx : exec i s = .next t) :
    (s.Idle ∧ t = bodyOf i s) ∨ (¬ s.Idle ∧ t = s) := by
  rw [exec_eq] at hx
  injection hx with hx
  rcases s.andThen_cases (bodyOf i) with ⟨hi, e⟩ | ⟨o, ho, e⟩
  · exact .inl ⟨hi, hx.symm.trans e⟩
  · exact .inr ⟨by simp [State.Idle, ho], hx.symm.trans e⟩

theorem setpixImmediate_sameRest {s : State} (hi : s.Idle) (x y : Byte) (val : Bit) :
    SameRest s (setpixImmediate x y val s) :=
  setpixImmediate_keeps (fun _ x y hi h => h.trans (gotoxy_sameRest hi x y))
    (fun _ d inv hi h => h.trans (wrdata_sameRest hi d inv)) hi (.refl s) x y val

theorem setpix_immediate {s : State} (hb : s.batch = 0) (x y : Byte) (val : Bit) :
    setpix x y val s = setpixImmediate x y val s := by
  rw [setpix, if_pos hb]

theorem flushBox_sameRest (s : State) : SameRest s (flushBox s) :=
  flushBox_keeps (fun _ yy h => flushRow_keeps (fun _ x y hi h => h.trans (gotoxy_sameRest hi x y))
    (fun _ hi h => h.trans (wrdata_sameRest hi _ _)) h yy) (.refl s)

theorem dwupdate_noBatch {s : State} (hb : s.batch = 0) (x y : Byte) : dwupdate x y s = s :=
  if_neg (bit_ne_one.mpr hb)

theorem dwupdate_inBatch {s : State} (hb : s.batch = 1) (x y : Byte) :
    dwupdate x y s = s.setBox (s.box.widen x y) :=
  if_pos hb

theorem dwend_noBatch {s : State} (hb : s.batch = 0) : dwend s = s := if_neg (bit_ne_one.mpr hb)

/-- DWEND in a batch clears BATCH at its end, after a flush that touches of the other registers only the cursor. -/
theorem dwend_inBatch {s : State} (hb : s.batch = 1) :
    ∃ u, SameRest (s.setBox s.box.clamp) u ∧ dwend s = u.andThen (State.setBatch 0) := by
  refine ⟨(flushBox (s.setBox s.box.clamp)).andThen
    (gotoxy (logX s.cursor.cs s.cursor.col) (logY s.cursor.page)), ?_, if_pos hb⟩
  exact State.andThen_keeps (flushBox_sameRest _) fun hi h => h.trans (gotoxy_sameRest hi _ _)

theorem dwend_inBatch_box {s : State} (hb : s.batch = 1) : (dwend s).box = s.box.clamp := by
  obtain ⟨u, hu, e⟩ := dwend_inBatch hb
  rw [e]
  exact State.andThen_keeps (P := fun v => v.box = s.box.clamp) hu.box fun _ h => h

/-- DWSTART is DWEND, then the opening of a batch: without a batch DWEND does nothing. -/
theorem dwstart_eq (s : State) :
    dwstart s = (dwend s).andThen fun u => (u.setBox Box.empty).setBatch 1 := by
  rcases bit_cases s.batch with hb | hb
  · rw [dwstart, if_neg (bit_ne_one.mpr hb), dwend_noBatch hb]
  · rw [dwstart, if_pos hb]

/-! ### The cursor -/

@[simp] theorem State.emit_cursor (t : Tx) (s : State) : (s.emit t).cursor = s.cursor :=
  State.emit_keeps (P := fun u => u.cursor = s.cursor) rfl (fun _ => State.deliver_cursor _ _) rfl

/-- GOTOXY loads the cursor first: it is at the pixel's position even when a transaction stalls. -/
@[simp] theorem gotoxy_cursor (x y : Byte) (s : State) : (gotoxy x y s).cursor = Cursor.ofPos (pixelPos x y) :=
  (State.emit_cursor _ _).trans (State.emit_cursor _ _)

theorem advance_cursor (s : State) : (advance s).cursor = movedCursor s.cursor := by
  by_cases h : s.cursor.col < 63
  · rw [advance_fast h, movedCursor, if_pos h]
  · obtain ⟨x, y, e, hp⟩ := advance_wrap h
    rw [e, gotoxy_cursor, hp, movedCursor, if_neg h]

theorem wrdata_cursor {s : State} (hi : s.Idle) (d : Byte) (inv : Bit) :
    (wrdata d inv s).cursor = s.cursor ∨ (wrdata d inv s).cursor = movedCursor s.cursor := by
  rcases wrdata_cases hi d inv with ⟨-, e⟩ | ⟨r, -, e⟩ <;> rw [e]
  · exact .inl rfl
  · exact .inr (by rw [advance_cursor, stored_cursor])

/-- An answer on RSP concerns the RSP channel only: its bytes, its receiver, the word on offer (10_state.md R34). -/
theorem State.respond_eq (v : Byte) (s : State) :
    s.respond v = { s with
      rsp := (s.respond v).rsp, reader := (s.respond v).reader, offer := (s.respond v).offer } := by
  rcases s.respond_cases v with ⟨-, e⟩ | ⟨-, r, -, e⟩ | ⟨-, -, e⟩ <;> rw [e]

theorem State.respond_cursor (v : Byte) (s : State) : (s.respond v).cursor = s.cursor := by rw [State.respond_eq]
theorem State.respond_box (v : Byte) (s : State) : (s.respond v).box = s.box := by rw [State.respond_eq]
theorem State.respond_batch (v : Byte) (s : State) : (s.respond v).batch = s.batch := by rw [State.respond_eq]

/-- OFFSET is the offset of the cursor's position (10_state.md R28 item 2). -/
def Cursor.Tracked (c : Cursor) : Prop := c = Cursor.ofPos c.pos

theorem Cursor.tracked_ofPos (p : Pos) : (Cursor.ofPos p).Tracked := rfl

theorem Cursor.Tracked.moved {c : Cursor} (h : c.Tracked) : (movedCursor c).Tracked := by
  have e : movedCursor c = Cursor.ofPos (nextPos c.pos) := by rw [← movedCursor_ofPos, ← h]
  rw [e]
  exact Cursor.tracked_ofPos _

theorem exec_tracked {i : Instr} {s t : State} (hs : s.cursor.Tracked) (hx : exec i s = .next t) :
    t.cursor.Tracked := by
  refine exec_keeps (P := fun u => u.cursor.Tracked) (fun u x y _ _ => ?_) (fun u d inv hi h => ?_)
    (fun u v _ h => ?_) (fun u x y val _ hb _ => ?_) (fun _ _ h => h) (fun _ _ h => h) hs hx
  · rw [gotoxy_cursor]; exact Cursor.tracked_ofPos _
  · rcases wrdata_cursor hi d inv with e | e <;> rw [e]
    · exact h
    · exact h.moved
  · rw [State.respond_cursor]; exact h
  · rw [setpix_deferred hb]; exact Cursor.tracked_ofPos _

/-! ### The box under widening and clamp -/

theorem Box.widen_nonempty (b : Box) (x y : Byte) : (b.widen x y).Nonempty := by
  simp only [Box.Nonempty, Box.widen, BitVec.le_def, minByte_toNat, maxByte_toNat]
  omega

theorem Box.widen_left_le (b : Box) (x y : Byte) : (b.widen x y).left ≤ b.left := by
  rw [BitVec.le_def]
  exact (minByte_toNat b.left x).trans_le (Nat.min_le_left _ _)

theorem Box.widen_top_le (b : Box) (x y : Byte) : (b.widen x y).top ≤ b.top := by
  rw [BitVec.le_def]
  exact (minByte_toNat b.top y).trans_le (Nat.min_le_left _ _)

theorem Box.clamp_right_le (b : Box) : b.clamp.right ≤ 127 := by
  rw [BitVec.le_def]
  exact (minByte_toNat b.right 127).trans_le (Nat.min_le_right _ _)

theorem Box.clamp_bottom_le (b : Box) : b.clamp.bottom ≤ 63 := by
  rw [BitVec.le_def]
  exact (minByte_toNat b.bottom 63).trans_le (Nat.min_le_right _ _)

theorem Box.clamp_nonempty {b : Box} (hl : b.left ≤ 127) (ht : b.top ≤ 63) (h : b.Nonempty) :
    b.clamp.Nonempty := by
  simp only [Box.Nonempty, Box.clamp, BitVec.le_def, minByte_toNat] at *
  omega

theorem Box.clamp_empty : Box.empty.clamp = Box.empty := by decide

theorem Box.empty_degenerate : ¬ Box.empty.Nonempty := by decide

/-- Widened with a point of the canvas and clamped, the box covers the point's byte (43_coalescer.md R115). -/
theorem Box.clamp_widen_covers {b : Box} (hl : b.left ≤ 127) (ht : b.top ≤ 63) {x y : Byte}
    (hx : x.toNat ≤ 127) (hy : y.toNat ≤ 63) : (b.widen x y).clamp.Covers (cacheOffset (canvasPos x y)) := by
  have hcol : (addrX (cacheOffset (canvasPos x y))).toNat = x.toNat := by
    rw [addrX_cacheOffset, canvasPos_cs, canvasPos_col]; split <;> omega
  have hpage : (addrPage (cacheOffset (canvasPos x y))).toNat = y.toNat / 8 := by
    rw [addrPage_cacheOffset, canvasPos_page hy]
  have h127 : (127 : Byte).toNat = 127 := rfl
  have h63 : (63 : Byte).toNat = 63 := rfl
  simp only [Box.Covers, Box.Nonempty, Box.clamp, Box.widen, BitVec.le_def, shiftRight3_toNat, minByte_toNat,
    maxByte_toNat, hcol, hpage, h127, h63] at *
  omega

/-! ### The box and BATCH under a command -/

/-- What a command can do to BATCH and the box: leave both, widen the box of the batch, clamp it in a flush (which
leaves the batch open when it stalls), or open a batch with the empty box. -/
inductive BoxStep (s t : State) : Prop
  | kept (batch : t.batch = s.batch) (box : t.box = s.box)
  | widened (before : s.batch = 1) (after : t.batch = 1) (x y : Byte) (box : t.box = s.box.widen x y)
  | clamped (before : s.batch = 1) (box : t.box = s.box.clamp)
  | opened (after : t.batch = 1) (box : t.box = Box.empty)

/-- A command that performs no flush leaves BATCH, and at most widens the box of a batch. -/
theorem exec_outsideFlush {i : Instr} (hs : i ≠ .dwstart) (he : i ≠ .dwend) {s t : State} (hx : exec i s = .next t) :
    t.batch = s.batch ∧ (t.box = s.box ∨ s.batch = 1 ∧ ∃ x y, t.box = s.box.widen x y) := by
  rcases exec_cases hx with ⟨hi, rfl⟩ | ⟨-, rfl⟩
  swap
  · exact ⟨rfl, .inl rfl⟩
  cases i with
  | gotoxy x y => exact ⟨(gotoxy_sameRest hi x y).batch, .inl (gotoxy_sameRest hi x y).box⟩
  | wrdata d inv => exact ⟨(wrdata_sameRest hi d inv).batch, .inl (wrdata_sameRest hi d inv).box⟩
  | rddata => exact ⟨State.respond_batch _ s, .inl (State.respond_box _ s)⟩
  | setpix x y val =>
    simp only [bodyOf]
    rcases bit_cases s.batch with hb | hb
    · have h := setpixImmediate_sameRest hi x y val
      rw [setpix_immediate hb]; exact ⟨h.batch, .inl h.box⟩
    · rw [setpix_deferred hb]; exact ⟨rfl, .inr ⟨hb, _, _, rfl⟩⟩
  | dwstart => exact absurd rfl hs
  | dwupdate x y =>
    simp only [bodyOf]
    rcases bit_cases s.batch with hb | hb
    · rw [dwupdate_noBatch hb]; exact ⟨rfl, .inl rfl⟩
    · rw [dwupdate_inBatch hb]; exact ⟨rfl, .inr ⟨hb, x, y, rfl⟩⟩
  | dwend => exact absurd rfl he

theorem dwend_boxStep (s : State) : BoxStep s (dwend s) := by
  rcases bit_cases s.batch with hb | hb
  · rw [dwend_noBatch hb]; exact .kept rfl rfl
  · exact .clamped hb (dwend_inBatch_box hb)

theorem exec_boxStep {i : Instr} {s t : State} (hx : exec i s = .next t) : BoxStep s t := by
  by_cases hflush : i = .dwstart ∨ i = .dwend
  · rcases exec_cases hx with ⟨-, rfl⟩ | ⟨-, rfl⟩
    · rcases hflush with rfl | rfl
      · simp only [bodyOf, dwstart_eq]
        exact State.andThen_keeps (dwend_boxStep s) fun _ _ => .opened rfl rfl
      · exact dwend_boxStep s
    · exact .kept rfl rfl
  · obtain ⟨hs, he⟩ := not_or.mp hflush
    obtain ⟨hb, hbox | ⟨h1, x, y, hbox⟩⟩ := exec_outsideFlush hs he hx
    · exact .kept hb hbox
    · exact .widened h1 (hb.trans h1) x y hbox

/-! ### The obligations -/

/-- The part of the register invariants that speaks of the box and BATCH (10_state.md R28 items 3 to 5). -/
def State.BoxInv (s : State) : Prop :=
  s.box.left ≤ 127 ∧ s.box.top ≤ 63 ∧ (s.batch = 0 → s.box.right ≤ 127 ∧ s.box.bottom ≤ 63) ∧
    (s.box = Box.empty ∨ s.box.Nonempty)

theorem registerInv_iff (s : State) : s.RegisterInv ↔ s.cursor.Tracked ∧ s.BoxInv := Iff.rfl

theorem BoxStep.keeps_boxInv {s t : State} (h : BoxStep s t) (hs : s.BoxInv) : t.BoxInv := by
  obtain ⟨hl, htop, hedge, hne⟩ := hs
  unfold State.BoxInv
  cases h with
  | kept hb e => rw [hb, e]; exact ⟨hl, htop, hedge, hne⟩
  | widened _ hb x y e =>
    rw [e]
    exact ⟨BitVec.le_trans (Box.widen_left_le _ x y) hl, BitVec.le_trans (Box.widen_top_le _ x y) htop,
      fun h0 => absurd hb (bit_ne_one.mpr h0), .inr (Box.widen_nonempty _ x y)⟩
  | clamped _ e =>
    rw [e]
    refine ⟨hl, htop, fun _ => ⟨Box.clamp_right_le _, Box.clamp_bottom_le _⟩, ?_⟩
    rcases hne with he | hn
    · exact .inl (by rw [he, Box.clamp_empty])
    · exact .inr (Box.clamp_nonempty hl htop hn)
  | opened hb e => rw [hb, e]; decide

theorem exec_registerInv {i : Instr} {s t : State} (hs : s.RegisterInv) (hx : exec i s = .next t) :
    t.RegisterInv := by
  obtain ⟨hc, hb⟩ := (registerInv_iff s).mp hs
  exact (registerInv_iff t).mpr ⟨exec_tracked hc hx, (exec_boxStep hx).keeps_boxInv hb⟩

theorem reset_registerInv : State.reset.RegisterInv := ⟨rfl, by decide⟩

/-- Settles O38: a command keeps the cursor's part by `exec_tracked` and the box's by `exec_boxStep`; the other steps
wait, take a RESET or change the host's plan only. -/
theorem registerInvariantsAreKept : Obligations.RegisterInvariantsAreKept := by
  intro s t hs h
  rcases step_cases h with ⟨rfl, -⟩ | ⟨r, rest, -, rfl⟩ | ⟨w, rest, -, -, ⟨i, -, hx⟩ | ⟨r, -, rfl⟩⟩
  · exact hs
  · exact reset_registerInv
  · exact exec_registerInv (s := { s with host := rest }) hs hx
  · exact hs

/-- Settles O54: widening makes any box non-degenerate, and LEFT and TOP, on the canvas by the invariants, keep it
so under the clamp. -/
theorem wideningMakesTheBoxNonDegenerate : Obligations.WideningMakesTheBoxNonDegenerate := by
  refine ⟨Box.empty_degenerate, fun s t x y hs hi hb hx => ?_⟩
  obtain ⟨-, hl, htop, -⟩ := hs
  have hbox : t.box = s.box.widen x y := by
    rcases exec_cases hx with ⟨-, rfl⟩ | ⟨hn, -⟩
    · exact congrArg State.box (dwupdate_inBatch hb x y)
    · exact absurd hi hn
  have hne := Box.widen_nonempty s.box x y
  have hl' := BitVec.le_trans (Box.widen_left_le s.box x y) hl
  have htop' := BitVec.le_trans (Box.widen_top_le s.box x y) htop
  rw [hbox]
  exact ⟨hne, Box.clamp_nonempty hl' htop' hne, Box.clamp_widen_covers hl htop⟩

/-- Settles O8: the fields are the record's, and a read of the empty CACHE is the draw of reset number 0. -/
theorem resetLeavesTheStatedValues : Obligations.ResetLeavesTheStatedValues :=
  ⟨rfl, rfl, rfl, rfl, rfl, rfl, fun _ => rfl, rfl, rfl⟩

/-- Settles O43: after reset the box is `BOX_EMPTY`, and the invariants of the memories, of VALID, of DIRTY and of TX
speak of the elements of lists that are empty. -/
theorem invariantsHoldAtReset : Obligations.InvariantsHoldAtReset := by
  have hmem : State.reset.MemoryInv := ⟨by decide, by decide, by decide, by decide⟩
  have hcoh : State.reset.Coherent := fun _ hv => absurd hv List.not_mem_nil
  have hdirty : State.reset.DirtyInv := ⟨fun _ => rfl, fun _ hk => absurd hk List.not_mem_nil⟩
  have htx : State.reset.TxKnown := ⟨fun _ ht => absurd ht List.not_mem_nil, fun _ ho => nomatch ho⟩
  exact ⟨by decide, reset_registerInv, hmem, hcoh, hdirty, htx⟩

end Sys2Proof.Machine
end

section
/-! SUPPORT. Nothing of the display comes back (10_state.md R27, R31): what a command does to the block does not
depend on the LCD and on the proof devices, which every operation only writes. -/

namespace Sys2Proof.Machine

/-- Two machines that differ only in the LCD and in the proof devices. -/
def SameBlock (s t : State) : Prop := ∃ (d : Lcd) (g : Ghost), t = { s with lcd := d, ghost := g }

namespace SameBlock

variable {s t : State}

theorem params (h : SameBlock s t) : t.params = s.params := by obtain ⟨d, g, rfl⟩ := h; rfl
theorem cursor (h : SameBlock s t) : t.cursor = s.cursor := by obtain ⟨d, g, rfl⟩ := h; rfl
theorem box (h : SameBlock s t) : t.box = s.box := by obtain ⟨d, g, rfl⟩ := h; rfl
theorem batch (h : SameBlock s t) : t.batch = s.batch := by obtain ⟨d, g, rfl⟩ := h; rfl
theorem offer (h : SameBlock s t) : t.offer = s.offer := by obtain ⟨d, g, rfl⟩ := h; rfl
theorem transport (h : SameBlock s t) : t.transport = s.transport := by obtain ⟨d, g, rfl⟩ := h; rfl
theorem reader (h : SameBlock s t) : t.reader = s.reader := by obtain ⟨d, g, rfl⟩ := h; rfl
theorem readCache (h : SameBlock s t) : t.readCache = s.readCache := by obtain ⟨d, g, rfl⟩ := h; rfl

/-! ### The operations -/

theorem setBox (h : SameBlock s t) (b : Box) : SameBlock (s.setBox b) (t.setBox b) := by
  obtain ⟨d, g, rfl⟩ := h; exact ⟨d, g, rfl⟩

theorem setBatch (h : SameBlock s t) (b : Bit) : SameBlock (s.setBatch b) (t.setBatch b) := by
  obtain ⟨d, g, rfl⟩ := h; exact ⟨d, g, rfl⟩

theorem moveTo (h : SameBlock s t) (p : Pos) : SameBlock (s.moveTo p) (t.moveTo p) := by
  obtain ⟨d, g, rfl⟩ := h; exact ⟨d, g, rfl⟩

theorem writeCache (h : SameBlock s t) (a : CacheAddr) (v : Byte) :
    SameBlock (s.writeCache a v) (t.writeCache a v) := by
  obtain ⟨d, g, rfl⟩ := h; exact ⟨d, g, rfl⟩

/-- The two machines may clean different addresses: their LCDs stored the byte at different ones. -/
theorem markClean (h : SameBlock s t) (a a' : CacheAddr) (v : Byte) :
    SameBlock (s.markClean a v) (t.markClean a' v) := by
  obtain ⟨d, g, rfl⟩ := h; exact ⟨d, _, rfl⟩

theorem deliver (h : SameBlock s t) (x : Tx) : SameBlock (s.deliver x) (t.deliver x) := by
  obtain ⟨d, g, rfl⟩ := h
  unfold State.deliver
  dsimp only
  split <;> exact ⟨_, _, rfl⟩

/-- Sequencing looks at the word on offer, which the display has no part in. -/
theorem andThen {f f' : State → State} (h : SameBlock s t) (hf : SameBlock (f s) (f' t)) :
    SameBlock (s.andThen f) (t.andThen f') := by
  unfold State.andThen
  rw [h.offer]
  split
  · exact hf
  · exact h

theorem offerTx (h : SameBlock s t) (x : Tx) : SameBlock (s.offerTx x) (t.offerTx x) := by
  unfold State.offerTx
  rw [h.transport]
  obtain ⟨d, g, rfl⟩ := h
  split
  · exact deliver ⟨d, g, rfl⟩ x
  · exact ⟨d, g, rfl⟩

theorem emit (h : SameBlock s t) (x : Tx) : SameBlock (s.emit x) (t.emit x) := h.andThen (h.offerTx x)

theorem offerRsp (h : SameBlock s t) (v : Byte) : SameBlock (s.offerRsp v) (t.offerRsp v) := by
  unfold State.offerRsp
  rw [h.reader]
  obtain ⟨d, g, rfl⟩ := h
  split <;> exact ⟨d, g, rfl⟩

theorem respond (h : SameBlock s t) (v : Byte) : SameBlock (s.respond v) (t.respond v) := h.andThen (h.offerRsp v)

/-! ### The bodies of the commands -/

theorem gotoxy (h : SameBlock s t) (x y : Byte) : SameBlock (gotoxy x y s) (gotoxy x y t) := by
  unfold Machine.gotoxy
  rw [h.params]
  exact ((h.moveTo _).emit _).emit _

theorem advance (h : SameBlock s t) : SameBlock (advance s) (advance t) := by
  unfold Machine.advance
  rw [h.cursor]
  dsimp only
  split
  · obtain ⟨d, g, rfl⟩ := h; exact ⟨d, g, rfl⟩
  · split <;> exact h.gotoxy _ _

theorem wrdata (h : SameBlock s t) (d : Byte) (inv : Bit) : SameBlock (wrdata d inv s) (wrdata d inv t) := by
  have he := h.emit (Tx.data s.cursor.cs (dataByte d inv))
  unfold Machine.wrdata
  dsimp only
  rw [h.cursor]
  refine he.andThen ?_
  rw [he.cursor]
  exact ((he.writeCache _ _).markClean _ _ _).advance

theorem rddata (h : SameBlock s t) : SameBlock (rddata s) (rddata t) := by
  unfold Machine.rddata
  rw [h.readCache, h.cursor]
  exact h.respond _

theorem setpix (h : SameBlock s t) (x y : Byte) (val : Bit) : SameBlock (setpix x y val s) (setpix x y val t) := by
  rcases bit_cases s.batch with hb | hb
  · have h1 := h.gotoxy (clampX x) (clampY y)
    have h2 := h1.gotoxy (clampX x) (clampY y)
    rw [setpix_immediate hb, setpix_immediate (h.batch.trans hb)]
    unfold setpixImmediate
    refine h1.andThen ?_
    rw [h1.readCache, h1.cursor]
    exact h2.andThen (h2.wrdata _ _)
  · rw [setpix_deferred hb, setpix_deferred (h.batch.trans hb), h.readCache]
    obtain ⟨d, g, rfl⟩ := h
    exact ⟨_, _, rfl⟩

theorem flushBytes (n : Nat) : ∀ {s t : State}, SameBlock s t → SameBlock (flushBytes n s) (flushBytes n t) := by
  induction n with
  | zero => exact fun h => h
  | succ n ih =>
    intro s t h
    refine ih (h.andThen ?_)
    rw [h.readCache, h.cursor]
    exact h.wrdata _ _

theorem flushRow (h : SameBlock s t) (yy : Byte) : SameBlock (flushRow yy s) (flushRow yy t) := by
  unfold Machine.flushRow
  rw [h.box]
  have hg := h.andThen (h.gotoxy s.box.left yy)
  refine hg.andThen ?_
  rw [hg.box]
  exact flushBytes _ hg

theorem flushRows (fuel : Nat) :
    ∀ {s t : State} (yy : Byte), SameBlock s t → SameBlock (flushRows fuel yy s) (flushRows fuel yy t) := by
  induction fuel with
  | zero => exact fun _ h => h
  | succ fuel ih =>
    intro s t yy h
    unfold Machine.flushRows
    rw [h.box]
    split
    · exact ih _ (h.flushRow yy)
    · exact h

theorem flushBox (h : SameBlock s t) : SameBlock (flushBox s) (flushBox t) := by
  unfold Machine.flushBox
  rw [h.box]
  split
  · exact flushRows 8 _ h
  · exact h

theorem dwupdate (h : SameBlock s t) (x y : Byte) : SameBlock (dwupdate x y s) (dwupdate x y t) := by
  unfold Machine.dwupdate State.InBatch
  rw [h.batch, h.box]
  split
  · exact h.setBox _
  · exact h

theorem dwend (h : SameBlock s t) : SameBlock (dwend s) (dwend t) := by
  unfold Machine.dwend State.InBatch
  rw [h.batch, h.box, h.cursor]
  split
  · have hf := (h.setBox s.box.clamp).flushBox
    have hg := hf.andThen (hf.gotoxy (logX s.cursor.cs s.cursor.col) (logY s.cursor.page))
    exact hg.andThen (hg.setBatch 0)
  · exact h

theorem dwstart (h : SameBlock s t) : SameBlock (dwstart s) (dwstart t) := by
  rw [dwstart_eq, dwstart_eq]
  exact h.dwend.andThen ((h.dwend.setBox _).setBatch _)

theorem bodyOf (h : SameBlock s t) (i : Instr) : SameBlock (bodyOf i s) (bodyOf i t) := by
  cases i with
  | gotoxy x y => exact h.gotoxy x y
  | wrdata d inv => exact h.wrdata d inv
  | rddata => exact h.rddata
  | setpix x y val => exact h.setpix x y val
  | dwstart => exact h.dwstart
  | dwupdate x y => exact h.dwupdate x y
  | dwend => exact h.dwend

end SameBlock

/-- Settles O57: two machines that differ in the display only still do so after any command (`SameBlock.bodyOf`). -/
theorem theDisplayIsNeverReadBack : Obligations.TheDisplayIsNeverReadBack := by
  intro i s d g
  have h : SameBlock s { s with lcd := d, ghost := g } := ⟨d, g, rfl⟩
  obtain ⟨d', g', e⟩ := h.andThen (h.bodyOf i)
  exact ⟨_, _, exec_eq i s, exec_eq i _, by rw [e]⟩

end Sys2Proof.Machine
end

section
/-! SUPPORT. The frames (10_state.md R34), of completed and of stalled commands, and the streams (R31): what each
command leaves unchanged, which bytes of CACHE it can change, and that TX and RSP only grow. -/

namespace Sys2Proof.Machine

/-! ### CACHE -/

theorem gotoxy_readCache {s : State} (hi : s.Idle) (x y : Byte) (a : CacheAddr) :
    (gotoxy x y s).readCache a = s.readCache a :=
  State.readCache_congr (gotoxy_memories hi x y).1 (gotoxy_sameRest hi x y).resets a

theorem setBit_getLsbD_other {i : BitVec 3} {j : Nat} (hj : j < 8) (h : j ≠ i.toNat) (b : Byte) (val : Bit) :
    (setBit b i val).getLsbD j = b.getLsbD j := by
  have hmask : ((1 : Byte) <<< i.toNat).getLsbD j = false := by
    simp; omega
  unfold setBit
  split
  · rw [BitVec.getLsbD_or, hmask, Bool.or_false]
  · rw [BitVec.getLsbD_and, BitVec.getLsbD_not, hmask, decide_eq_true hj]; simp

/-- Immediate SETPIX leaves CACHE as it reads, or stores the changed byte at the pixel's address. -/
theorem setpixImmediate_reads {s : State} (hi : s.Idle) (x y : Byte) (val : Bit) :
    (∀ a, (setpixImmediate x y val s).readCache a = s.readCache a) ∨
      ∀ a, (setpixImmediate x y val s).readCache a =
        if a = pixelAddr x y then setBit (s.readCache a) (pixelBit y) val else s.readCache a := by
  unfold setpixImmediate
  dsimp only
  rw [gotoxy_clamp]
  have hu : ∀ a, (gotoxy x y s).readCache a = s.readCache a := gotoxy_readCache hi x y
  rcases (gotoxy x y s).andThen_cases _ with ⟨hi₁, e₁⟩ | ⟨o, -, e₁⟩ <;> rw [e₁]
  swap
  · exact .inl hu
  have hv : ∀ a, (gotoxy x y (gotoxy x y s)).readCache a = s.readCache a := fun a =>
    (gotoxy_readCache hi₁ x y a).trans (hu a)
  rw [gotoxy_clamp]
  rcases (gotoxy x y (gotoxy x y s)).andThen_cases _ with ⟨hi₂, e₂⟩ | ⟨o, -, e₂⟩ <;> rw [e₂]
  swap
  · exact .inl hv
  have hoff : (gotoxy x y (gotoxy x y s)).cursor.offset = pixelAddr x y := by rw [gotoxy_cursor]; rfl
  rcases wrdata_reads hi₂ (setBit ((gotoxy x y s).readCache (gotoxy x y s).cursor.offset) (pixelBit y) val) 0 with
    h | h
  · exact .inl fun a => (h a).trans (hv a)
  · refine .inr fun a => ?_
    rw [h a, hoff, hv a, hu, gotoxy_cursor]
    split
    · subst_vars; rfl
    · rfl

/-- The byte SETPIX stores, if it stores, and that it stores at the pixel's address only, in both modes. -/
theorem setpix_reads {s : State} (hi : s.Idle) (x y : Byte) (val : Bit) :
    (∀ a, (setpix x y val s).readCache a = s.readCache a) ∨
      ∀ a, (setpix x y val s).readCache a =
        if a = pixelAddr x y then setBit (s.readCache a) (pixelBit y) val else s.readCache a := by
  rcases bit_cases s.batch with hb | hb
  · rw [setpix_immediate hb]
    exact setpixImmediate_reads hi x y val
  · refine .inr fun a => ?_
    have e : (setpix x y val s).readCache a =
        (s.writeCache (pixelAddr x y) (setBit (s.readCache (pixelAddr x y)) (pixelBit y) val)).readCache a := by
      rw [setpix_deferred hb]; rfl
    rw [e, State.readCache_writeCache]
    split
    · subst_vars; rfl
    · rfl

theorem State.respond_readCache (v : Byte) (s : State) (a : CacheAddr) :
    (s.respond v).readCache a = s.readCache a := by
  rw [State.respond_eq]; rfl

theorem dwupdate_readCache (x y : Byte) (s : State) (a : CacheAddr) :
    (dwupdate x y s).readCache a = s.readCache a := by
  unfold dwupdate
  split <;> rfl

theorem dwstart_readCache (s : State) (a : CacheAddr) : (dwstart s).readCache a = s.readCache a := by
  rw [dwstart_eq]
  exact State.andThen_keeps (P := fun u => u.readCache a = s.readCache a) (dwend_readCache s a) fun _ h => h

/-- Settles O31: WRDATA and SETPIX read elsewhere as before (`wrdata_reads`, `setpix_reads`), and a flush stores only
what CACHE already reads as (`dwend_readCache`). -/
theorem cacheFrame : Obligations.CacheFrame := by
  intro i s t hx a ha
  rcases exec_cases hx with ⟨hi, rfl⟩ | ⟨-, rfl⟩
  swap
  · rfl
  cases i with
  | gotoxy x y => exact gotoxy_readCache hi x y a
  | wrdata d inv =>
    have hne : a ≠ s.cursor.offset := fun e => ha (congrArg some e.symm)
    rcases wrdata_reads hi d inv with h | h
    · exact h a
    · exact (h a).trans (if_neg hne)
  | rddata => exact State.respond_readCache _ s a
  | setpix x y val =>
    have hne : a ≠ pixelAddr x y := fun e => ha (congrArg some e.symm)
    rcases setpix_reads hi x y val with h | h
    · exact h a
    · exact (h a).trans (if_neg hne)
  | dwstart => exact dwstart_readCache s a
  | dwupdate x y => exact dwupdate_readCache x y s a
  | dwend => exact dwend_readCache s a

/-! ### The registers and the channels -/

/-- Settles O32: by `gotoxy_sameRest` with `gotoxy_memories`, `wrdata_sameRest` and `State.respond_eq`. -/
theorem frameOfCursorCommands : Obligations.FrameOfCursorCommands := by
  refine ⟨fun s t x y hx => ?_, fun s t d inv hx => ?_, fun s t hx => ?_⟩ <;>
    rcases exec_cases hx with ⟨hi, rfl⟩ | ⟨-, rfl⟩
  · have h := gotoxy_sameRest hi x y
    obtain ⟨hcache, hram, hghost⟩ := gotoxy_memories hi x y
    exact ⟨h.params, hcache, h.box, h.batch, h.rsp, h.reader, h.host, h.resets, hghost, hram⟩
  · exact ⟨rfl, rfl, rfl, rfl, rfl, rfl, rfl, rfl, rfl, rfl⟩
  · have h := wrdata_sameRest hi d inv
    exact ⟨h.params, h.box, h.batch, h.rsp, h.reader, h.host, h.resets⟩
  · exact ⟨rfl, rfl, rfl, rfl, rfl, rfl, rfl⟩
  · simp only [bodyOf, rddata]
    rw [State.respond_eq]
    exact ⟨rfl, rfl, rfl, rfl, rfl, rfl, rfl, rfl, rfl, rfl, rfl⟩
  · exact ⟨rfl, rfl, rfl, rfl, rfl, rfl, rfl, rfl, rfl, rfl, rfl⟩

/-- Settles O33: immediate SETPIX is GOTOXYs and a WRDATA, deferred SETPIX one update of the state, and `setBit`
changes one bit of the byte that is stored. -/
theorem frameOfSetpix : Obligations.FrameOfSetpix := by
  intro s t x y val hx
  rcases exec_cases hx with ⟨hi, rfl⟩ | ⟨-, rfl⟩
  swap
  · exact ⟨rfl, rfl, rfl, rfl, rfl, rfl, fun _ => rfl, fun _ => ⟨rfl, rfl, rfl, rfl, rfl⟩, fun _ _ _ => rfl⟩
  simp only [bodyOf]
  have hbits : ∀ j < 8, j ≠ (pixelBit y).toNat →
      ((setpix x y val s).readCache (pixelAddr x y)).getLsbD j = (s.readCache (pixelAddr x y)).getLsbD j := by
    intro j hj hne
    rcases setpix_reads hi x y val with h | h <;> rw [h]
    rw [if_pos rfl, setBit_getLsbD_other hj hne]
  rcases bit_cases s.batch with hb | hb
  · have h : SameRest s (setpix x y val s) := by
      rw [setpix_immediate hb]; exact setpixImmediate_sameRest hi x y val
    exact ⟨h.params, h.batch, h.rsp, h.reader, h.host, h.resets, fun _ => h.box,
      fun h1 => absurd h1 (bit_ne_one.mpr hb), hbits⟩
  · refine ⟨?_, ?_, ?_, ?_, ?_, ?_, fun h0 => absurd h0 (bit_ne_zero.mpr hb), fun _ => ?_, hbits⟩ <;>
      rw [setpix_deferred hb]
    exact ⟨rfl, rfl, rfl, rfl, rfl⟩

/-- DWEND, completed or stalled: of the fields no GOTOXY, no WRDATA and no flush touches it changes the box and
BATCH only. -/
theorem dwend_frame (s : State) :
    SameRest { s with box := (dwend s).box, batch := (dwend s).batch } (dwend s) := by
  rcases bit_cases s.batch with hb | hb
  · rw [dwend_noBatch hb]; exact .refl s
  · obtain ⟨u, hu, e⟩ := dwend_inBatch hb
    rw [e]
    rcases u.andThen_cases (State.setBatch 0) with ⟨-, e'⟩ | ⟨o, -, e'⟩ <;> rw [e'] <;>
      exact ⟨hu.params, rfl, rfl, hu.resets, hu.rsp, hu.host, hu.reader⟩

theorem dwstart_frame (s : State) :
    SameRest { s with box := (dwstart s).box, batch := (dwstart s).batch } (dwstart s) := by
  have h := dwend_frame s
  rw [dwstart_eq]
  rcases (dwend s).andThen_cases (fun u => (u.setBox Box.empty).setBatch 1) with ⟨-, e⟩ | ⟨o, -, e⟩ <;>
    rw [e] <;> exact ⟨h.params, rfl, rfl, h.resets, h.rsp, h.host, h.reader⟩

theorem dwstart_noBatch {s : State} (hi : s.Idle) (hb : s.batch = 0) :
    dwstart s = (s.setBox Box.empty).setBatch 1 := by
  rw [dwstart_eq, dwend_noBatch hb, State.andThen_idle hi]

/-- The clamp of DWEND leaves LEFT and TOP. -/
theorem dwend_left_top (s : State) : (dwend s).box.left = s.box.left ∧ (dwend s).box.top = s.box.top := by
  rcases bit_cases s.batch with hb | hb
  · rw [dwend_noBatch hb]; exact ⟨rfl, rfl⟩
  · rw [dwend_inBatch_box hb]; exact ⟨rfl, rfl⟩

/-- Settles O34: by the frames of DWSTART and DWEND; DWUPDATE is `setBox` or nothing. -/
theorem frameOfCoalescerCommands : Obligations.FrameOfCoalescerCommands := by
  refine ⟨fun s t x y hx => ?_, fun s t hx => ?_, fun s t hx => ?_⟩ <;>
    rcases exec_cases hx with ⟨hi, rfl⟩ | ⟨-, rfl⟩
  · simp only [bodyOf]
    rcases bit_cases s.batch with hb | hb
    · rw [dwupdate_noBatch hb]; exact ⟨rfl, fun _ => rfl⟩
    · rw [dwupdate_inBatch hb]; exact ⟨rfl, fun h0 => absurd h0 (bit_ne_zero.mpr hb)⟩
  · exact ⟨rfl, fun _ => rfl⟩
  · have h := dwstart_frame s
    refine ⟨h.params, h.rsp, h.reader, h.host, h.resets, fun hb => ?_⟩
    simp only [bodyOf, dwstart_noBatch hi hb]
    rfl
  · exact ⟨rfl, rfl, rfl, rfl, rfl, fun _ => rfl⟩
  · have h := dwend_frame s
    obtain ⟨hl, ht⟩ := dwend_left_top s
    exact ⟨h.params, hl, ht, h.rsp, h.reader, h.host, h.resets, fun hb => dwend_noBatch hb⟩
  · exact ⟨rfl, rfl, rfl, rfl, rfl, rfl, rfl, fun _ => rfl⟩

/-- A DWEND that completes leaves no batch. -/
theorem dwend_completes_batch {s : State} (hi : (dwend s).Idle) : (dwend s).batch = 0 := by
  rcases bit_cases s.batch with hb | hb
  · rw [dwend_noBatch hb]; exact hb
  · obtain ⟨u, -, e⟩ := dwend_inBatch hb
    rw [e] at hi ⊢
    rcases u.andThen_cases (State.setBatch 0) with ⟨-, e'⟩ | ⟨o, ho, e'⟩ <;> rw [e'] at hi ⊢
    · rfl
    · exact absurd (ho.symm.trans hi) nofun

/-- A DWSTART that completes leaves a batch open. -/
theorem dwstart_completes_batch {s : State} (hi : (dwstart s).Idle) : (dwstart s).batch = 1 := by
  rw [dwstart_eq] at hi ⊢
  rcases (dwend s).andThen_cases (fun u => (u.setBox Box.empty).setBatch 1) with ⟨-, e⟩ | ⟨o, ho, e⟩ <;>
    rw [e] at hi ⊢
  · rfl
  · exact absurd (ho.symm.trans hi) nofun

/-- Settles O35: no command but DWSTART and DWEND flushes (`exec_outsideFlush`), and those two write BATCH last. -/
theorem onlyDwstartAndDwendWriteBatch : Obligations.OnlyDwstartAndDwendWriteBatch := by
  refine ⟨fun i s t hs he hx => (exec_outsideFlush hs he hx).1, fun s t hx ht => ?_, fun s t hx ht => ?_⟩ <;>
    rcases exec_cases hx with ⟨-, rfl⟩ | ⟨hn, rfl⟩
  · exact dwstart_completes_batch ht
  · exact absurd ht hn
  · exact dwend_completes_batch ht
  · exact absurd ht hn

/-! ### The streams -/

/-- From `s` to `t` the TX stream and the RSP history only grew. -/
def StreamsGrow (s t : State) : Prop := s.tx <+: t.tx ∧ s.rsp <+: t.rsp

theorem StreamsGrow.refl (s : State) : StreamsGrow s s := ⟨List.prefix_rfl, List.prefix_rfl⟩

theorem StreamsGrow.trans {s t u : State} (h : StreamsGrow s t) (g : StreamsGrow t u) : StreamsGrow s u :=
  ⟨h.1.trans g.1, h.2.trans g.2⟩

theorem State.emit_streamsGrow (t : Tx) (s : State) : StreamsGrow s (s.emit t) :=
  State.emit_keeps (.refl s) (fun r => by simp [StreamsGrow]) (.refl s)

theorem gotoxy_streamsGrow (x y : Byte) (s : State) : StreamsGrow s (gotoxy x y s) :=
  (State.emit_streamsGrow _ (s.moveTo (pixelPos x y))).trans (State.emit_streamsGrow _ _)

theorem advance_streamsGrow (s : State) : StreamsGrow s (advance s) := by
  rcases advance_cases s with ⟨-, e⟩ | ⟨-, x, y, e, -⟩ <;> rw [e]
  · exact .refl s
  · exact gotoxy_streamsGrow x y s

theorem stored_streamsGrow (v : Byte) (s : State) : StreamsGrow s (stored v s) := by
  simp [StreamsGrow, stored]

theorem wrdata_streamsGrow {s : State} (hi : s.Idle) (d : Byte) (inv : Bit) : StreamsGrow s (wrdata d inv s) := by
  rcases wrdata_cases hi d inv with ⟨-, e⟩ | ⟨r, -, e⟩ <;> rw [e]
  · exact .refl s
  · have h : StreamsGrow s { s with transport := r } := .refl s
    exact (h.trans (stored_streamsGrow _ _)).trans (advance_streamsGrow _)

theorem State.respond_streamsGrow (v : Byte) (s : State) : StreamsGrow s (s.respond v) := by
  rcases s.respond_cases v with ⟨-, e⟩ | ⟨-, r, -, e⟩ | ⟨-, -, e⟩ <;> rw [e]
  · exact .refl s
  · exact ⟨List.prefix_rfl, List.prefix_append _ _⟩
  · exact .refl s

theorem exec_streamsGrow {i : Instr} {s t : State} (hx : exec i s = .next t) : StreamsGrow s t :=
  exec_keeps (P := StreamsGrow s) (fun u x y _ h => h.trans (gotoxy_streamsGrow x y u))
    (fun _ d inv hi h => h.trans (wrdata_streamsGrow hi d inv)) (fun u v _ h => h.trans (State.respond_streamsGrow v u))
    (fun u x y val _ hb h => by rw [setpix_deferred hb]; exact h) (fun _ _ h => h) (fun _ _ h => h) (.refl s) hx

/-- Settles O37: no RESET is due (`dueReset_none`), and every command only appends (`exec_streamsGrow`). -/
theorem streamsOnlyGrow : Obligations.StreamsOnlyGrow := by
  intro s t h hhost hbusy
  have hdue : dueReset s.offer.isSome s.host = none :=
    dueReset_none hhost (hbusy.imp_left fun hi => by rw [hi]; rfl)
  rcases step_cases h with ⟨rfl, -⟩ | ⟨r, rest, hr, -⟩ | ⟨w, rest, -, -, ⟨i, -, hx⟩ | ⟨r, -, rfl⟩⟩
  · exact StreamsGrow.refl t
  · exact absurd (hdue.symm.trans hr) nofun
  · exact exec_streamsGrow (s := { s with host := rest }) hx
  · exact StreamsGrow.refl s

end Sys2Proof.Machine
end

section
/-! SUPPORT. The memories (20_memory.md): positions and addresses (R41), the LCD behind the transport (R47), the
canonical form of CACHE, display RAM, VALID and DIRTY, and COHERENT (R49) under every step, stalls and RESET among
them. -/

namespace Sys2Proof.Machine

/-! ### Positions and addresses -/

theorem cacheOffset_canvasPos {x y : Byte} (hx : x.toNat ≤ 127) (hy : y.toNat ≤ 63) :
    (cacheOffset (canvasPos x y)).toNat = 8 * x.toNat + y.toNat / 8 := by
  rw [cacheOffset_toNat, canvasPos_cs, canvasPos_col, canvasPos_page hy]
  split <;> omega

/-- Every address is that of the top pixel of its column and page. -/
theorem cacheOffset_surjective (a : CacheAddr) : ∃ p, cacheOffset p = a := by
  have ha := a.isLt
  have hx : (addrX a).toNat = a.toNat / 8 := addrX_toNat a
  have hy : (8 * addrPage a).toNat = 8 * (a.toNat % 8) := by
    rw [BitVec.toNat_mul, addrPage_toNat]
    show 8 * (a.toNat % 8) % 256 = _
    omega
  refine ⟨canvasPos (addrX a) (8 * addrPage a), BitVec.eq_of_toNat_eq ?_⟩
  rw [cacheOffset_canvasPos (by omega) (by omega), hx, hy]
  omega

theorem logX_le (cs : Bit) (col : BitVec 6) : (logX cs col).toNat ≤ 127 := by
  have := cs.isLt; have := col.isLt
  rw [logX_toNat]; omega

theorem logY_le (page : BitVec 3) : (logY page).toNat ≤ 63 := by
  have := page.isLt
  rw [logY_toNat]; omega

/-- Settles O16: `cacheOffset` is injective and surjective, and the way back lies on the canvas, where the clamp does
nothing. -/
theorem cacheAddressesAreABijection : Obligations.CacheAddressesAreABijection := by
  refine ⟨fun _ _ => cacheOffset_injective, cacheOffset_surjective, fun _ _ => cacheOffset_canvasPos, fun p => ?_⟩
  have hx : clampX (logX p.cs p.col) = logX p.cs p.col := clampX_of_le (logX_le _ _)
  have hy : clampY (logY p.page) = logY p.page := clampY_of_le (logY_le _)
  have hback := canvasPos_log p.cs p.col p.page
  rw [hx, hy] at hback
  exact ⟨logX_toNat _ _, logY_toNat _, hback, hx, hy⟩

/-! ### The LCD -/

theorem Lcd.receive_data_regs (c : Params) (cs : Bit) (v : Byte) (d : Lcd) :
    (d.receive c (Tx.data cs v)).regs cs = { page := (d.regs cs).page, col := (d.regs cs).col + 1 } := by
  rw [Lcd.receive_data]; exact Lcd.regs_setRegs_same _ _ d

theorem Lcd.receive_data_ramAt (c : Params) (cs : Bit) (v : Byte) (d : Lcd) (a : CacheAddr) :
    (d.receive c (Tx.data cs v)).ramAt a = if a = d.target cs then v else d.ramAt a :=
  ramAt_write d _ rfl _ a v _ (by rw [Lcd.receive_data])

/-- Settles O47: by the equations of the three kinds of transaction, `Lcd.receive_setPage`, `Lcd.receive_setCol` and
`Lcd.receive_data`, the last by its effect on the registers and on the RAM. -/
theorem lcdAppliesATransaction : Obligations.LcdAppliesATransaction := by
  intro c d cs
  refine ⟨fun t h hne => Lcd.receive_regs_other hne c d, fun hc page => ?_, fun hc col => ?_, fun b a => ?_,
    fun b => ?_⟩
  · have e := Lcd.receive_setPage hc { cs := cs, col := 0, page := page } d
    exact (congrArg (Lcd.regs · cs) e).trans (Lcd.regs_setRegs_same _ _ _)
  · have e := Lcd.receive_setCol hc { cs := cs, col := col, page := 0 } d
    exact (congrArg (Lcd.regs · cs) e).trans (Lcd.regs_setRegs_same _ _ _)
  · rw [Lcd.ramAt, Lcd.receive_command_ram rfl]; rfl
  · have hregs := Lcd.receive_data_regs c cs b d
    have hpage := congrArg LcdRegs.page hregs
    have hcol := congrArg (fun r => r.col.toNat) hregs
    exact ⟨hpage, hcol.trans (BitVec.toNat_add _ _), Lcd.receive_data_ramAt c cs b d⟩

/-- A transaction keeps the display RAM canonical: it writes below 1024 or nothing. -/
theorem Lcd.receive_ram_wf {d : Lcd} (h : Memory.wf d.ram) (c : Params) (t : Tx) :
    Memory.wf (d.receive c t).ram := by
  rcases bit_cases t.dc with hdc | hdc
  · rw [Lcd.receive_command_ram hdc]; exact h
  · obtain ⟨cs, dc, b⟩ := t
    obtain rfl : dc = 1 := hdc
    rw [show (⟨cs, 1, b⟩ : Tx) = Tx.data cs b from rfl, Lcd.receive_data]
    exact Memory.wf_write h (d.target cs).isLt b

/-! ### The memories after the store of WRDATA -/

theorem stored_cache (v : Byte) (s : State) :
    (stored v s).cache = Memory.write s.cache s.cursor.offset.toNat v := by
  simp [stored, State.writeCache]

theorem stored_lcd (v : Byte) (s : State) :
    (stored v s).lcd = s.lcd.receive s.params (Tx.data s.cursor.cs v) := by
  simp [stored]

theorem stored_valid (v : Byte) (s : State) :
    (stored v s).ghost.valid = AddrSet.insert s.ghost.valid (s.lcd.target s.cursor.cs).toNat := by
  rw [stored, State.markClean_valid, State.writeCache_ghost, State.deliver_ghost,
    if_pos (show (Tx.data s.cursor.cs v).dc = 1 from rfl)]
  rfl

/-- The store leaves DIRTY, or takes the address out at which the LCD stored. -/
theorem stored_dirty (v : Byte) (s : State) :
    (stored v s).ghost.dirty = s.ghost.dirty ∨
      (stored v s).ghost.dirty = AddrSet.remove s.ghost.dirty (s.lcd.target s.cursor.cs).toNat := by
  rw [stored, State.markClean_dirty, State.writeCache_ghost, State.deliver_dirty]
  split
  · exact .inr rfl
  · exact .inl rfl

theorem stored_readCache (v : Byte) (s : State) (a : CacheAddr) :
    (stored v s).readCache a = if a = s.cursor.offset then v else s.readCache a := by
  rw [stored, State.markClean_readCache, State.readCache_writeCache, State.deliver_readCache]

theorem stored_ramAt (v : Byte) (s : State) (a : CacheAddr) :
    (stored v s).lcd.ramAt a = if a = s.lcd.target s.cursor.cs then v else s.lcd.ramAt a :=
  stored_lcd v s ▸ s.lcd.receive_data_ramAt s.params s.cursor.cs v a

/-! ### The canonical form -/

/-- The canonical form is one of CACHE, display RAM and proof devices alone. -/
theorem State.MemoryInv.congr {s t : State} (hs : s.MemoryInv)
    (h : t.cache = s.cache ∧ t.lcd.ram = s.lcd.ram ∧ t.ghost = s.ghost) : t.MemoryInv := by
  obtain ⟨hcache, hram, hghost⟩ := h
  unfold State.MemoryInv
  rw [hcache, hram, hghost]
  exact hs

theorem stored_memoryInv {s : State} (hs : s.MemoryInv) (v : Byte) : (stored v s).MemoryInv := by
  obtain ⟨hcache, hram, hvalid, hdirty⟩ := hs
  refine ⟨?_, ?_, ?_, ?_⟩
  · rw [stored_cache]; exact Memory.wf_write hcache (BitVec.isLt _) v
  · rw [stored_lcd]; exact Lcd.receive_ram_wf hram _ _
  · rw [stored_valid]; exact AddrSet.wf_insert hvalid (BitVec.isLt _)
  · rcases stored_dirty v s with e | e <;> rw [e]
    · exact hdirty
    · exact AddrSet.wf_remove hdirty _

theorem wrdata_memoryInv {s : State} (hi : s.Idle) (hs : s.MemoryInv) (d : Byte) (inv : Bit) :
    (wrdata d inv s).MemoryInv := by
  rcases wrdata_cases hi d inv with ⟨-, e⟩ | ⟨r, -, e⟩ <;> rw [e]
  · exact hs
  · have hst : (stored (dataByte d inv) { s with transport := r }).MemoryInv := stored_memoryInv hs _
    exact hst.congr (advance_memories (stored_idle (s := { s with transport := r }) hi _))

theorem setpix_deferred_memoryInv {s : State} (hb : s.batch = 1) (hs : s.MemoryInv) (x y : Byte) (val : Bit) :
    (setpix x y val s).MemoryInv := by
  obtain ⟨hcache, hram, hvalid, hdirty⟩ := hs
  rw [setpix_deferred hb]
  exact ⟨Memory.wf_write hcache (BitVec.isLt _) _, hram, hvalid, AddrSet.wf_insert hdirty (BitVec.isLt _)⟩

theorem exec_memoryInv {i : Instr} {s t : State} (hs : s.MemoryInv) (hx : exec i s = .next t) : t.MemoryInv :=
  exec_keeps (fun _ x y hi h => h.congr (gotoxy_memories hi x y)) (fun _ d inv hi h => wrdata_memoryInv hi h d inv)
    (fun u v _ h => by rw [u.respond_eq v]; exact h) (fun _ x y val _ hb h => setpix_deferred_memoryInv hb h x y val)
    (fun _ _ h => h) (fun _ _ h => h) hs hx

/-- RESET empties CACHE and the sets; the LCD at most receives the transaction on offer. -/
theorem takeReset_memoryInv {s : State} (hram : Memory.wf s.lcd.ram) (r : ResetEvent) :
    (s.takeReset r).MemoryInv := by
  have hempty : AddrSet.wf [] := by decide
  refine ⟨(by decide : Memory.wf []), ?_, hempty, hempty⟩
  show Memory.wf s.lcdAtReset.ram
  unfold State.lcdAtReset
  split
  · split
    · exact Lcd.receive_ram_wf hram _ _
    · exact hram
  · exact hram

/-- Settles O39: every write of a memory or a set is at an address below 1024, where `Memory.write`,
`AddrSet.insert` and `AddrSet.remove` keep the form; commands by `exec_memoryInv`, RESET by `takeReset_memoryInv`. -/
theorem memoriesStayCanonical : Obligations.MemoriesStayCanonical := by
  intro s t hs h
  rcases step_cases h with ⟨rfl, -⟩ | ⟨r, rest, -, rfl⟩ | ⟨w, rest, -, -, ⟨i, -, hx⟩ | ⟨r, -, rfl⟩⟩
  · exact hs
  · obtain ⟨-, hram, -, -⟩ := hs
    exact takeReset_memoryInv hram r
  · exact exec_memoryInv (s := { s with host := rest }) hs hx
  · exact hs

/-! ### COHERENT -/

/-- COHERENT is about what CACHE reads, the display RAM and the proof devices alone. -/
theorem State.Coherent.congr {s t : State} (hs : s.Coherent)
    (h : t.cache = s.cache ∧ t.lcd.ram = s.lcd.ram ∧ t.ghost = s.ghost) (hr : t.resets = s.resets) : t.Coherent := by
  obtain ⟨hcache, hram, hghost⟩ := h
  intro a hv hd
  rw [hghost] at hv hd
  rw [State.readCache_congr hcache hr, Lcd.ramAt, hram]
  exact hs a hv hd

/-- Under SYNC the two stores of WRDATA are at one address, so they agree there. -/
theorem stored_coherent {s : State} (hs : s.Coherent) (hsync : s.Sync) (hc : s.cursor.Tracked) (v : Byte) :
    (stored v s).Coherent := by
  have htarget : s.lcd.target s.cursor.cs = s.cursor.offset :=
    (target_of_sync hsync).trans (congrArg Cursor.offset hc).symm
  intro a hv hd
  rw [stored_readCache, stored_ramAt, htarget]
  split
  · rfl
  · rename_i hne
    have hne' : a.toNat ≠ s.cursor.offset.toNat := fun e => hne (BitVec.eq_of_toNat_eq e)
    rw [stored_valid, htarget, AddrSet.mem_insert] at hv
    have hd' : a.toNat ∉ s.ghost.dirty := by
      rcases stored_dirty v s with e | e <;> rw [e] at hd
      · exact hd
      · rw [htarget, AddrSet.mem_remove] at hd
        exact fun hm => hd ⟨hm, hne'⟩
    exact hs a (hv.resolve_left hne') hd'

/-- The store moves the column of the hardware cursor on by one, in the half of the cursor. -/
theorem stored_regs (v : Byte) (s : State) :
    (stored v s).lcd.regs s.cursor.cs =
      { page := (s.lcd.regs s.cursor.cs).page, col := (s.lcd.regs s.cursor.cs).col + 1 } := by
  rw [stored_lcd, Lcd.receive_data_regs]

/-- The advance after a store under SYNC, if it completes, ends under SYNC: both cursors moved on by one column, or
a GOTOXY loaded both. -/
theorem advance_stored_sync {s : State} (hi : s.Idle) (hw : s.params.Wf) (hsync : s.Sync) (v : Byte)
    (hdone : (advance (stored v s)).Idle) : (advance (stored v s)).Sync := by
  rcases advance_cases (stored v s) with ⟨-, e⟩ | ⟨-, x, y, e, -⟩ <;> rw [e] at hdone ⊢
  · have hregs := stored_regs v s
    rw [show s.lcd.regs s.cursor.cs = _ from hsync] at hregs
    simpa [State.Sync] using hregs
  · exact (gotoxy_completes (stored_idle hi v) hdone).1 ((stored_params v s).symm ▸ hw)

/-- What a run of WRDATAs carries from byte to byte, completed or stalled: COHERENT, and what the next WRDATA needs
to keep it. -/
structure State.WriteInv (s : State) : Prop where
  wf : s.params.Wf
  coherent : s.Coherent
  tracked : s.cursor.Tracked
  sync : s.Idle → s.Sync

theorem gotoxy_coherent {s : State} (hi : s.Idle) (hs : s.Coherent) (x y : Byte) : (gotoxy x y s).Coherent :=
  hs.congr (gotoxy_memories hi x y) (gotoxy_sameRest hi x y).resets

/-- GOTOXY needs no SYNC to begin with. -/
theorem gotoxy_writeInv {s : State} (hi : s.Idle) (hw : s.params.Wf) (hs : s.Coherent) (x y : Byte) :
    (gotoxy x y s).WriteInv where
  wf := (gotoxy_sameRest hi x y).params.symm ▸ hw
  coherent := gotoxy_coherent hi hs x y
  tracked := by rw [gotoxy_cursor]; exact Cursor.tracked_ofPos _
  sync hdone := (gotoxy_completes hi hdone).1 hw

theorem wrdata_writeInv {s : State} (hi : s.Idle) (hs : s.WriteInv) (d : Byte) (inv : Bit) :
    (wrdata d inv s).WriteInv where
  wf := (wrdata_sameRest hi d inv).params.symm ▸ hs.wf
  coherent := by
    rcases wrdata_cases hi d inv with ⟨-, e⟩ | ⟨r, -, e⟩ <;> rw [e]
    · exact hs.coherent
    · have hi' := stored_idle (s := { s with transport := r }) hi (dataByte d inv)
      have hst : (stored (dataByte d inv) { s with transport := r }).Coherent :=
        stored_coherent (s := { s with transport := r }) hs.coherent (hs.sync hi) hs.tracked _
      exact hst.congr (advance_memories hi') (advance_sameRest hi').resets
  tracked := by
    rcases wrdata_cursor hi d inv with e | e <;> rw [e]
    · exact hs.tracked
    · exact hs.tracked.moved
  sync hdone := by
    rcases wrdata_cases hi d inv with ⟨-, e⟩ | ⟨r, -, e⟩ <;> rw [e] at hdone ⊢
    · exact nomatch hdone
    · exact advance_stored_sync (s := { s with transport := r }) hi hs.wf (hs.sync hi) _ hdone

/-- Immediate SETPIX re-addresses the display before it writes. -/
theorem setpixImmediate_coherent {s : State} (hi : s.Idle) (hw : s.params.Wf) (hs : s.Coherent) (x y : Byte)
    (val : Bit) : (setpixImmediate x y val s).Coherent := by
  have h : (setpixImmediate x y val s).WriteInv := by
    unfold setpixImmediate
    dsimp only
    exact State.andThen_keeps (gotoxy_writeInv hi hw hs _ _) fun hi₁ h₁ =>
      State.andThen_keeps (gotoxy_writeInv hi₁ h₁.wf h₁.coherent _ _) fun hi₂ h₂ => wrdata_writeInv hi₂ h₂ _ _
  exact h.coherent

/-- Deferred SETPIX changes one byte of CACHE and makes its address dirty. -/
theorem setpix_deferred_coherent {s : State} (hb : s.batch = 1) (hs : s.Coherent) (x y : Byte) (val : Bit) :
    (setpix x y val s).Coherent := by
  rw [setpix_deferred hb]
  intro a hv hd
  obtain ⟨hne, hd'⟩ := not_or.mp (mt AddrSet.mem_insert.mpr hd)
  have hread := s.readCache_writeCache_other (fun e => hne (congrArg BitVec.toNat e))
    (setBit (s.readCache (pixelAddr x y)) (pixelBit y) val)
  exact hread.trans (hs a hv hd')

/-- A row of a flush re-addresses the display, then writes its bytes under SYNC. -/
theorem flushRow_coherent {s : State} (hw : s.params.Wf) (hs : s.Coherent) (yy : Byte) :
    (flushRow yy s).params.Wf ∧ (flushRow yy s).Coherent := by
  unfold flushRow
  rcases s.andThen_cases (gotoxy s.box.left yy) with ⟨hi, e⟩ | ⟨o, ho, e⟩ <;> rw [e]
  · have h := State.andThen_keeps (gotoxy_writeInv hi hw hs s.box.left yy) fun _ h =>
      flushBytes_keeps (fun u hi h => wrdata_writeInv hi h _ _)
        (((gotoxy s.box.left yy s).box.right - (gotoxy s.box.left yy s).box.left).toNat + 1) h
    exact ⟨h.wf, h.coherent⟩
  · rw [State.andThen_blocked ho]
    exact ⟨hw, hs⟩

theorem dwend_coherent {s : State} (hw : s.params.Wf) (hs : s.Coherent) : (dwend s).Coherent := by
  have h := dwend_keeps (P := fun u => u.params.Wf ∧ u.Coherent) (s := s) ⟨hw, hs⟩ ⟨hw, hs⟩
    (fun _ yy ⟨hw, hs⟩ => flushRow_coherent hw hs yy)
    (fun _ x y hi ⟨hw, hs⟩ => ⟨(gotoxy_sameRest hi x y).params.symm ▸ hw, gotoxy_coherent hi hs x y⟩)
    (fun _ h => h)
  exact h.2

/-- Every command keeps COHERENT, WRDATA under SYNC (41_cache_access.md R93). -/
theorem exec_coherent {i : Instr} {s t : State} (hw : s.params.Wf) (hc : s.cursor.Tracked) (hs : s.Coherent)
    (hsync : ∀ d inv, i = .wrdata d inv → s.Sync) (hx : exec i s = .next t) : t.Coherent := by
  rcases exec_cases hx with ⟨hi, rfl⟩ | ⟨-, rfl⟩
  swap
  · exact hs
  cases i with
  | gotoxy x y => exact gotoxy_coherent hi hs x y
  | wrdata d inv =>
    have h : s.WriteInv := { wf := hw, coherent := hs, tracked := hc, sync := fun _ => hsync d inv rfl }
    exact (wrdata_writeInv hi h d inv).coherent
  | rddata =>
    simp only [bodyOf, rddata]
    rw [State.respond_eq]
    exact hs
  | setpix x y val =>
    simp only [bodyOf]
    rcases bit_cases s.batch with hb | hb
    · rw [setpix_immediate hb]; exact setpixImmediate_coherent hi hw hs x y val
    · exact setpix_deferred_coherent hb hs x y val
  | dwstart =>
    simp only [bodyOf]
    rw [dwstart_eq]
    exact State.andThen_keeps (dwend_coherent hw hs) fun _ h => h
  | dwupdate x y =>
    simp only [bodyOf]
    rcases bit_cases s.batch with hb | hb
    · rw [dwupdate_noBatch hb]; exact hs
    · rw [dwupdate_inBatch hb]; exact hs
  | dwend => exact dwend_coherent hw hs

/-- Settles O40: a command by `exec_coherent`; after a RESET VALID is empty. -/
theorem coherenceIsKept : Obligations.CoherenceIsKept := by
  intro s t hw hreg hs h hsync
  obtain ⟨hc, -⟩ := (registerInv_iff s).mp hreg
  rcases step_cases h with ⟨rfl, -⟩ | ⟨r, rest, -, rfl⟩ | ⟨w, rest, hh, hi, ⟨i, hd, hx⟩ | ⟨r, -, rfl⟩⟩
  · exact hs
  · exact fun _ hv => absurd hv List.not_mem_nil
  · exact exec_coherent (s := { s with host := rest }) hw hc hs (fun d inv e => hsync w rest d inv hi hh (e ▸ hd)) hx
  · exact hs

/-! ### Commands repeated -/

theorem Memory.write_write (m : Memory) (k : Nat) (v : Byte) :
    Memory.write (Memory.write m k v) k v = Memory.write m k v := by
  induction m with
  | nil => simp [Memory.write]
  | cons c m ih =>
    obtain ⟨a, w⟩ := c
    by_cases hlt : k < a
    · simp [Memory.write, hlt]
    · by_cases heq : k = a
      · simp [Memory.write, heq]
      · simp [Memory.write, hlt, heq, ih]

theorem AddrSet.insert_insert (l : AddrSet) (k : Nat) :
    AddrSet.insert (AddrSet.insert l k) k = AddrSet.insert l k := by
  induction l with
  | nil => simp [AddrSet.insert]
  | cons a l ih =>
    by_cases hlt : k < a
    · simp [AddrSet.insert, hlt]
    · by_cases heq : k = a
      · simp [AddrSet.insert, heq]
      · simp [AddrSet.insert, hlt, heq, ih]

theorem setBit_setBit (b : Byte) (i : BitVec 3) (val : Bit) : setBit (setBit b i val) i val = setBit b i val := by
  unfold setBit
  split
  · rw [BitVec.or_assoc, BitVec.or_self]
  · rw [BitVec.and_assoc, BitVec.and_self]

theorem minByte_minByte (a b : Byte) : minByte (minByte a b) b = minByte a b :=
  BitVec.eq_of_toNat_eq (by simp only [minByte_toNat]; omega)

theorem maxByte_maxByte (a b : Byte) : maxByte (maxByte a b) b = maxByte a b :=
  BitVec.eq_of_toNat_eq (by simp only [maxByte_toNat]; omega)

theorem Box.widen_widen (b : Box) (x y : Byte) : (b.widen x y).widen x y = b.widen x y := by
  simp only [Box.widen, minByte_minByte, maxByte_maxByte]

/-- Two LCD commands given twice do what they do once, whatever bytes they are: each loads a register with a value of
its own byte, or leaves it. -/
theorem LcdRegs.command_pair_twice (c : Params) (b b' : Byte) (r : LcdRegs) :
    (((r.command c b).command c b').command c b).command c b' = (r.command c b).command c b' := by
  unfold LcdRegs.command
  split_ifs <;> rfl

theorem Lcd.goto_setRegs (c : Params) (p : Pos) (d : Lcd) :
    d.goto c p = d.setRegs p.cs
      (((d.regs p.cs).command c (Tx.setPage c p).b).command c (Tx.setCol c p).b) := by
  simp [Lcd.goto, Lcd.receive, Tx.setPage, Tx.setCol]

/-- Addressing the LCD twice to one position is addressing it once, for any parameters. -/
theorem Lcd.goto_goto (c : Params) (p : Pos) (d : Lcd) : (d.goto c p).goto c p = d.goto c p := by
  simp only [Lcd.goto_setRegs, Lcd.regs_setRegs_same, Lcd.setRegs_setRegs, LcdRegs.command_pair_twice]

/-- A command whose body changes nothing in a state changes nothing there, blocked or not. -/
theorem exec_of_bodyOf_eq {i : Instr} {t : State} (h : bodyOf i t = t) : exec i t = .next t := by
  rw [exec_eq]
  exact congrArg _ (State.andThen_keeps (P := (· = t)) rfl fun _ _ => h)

theorem rddata_live {s : State} (hi : s.Idle) (hr : s.reader = .live) :
    exec .rddata s = .next { s with rsp := s.rsp ++ [s.readCache s.cursor.offset] } := by
  rw [exec_idle hi]
  simp only [bodyOf, rddata, State.respond, State.andThen_idle hi, State.offerRsp, hr, Receiver.accept]

/-- A second GOTOXY to the same operands only emits its two transactions again. -/
theorem gotoxy_gotoxy {s : State} (h : s.Ready) (x y : Byte) :
    gotoxy x y (gotoxy x y s) =
      { gotoxy x y s with tx := (gotoxy x y s).tx ++ gotoTxs s.params (pixelPos x y) } := by
  rw [gotoxy_ready (gotoxy_ready_ready h x y), gotoxy_ready h]
  simp only [Lcd.goto_goto]

/-- With a live transport DWEND completes, so that no batch is left for a second one. -/
theorem dwend_dwend {s : State} (h : s.Ready) : dwend (dwend s) = dwend s := by
  rcases bit_cases s.batch with hb | hb
  · rw [dwend_noBatch hb, dwend_noBatch hb]
  · obtain ⟨u, -, -, -, -, e⟩ := dwend_ready h hb
    rw [e]
    exact dwend_noBatch (State.setBatch_batch 0 u)

theorem setpix_deferred_setpix {s : State} (hb : s.batch = 1) (x y : Byte) (val : Bit) :
    setpix x y val (setpix x y val s) = setpix x y val s := by
  have hread : (setpix x y val s).readCache (pixelAddr x y) =
      setBit (s.readCache (pixelAddr x y)) (pixelBit y) val := by
    rw [setpix_deferred hb]; exact s.readCache_writeCache_same _ _
  have hb' : (setpix x y val s).batch = 1 := by rw [setpix_deferred hb]; exact hb
  rw [setpix_deferred hb', hread, setBit_setBit, setpix_deferred hb]
  simp only [Memory.write_write, AddrSet.insert_insert, Box.widen_widen]

theorem dwupdate_dwupdate (x y : Byte) (s : State) : dwupdate x y (dwupdate x y s) = dwupdate x y s := by
  rcases bit_cases s.batch with hb | hb
  · rw [dwupdate_noBatch hb, dwupdate_noBatch hb]
  · have hb' : (s.setBox (s.box.widen x y)).batch = 1 := hb
    rw [dwupdate_inBatch hb, dwupdate_inBatch hb', State.setBox_box, Box.widen_widen]
    rfl

/-- Settles O58: the first RDDATA changes only RSP, the LCD addressed twice is the LCD addressed once, the first DWEND
closes the batch, and the store, the dirty mark and the widening of SETPIX and DWUPDATE are idempotent. -/
theorem repeatedCommands : Obligations.RepeatedCommands := by
  refine ⟨fun s hi hr => ?_, fun s x y h => ?_, fun s t h hx => ?_, fun s t x y val hi hb hx => ?_,
    fun s t x y hx => ?_⟩
  · have h2 := rddata_live (s := { s with rsp := s.rsp ++ [s.readCache s.cursor.offset] }) hi hr
    simp only [execAll, rddata_live hi hr, h2, List.append_assoc]
    rfl
  · have ht := gotoxy_ready_ready h x y
    exact ⟨gotoxy x y s, exec_idle h.1 _, (exec_idle ht.1 _).trans (congrArg _ (gotoxy_gotoxy h x y))⟩
  · rw [exec_idle h.1] at hx
    injection hx with hx
    exact exec_of_bodyOf_eq (hx ▸ dwend_dwend h)
  · rw [exec_idle hi] at hx
    injection hx with hx
    exact exec_of_bodyOf_eq (hx ▸ setpix_deferred_setpix hb x y val)
  · rcases exec_cases hx with ⟨-, rfl⟩ | ⟨hn, rfl⟩
    · exact exec_of_bodyOf_eq (dwupdate_dwupdate x y s)
    · exact hx

end Sys2Proof.Machine
end

section
/-! SUPPORT. The decoder (30_encoding.md R63 to R65, R70): when a word is the command of a row, when it is reserved, and
what the encoding of its command keeps of the word. -/

namespace Sys2Proof

open Laws.OpcodeField (opcode)

/-! ### The command of a word -/

/-- The fields of the word that a command reads hold the command's operands (30_encoding.md R63, column "used
fields"). -/
def CommandWord.HoldsOperands (w : CommandWord) : Instr → Prop
  | .gotoxy x y => fieldA w = x ∧ fieldB w = y
  | .wrdata d inv => fieldA w = d ∧ fieldF w = inv
  | .rddata => True
  | .setpix x y val => fieldA w = x ∧ fieldB w = y ∧ fieldF w = val
  | .dwstart => True
  | .dwupdate x y => fieldA w = x ∧ fieldB w = y
  | .dwend => True

theorem encode_fields (i : Instr) : fieldOP (encode i) = opcode i ∧ fieldZ (encode i) = 0 := by
  cases i <;> exact Laws.OpcodeField.of_cw24 _ _ _ _

theorem encode_holdsOperands (i : Instr) : CommandWord.HoldsOperands (encode i) i := by
  cases i <;> simp [CommandWord.HoldsOperands, encode, fields_cw24]

/-- A word with `Z` zero, the opcode of a command and the command's operands decodes to it. -/
theorem decode_of_fields {w : CommandWord} {i : Instr} (hz : fieldZ w = 0) (hop : fieldOP w = opcode i)
    (hread : w.HoldsOperands i) : decode w = .ok i := by
  rw [decode, if_neg (not_not.mpr hz), hop]
  cases i
  case gotoxy | wrdata | dwupdate => obtain ⟨rfl, rfl⟩ := hread; rfl
  case setpix => obtain ⟨rfl, rfl, rfl⟩ := hread; rfl
  case rddata | dwstart | dwend => rfl

/-- Why a reserved word is rejected: `Z` is tested before the opcode (60_exceptions.md R123 a). -/
theorem decode_of_reserved {w : CommandWord} (h : CommandWord.Reserved w) :
    decode w = .error (if fieldZ w ≠ 0 then .zField (fieldZ w) else .opcode (fieldOP w)) := by
  unfold decode
  by_cases hz : fieldZ w = 0
  · have hop : (fieldOP w).toNat = 0 ∨ 8 ≤ (fieldOP w).toNat :=
      (h.resolve_left (not_not.mpr hz)).imp_left (congrArg BitVec.toNat)
    rw [if_neg (not_not.mpr hz), if_neg (not_not.mpr hz)]
    split
    case h_8 => rfl
    all_goals omega
  · rw [if_pos hz, if_pos hz]

/-- The opcodes are assigned: 1 to 7 (30_encoding.md R63). -/
theorem opcode_assigned {op : BitVec 4} (h0 : op ≠ 0) (h8 : ¬ 8 ≤ op) :
    op = 1 ∨ op = 2 ∨ op = 3 ∨ op = 4 ∨ op = 5 ∨ op = 6 ∨ op = 7 := by
  revert op; decide

/-- A word that is not reserved is the command of the row of its opcode, with the operands it holds. -/
theorem exists_command_of_not_reserved {w : CommandWord} (h : ¬ CommandWord.Reserved w) :
    fieldZ w = 0 ∧ ∃ i, fieldOP w = opcode i ∧ w.HoldsOperands i := by
  rw [CommandWord.Reserved, not_or, not_or] at h
  obtain ⟨hz, h0, h8⟩ := h
  refine ⟨not_not.mp hz, ?_⟩
  rcases opcode_assigned h0 h8 with e | e | e | e | e | e | e
  · exact ⟨.gotoxy (fieldA w) (fieldB w), e, rfl, rfl⟩
  · exact ⟨.wrdata (fieldA w) (fieldF w), e, rfl, rfl⟩
  · exact ⟨.rddata, e, trivial⟩
  · exact ⟨.setpix (fieldA w) (fieldB w) (fieldF w), e, rfl, rfl, rfl⟩
  · exact ⟨.dwstart, e, trivial⟩
  · exact ⟨.dwupdate (fieldA w) (fieldB w), e, rfl, rfl⟩
  · exact ⟨.dwend, e, trivial⟩

theorem decode_eq_error_iff (w : CommandWord) : (∃ r, decode w = .error r) ↔ CommandWord.Reserved w := by
  refine ⟨fun ⟨r, he⟩ => not_not.mp fun hr => ?_, fun h => ⟨_, decode_of_reserved h⟩⟩
  obtain ⟨hz, i, hop, hread⟩ := exists_command_of_not_reserved hr
  exact nomatch he.symm.trans (decode_of_fields hz hop hread)

/-- The decoder in one line: a word is the command whose opcode and operands it holds, with `Z` zero. -/
theorem decode_eq_ok_iff (w : CommandWord) (i : Instr) :
    decode w = .ok i ↔ fieldZ w = 0 ∧ fieldOP w = opcode i ∧ w.HoldsOperands i := by
  refine ⟨fun h => ?_, fun ⟨hz, hop, hread⟩ => decode_of_fields hz hop hread⟩
  have hr : ¬ CommandWord.Reserved w := fun hr => nomatch h.symm.trans (decode_of_reserved hr)
  obtain ⟨hz, j, hop, hread⟩ := exists_command_of_not_reserved hr
  obtain rfl : j = i := Except.ok.inj ((decode_of_fields hz hop hread).symm.trans h)
  exact ⟨hz, hop, hread⟩

/-! ### The encoding of a command -/

theorem decode_encode (i : Instr) : decode (encode i) = .ok i :=
  decode_of_fields (encode_fields i).2 (encode_fields i).1 (encode_holdsOperands i)

theorem encode_injective {i j : Instr} (h : encode i = encode j) : i = j :=
  Except.ok.inj ((decode_encode i).symm.trans (h ▸ decode_encode j))

theorem encode_not_reserved (i : Instr) : ¬ CommandWord.Reserved (encode i) :=
  fun hr => nomatch (decode_encode i).symm.trans (decode_of_reserved hr)

/-- The opcode alone says which fields are read. -/
theorem readMask_cw24 (op : BitVec 4) (f : Bit) (a b : Byte) :
    CommandWord.readMask (cw24 op f a b) = CommandWord.readMask (cw24 op 0 0 0) := by
  have h : (cw24 op f a b).extractLsb' 20 4 = (cw24 op 0 0 0).extractLsb' 20 4 :=
    (fields_cw24 op f a b).1.trans (fields_cw24 op 0 0 0).1.symm
  rw [CommandWord.readMask, CommandWord.readMask, h]

/-- The encoding of a word's command is the word with its unread fields zeroed (30_encoding.md R65). -/
theorem encode_of_decode {w : CommandWord} {i : Instr} (h : decode w = .ok i) :
    encode i = w &&& CommandWord.readMask w := by
  obtain ⟨hz, hop, hread⟩ := (decode_eq_ok_iff w i).mp h
  have hw := eq_cw24_of_fieldZ hz
  rw [hop] at hw
  rw [hw, readMask_cw24]
  cases i <;> dsimp only [encode, opcode]
  case gotoxy | dwupdate => obtain ⟨rfl, rfl⟩ := hread; exact (cw24_and_mask ..).1.symm
  case wrdata => obtain ⟨rfl, rfl⟩ := hread; exact (cw24_and_mask ..).2.1.symm
  case setpix => obtain ⟨rfl, rfl, rfl⟩ := hread; exact (cw24_and_mask ..).2.2.2.symm
  case rddata | dwstart | dwend => exact (cw24_and_mask ..).2.2.1.symm

theorem encode_wellFormed (i : Instr) : CommandWord.WellFormed (encode i) :=
  ⟨encode_not_reserved i, (encode_of_decode (decode_encode i)).symm⟩

/-! ### The masks -/

/-- Every mask of read fields contains `OP` and `Z`. -/
theorem fields_readMask (w : CommandWord) :
    fieldOP (CommandWord.readMask w) = BitVec.allOnes 4 ∧ fieldZ (CommandWord.readMask w) = BitVec.allOnes 3 := by
  unfold CommandWord.readMask
  split <;> exact ⟨rfl, rfl⟩

/-- Words that agree under their masks of read fields agree in `OP` and `Z`. -/
theorem opcode_eq_of_and_readMask {w w' : CommandWord}
    (h : w &&& CommandWord.readMask w = w' &&& CommandWord.readMask w') :
    fieldOP w = fieldOP w' ∧ fieldZ w = fieldZ w' := by
  obtain ⟨hop, hz⟩ := fields_readMask w
  obtain ⟨hop', hz'⟩ := fields_readMask w'
  have h1 := congrArg fieldOP h
  have h2 := congrArg fieldZ h
  rw [(fields_and ..).1, (fields_and ..).1, hop, hop', BitVec.and_allOnes, BitVec.and_allOnes] at h1
  rw [(fields_and ..).2.1, (fields_and ..).2.1, hz, hz', BitVec.and_allOnes, BitVec.and_allOnes] at h2
  exact ⟨h1, h2⟩

theorem decode_eq_of_and_readMask {w w' : CommandWord}
    (h : w &&& CommandWord.readMask w = w' &&& CommandWord.readMask w') : decode w = decode w' := by
  obtain ⟨hop, hz⟩ := opcode_eq_of_and_readMask h
  have hr : CommandWord.Reserved w ↔ CommandWord.Reserved w' := by
    show fieldZ w ≠ 0 ∨ fieldOP w = 0 ∨ 8 ≤ fieldOP w ↔ fieldZ w' ≠ 0 ∨ fieldOP w' = 0 ∨ 8 ≤ fieldOP w'
    rw [hop, hz]
  by_cases hres : CommandWord.Reserved w
  · rw [decode_of_reserved hres, decode_of_reserved (hr.mp hres), hop, hz]
  · obtain ⟨hz1, i, hop1, hread⟩ := exists_command_of_not_reserved hres
    obtain ⟨hz2, j, hop2, hread'⟩ := exists_command_of_not_reserved (mt hr.mpr hres)
    have hi := decode_of_fields hz1 hop1 hread
    have hj := decode_of_fields hz2 hop2 hread'
    obtain rfl : i = j := encode_injective (by rw [encode_of_decode hi, encode_of_decode hj, h])
    exact hi.trans hj.symm

/-- The mask of 30_encoding.md R63 tests `Z` and the opcode. -/
theorem and_opcodeMask_iff (w : CommandWord) (op : BitVec 4) :
    w &&& 0xFE0000 = cw24 op 0 0 0 ↔ fieldZ w = 0 ∧ fieldOP w = op := by
  constructor
  · intro h
    have hop := congrArg fieldOP h
    have hz := congrArg fieldZ h
    rw [(fields_and ..).1, (fields_cw24 ..).1] at hop
    rw [(fields_and ..).2.1, (fields_cw24 ..).2.1] at hz
    exact ⟨(BitVec.and_allOnes).symm.trans hz, (BitVec.and_allOnes).symm.trans hop⟩
  · rintro ⟨hz, rfl⟩
    rw [← (cw24_and_mask (fieldOP w) (fieldF w) (fieldA w) (fieldB w)).2.2.1, ← eq_cw24_of_fieldZ hz]

/-- A word that holds a command's operands is that command exactly when it matches the command's row under the
mask. -/
theorem decode_eq_ok_iff_mask {op : BitVec 4} {w : CommandWord} {i : Instr} (hop : opcode i = op)
    (hread : w.HoldsOperands i) : decode w = .ok i ↔ w &&& 0xFE0000 = cw24 op 0 0 0 := by
  rw [decode_eq_ok_iff, and_opcodeMask_iff, hop]
  exact and_congr_right fun _ => and_iff_left hread

/-! ### The obligations -/

/-- Settles O1: the table is `decode_of_fields` row by row and `decode_of_reserved`; the round trips are
`decode_encode` and `encode_of_decode`. -/
theorem decodingIsTotalAndRoundTrips : Obligations.DecodingIsTotalAndRoundTrips := by
  refine ⟨fun w hz => (decode_eq_error_iff w).mpr (.inl hz), fun w hz => ?_, decode_encode,
    fun _ _ => encode_of_decode⟩
  exact ⟨fun h => decode_of_fields hz h ⟨rfl, rfl⟩, fun h => decode_of_fields hz h ⟨rfl, rfl⟩,
    fun h => decode_of_fields hz h trivial, fun h => decode_of_fields hz h ⟨rfl, rfl, rfl⟩,
    fun h => decode_of_fields hz h trivial, fun h => decode_of_fields hz h ⟨rfl, rfl⟩,
    fun h => decode_of_fields hz h trivial, fun h => (decode_eq_error_iff w).mpr (.inr h)⟩

/-- Settles O2: the iff is `decode_eq_error_iff`, the reasons are those of `decode_of_reserved`. -/
theorem reservedWordsHaveNoCommand : Obligations.ReservedWordsHaveNoCommand := by
  refine fun w => ⟨decode_eq_error_iff w, fun hz => ?_, fun hz hr => ?_⟩
  · rw [decode_of_reserved (.inl hz), if_pos hz]
  · rw [decode_of_reserved hr, if_neg (not_not.mpr hz)]

/-- Settles O3: each row's match is the word of the row's opcode with every other field zero. -/
theorem opcodeMaskSelectsTheCommand : Obligations.OpcodeMaskSelectsTheCommand := fun _ =>
  ⟨decode_eq_ok_iff_mask (op := 1) rfl ⟨rfl, rfl⟩, decode_eq_ok_iff_mask (op := 2) rfl ⟨rfl, rfl⟩,
    decode_eq_ok_iff_mask (op := 3) rfl trivial, decode_eq_ok_iff_mask (op := 4) rfl ⟨rfl, rfl, rfl⟩,
    decode_eq_ok_iff_mask (op := 5) rfl trivial, decode_eq_ok_iff_mask (op := 6) rfl ⟨rfl, rfl⟩,
    decode_eq_ok_iff_mask (op := 7) rfl trivial⟩

/-- Settles O4: equal words under the masks are equal in `OP` and `Z`, so both are reserved for one reason or both
are commands with one encoding; a well-formed word is its own masked word. -/
theorem unreadFieldsAreIgnored : Obligations.UnreadFieldsAreIgnored :=
  ⟨fun _ _ _ h => decode_eq_of_and_readMask h, encode_wellFormed,
    fun _ _ ⟨_, hmask⟩ hd => hmask.symm.trans (encode_of_decode hd).symm⟩

/-- Settles O5: nine runs of the decoder. -/
theorem workedWordsDecode : Obligations.WorkedWordsDecode := by
  refine ⟨?_, ?_, ?_, ?_, ?_, ?_, ?_, ?_, ?_⟩ <;> decide

end Sys2Proof
end

section
/-! SUPPORT. The channels as words (30_encoding.md R64, R66 to R68, R71, R72): the transaction word, the assembler's
words, a reserved word on CMD, what goes out on RSP, and the command bytes on TX. -/

namespace Sys2Proof.Machine

/-! ### The transaction word -/

/-- A transaction word is the sum of its fields at their places (30_encoding.md R66). -/
theorem txWord_toNat (w : TxWord) :
    w.toNat = 512 * (Tx.ofWord w).cs.toNat + 256 * (Tx.ofWord w).dc.toNat + (Tx.ofWord w).b.toNat := by
  have := w.isLt
  simp [Tx.ofWord, Nat.shiftRight_eq_div_pow]
  omega

theorem Tx.ofWord_word (t : Tx) : Tx.ofWord t.word = t := by
  obtain ⟨cs, dc, b⟩ := t
  have hcs : (cs ++ dc ++ b).extractLsb' 9 1 = cs := by
    rw [BitVec.extractLsb'_append_eq_of_le (by decide), BitVec.extractLsb'_append_eq_left]
  have hdc : (cs ++ dc ++ b).extractLsb' 8 1 = dc := by
    rw [BitVec.extractLsb'_append_eq_of_le (by decide), BitVec.extractLsb'_append_eq_right]
  have hb : (cs ++ dc ++ b).extractLsb' 0 8 = b := BitVec.extractLsb'_append_eq_right
  exact congr (congrArg₂ Tx.mk hcs hdc) hb

theorem Tx.word_toNat (t : Tx) : t.word.toNat = 512 * t.cs.toNat + 256 * t.dc.toNat + t.b.toNat := by
  have h := txWord_toNat t.word
  rwa [Tx.ofWord_word] at h

theorem Tx.word_ofWord (w : TxWord) : (Tx.ofWord w).word = w :=
  BitVec.eq_of_toNat_eq ((Tx.word_toNat _).trans (txWord_toNat w).symm)

/-- Settles O6: a word is the sum of its fields, and the fields of a transaction's word are the transaction's. -/
theorem transactionWordRoundTrip : Obligations.TransactionWordRoundTrip :=
  ⟨Tx.word_toNat, Tx.ofWord_word, Tx.word_ofWord⟩

/-! ### The assembler -/

theorem cw24_toNat (op : BitVec 4) (f : Bit) (a b : Byte) :
    (cw24 op f a b).toNat = op.toNat * 2 ^ 20 + f.toNat * 2 ^ 16 + a.toNat * 2 ^ 8 + b.toNat := by
  obtain ⟨hop, hz, hf, ha, hb⟩ := fields_cw24 op f a b
  rw [commandWord_toNat, hop, hz, hf, ha, hb]
  simp

/-- The word of operands in range as a number (30_encoding.md R71, column "encoding"). -/
theorem cw24_operands (op : BitVec 4) {f a b : Nat} (hf : f ≤ 1) (ha : a ≤ 255) (hb : b ≤ 255) :
    cw24 op (bitOperand f) (byteOperand a) (byteOperand b) =
      BitVec.ofNat 24 (0x100000 * op.toNat + 65536 * f + 256 * a + b) := by
  have := op.isLt
  apply BitVec.eq_of_toNat_eq
  rw [cw24_toNat, bitOperand, byteOperand, byteOperand, BitVec.toNat_ofNat, BitVec.toNat_ofNat, BitVec.toNat_ofNat,
    BitVec.toNat_ofNat]
  omega

theorem encode_wrdata_zero {d : Nat} (hd : d ≤ 255) :
    encode (.wrdata (byteOperand d) 0) = BitVec.ofNat 24 (0x200000 + 256 * d) :=
  cw24_operands 2 (f := 0) (b := 0) (by decide) hd (by decide)

theorem assembleLine_of_wellFormed {l : AsmLine} (h : l.wellFormed = true) :
    assembleLine l = some ((expandLine l).map encode) :=
  if_pos h

theorem assembleLine_of_not_wellFormed {l : AsmLine} (h : l.wellFormed = false) : assembleLine l = none :=
  if_neg (by rw [h]; decide)

theorem map_decode_map_encode (is : List Instr) : (is.map encode).map decode = is.map .ok := by
  rw [List.map_map]
  exact List.map_congr_left fun i _ => decode_encode i

/-- Settles O7: a well-formed line assembles to the encodings of its commands, whose numbers are `cw24_operands`, and
they decode by `decode_encode`. -/
theorem assembledLinesDecode : Obligations.AssembledLinesDecode := by
  refine ⟨fun x y hx hy => ⟨?_, ?_, fun b hb => ⟨?_, ?_⟩⟩, rfl, rfl, rfl, fun bytes hne hbytes => ?_,
    fun n d hd => ?_, ?_, fun l hl => ⟨_, assembleLine_of_wellFormed hl, map_decode_map_encode _⟩,
    fun _ => assembleLine_of_not_wellFormed⟩
  · rw [assembleLine_of_wellFormed (by simp [AsmLine.wellFormed, hx, hy])]
    exact congrArg (fun w => some [w]) (cw24_operands 1 (f := 0) (by decide) hx hy)
  · rw [assembleLine_of_wellFormed (by simp [AsmLine.wellFormed, hx, hy])]
    exact congrArg (fun w => some [w]) (cw24_operands 6 (f := 0) (by decide) hx hy)
  · rw [assembleLine_of_wellFormed (by simp [AsmLine.wellFormed, hx, hy, hb])]
    exact congrArg (fun w => some [w]) (cw24_operands 4 hb hx hy)
  · rw [assembleLine_of_wellFormed (by simp [AsmLine.wellFormed, hx, hb])]
    exact congrArg (fun w => some [w]) (cw24_operands 2 (b := 0) hb hx (by decide))
  · rw [assembleLine_of_wellFormed (by simpa [AsmLine.wellFormed, hne] using hbytes), expandLine, List.map_map]
    exact congrArg some (List.map_congr_left fun b hb => encode_wrdata_zero (hbytes b hb))
  · rw [assembleLine_of_wellFormed (by simp [AsmLine.wellFormed, hd]), expandLine, List.map_replicate,
      encode_wrdata_zero hd]
  · rw [assembleLine_of_wellFormed rfl, expandLine, List.map_cons, List.map_replicate]
    rfl

/-! ### A reserved word -/

theorem acceptWord_reserved {w : CommandWord} (h : CommandWord.Reserved w) (s : State) :
    acceptWord w s = .next s := by
  rw [acceptWord, decode_of_reserved h]

/-- Settles O11: the idle block takes the word, and a reserved word changes nothing. -/
theorem reservedWordIsIgnored : Obligations.ReservedWordIsIgnored :=
  fun _ _ _ hh hi hr => (step_command hh hi).trans (acceptWord_reserved hr _)

/-! ### Responses -/

/-- From an idle `s` to `t` nothing was answered on RSP, and nothing is on offer there. -/
def Unanswered (s t : State) : Prop := t.rsp = s.rsp ∧ ∀ v, t.offer ≠ some (.rsp v)

theorem Unanswered.of_idle {s : State} (hi : s.Idle) : Unanswered s s :=
  ⟨rfl, fun _ h => nomatch hi.symm.trans h⟩

theorem Unanswered.emit {s u : State} (h : Unanswered s u) (t : Tx) : Unanswered s (u.emit t) := by
  refine State.emit_keeps h (fun r => ?_) ⟨h.1, nofun⟩
  rw [Unanswered, State.deliver_rsp, State.deliver_offer]
  exact h

theorem Unanswered.gotoxy {s u : State} (h : Unanswered s u) (x y : Byte) : Unanswered s (gotoxy x y u) :=
  Unanswered.emit (Unanswered.emit (u := u.moveTo (pixelPos x y)) h _) _

theorem Unanswered.advance {s u : State} (h : Unanswered s u) : Unanswered s (advance u) := by
  rcases advance_cases u with ⟨-, e⟩ | ⟨-, x, y, e, -⟩ <;> rw [e]
  · exact h
  · exact h.gotoxy x y

theorem Unanswered.wrdata {s u : State} (h : Unanswered s u) (hi : u.Idle) (d : Byte) (inv : Bit) :
    Unanswered s (wrdata d inv u) := by
  rcases wrdata_cases hi d inv with ⟨-, e⟩ | ⟨r, -, e⟩ <;> rw [e]
  · exact ⟨h.1, nofun⟩
  · refine Unanswered.advance ?_
    simpa [Unanswered, stored] using h

theorem Unanswered.dwend {s : State} (h : Unanswered s s) : Unanswered s (dwend s) :=
  dwend_keeps h h (fun _ yy h => flushRow_keeps (fun _ x y _ h => h.gotoxy x y) (fun _ hi h => h.wrdata hi _ _) h yy)
    (fun _ x y _ h => h.gotoxy x y) fun _ h => h

theorem bodyOf_unanswered {i : Instr} (hn : i ≠ .rddata) {s : State} (hi : s.Idle) : Unanswered s (bodyOf i s) := by
  have hs := Unanswered.of_idle hi
  cases i with
  | gotoxy x y => exact hs.gotoxy x y
  | wrdata d inv => exact hs.wrdata hi d inv
  | rddata => exact absurd rfl hn
  | setpix x y val =>
    simp only [bodyOf]
    rcases bit_cases s.batch with hb | hb
    · rw [setpix_immediate hb]
      exact setpixImmediate_keeps (fun _ x y _ h => h.gotoxy x y) (fun _ d inv hi h => h.wrdata hi d inv) hi hs x y val
    · rw [setpix_deferred hb]; exact hs
  | dwstart =>
    simp only [bodyOf]
    rw [dwstart_eq]
    exact State.andThen_keeps hs.dwend fun _ h => h
  | dwupdate x y =>
    simp only [bodyOf]
    rcases bit_cases s.batch with hb | hb
    · rw [dwupdate_noBatch hb]; exact hs
    · rw [dwupdate_inBatch hb]; exact hs
  | dwend => exact hs.dwend

/-- RDDATA from an idle block: the host takes the byte under the cursor, or the byte stays on offer. -/
theorem rddata_cases {s t : State} (hi : s.Idle) (hx : exec .rddata s = .next t) :
    (t.Idle ∧ t.rsp = s.rsp ++ [s.readCache s.cursor.offset]) ∨
      (t.rsp = s.rsp ∧ t.offer = some (.rsp (s.readCache s.cursor.offset))) := by
  rw [exec_idle hi] at hx
  injection hx with hx
  subst hx
  simp only [bodyOf, rddata]
  rcases s.respond_cases (s.readCache s.cursor.offset) with ⟨⟨o, ho⟩, -⟩ | ⟨-, r, -, e⟩ | ⟨-, -, e⟩
  · exact nomatch ho.symm.trans hi
  · rw [e]; exact .inl ⟨hi, rfl⟩
  · rw [e]; exact .inr ⟨rfl, rfl⟩

/-- Settles O36: the bodies of the other commands emit only on TX (`bodyOf_unanswered`), and RDDATA has the two
outcomes of `rddata_cases`, told apart by the word on offer. -/
theorem onlyRddataResponds : Obligations.OnlyRddataResponds := by
  refine ⟨fun i s t hn hx => ?_, fun s t hi hx ht => ?_, fun s t hi hx ht => ?_⟩
  · rcases exec_cases hx with ⟨hi, rfl⟩ | ⟨-, rfl⟩
    · obtain ⟨hrsp, hoffer⟩ := bodyOf_unanswered hn hi
      exact ⟨hrsp, fun v hv => absurd hv (hoffer v)⟩
    · exact ⟨rfl, fun _ hv => hv⟩
  · rcases rddata_cases hi hx with ⟨-, h⟩ | ⟨-, ho⟩
    · exact h
    · exact nomatch ho.symm.trans ht
  · rcases rddata_cases hi hx with ⟨h, -⟩ | h
    · exact absurd h ht
    · exact h

/-! ### The command bytes on TX -/

theorem Tx.known_setPage (c : Params) (p : Pos) : (Tx.setPage c p).Known c := fun _ => .inl ⟨p.page, rfl⟩

theorem Tx.known_setCol (c : Params) (p : Pos) : (Tx.setCol c p).Known c := fun _ => .inr ⟨p.col, rfl⟩

theorem Tx.known_data (c : Params) (cs : Bit) (v : Byte) : (Tx.data cs v).Known c := fun h => nomatch h

theorem State.deliver_txKnown {s : State} (hs : s.TxKnown) {t : Tx} (ht : t.Known s.params) :
    (s.deliver t).TxKnown := by
  obtain ⟨htx, hoffer⟩ := hs
  rw [State.TxKnown, State.deliver_params, State.deliver_tx, State.deliver_offer]
  refine ⟨fun u hu => ?_, hoffer⟩
  rcases List.mem_append.mp hu with h | h
  · exact htx u h
  · exact List.mem_singleton.mp h ▸ ht

theorem State.offer_txKnown {s : State} (hs : s.TxKnown) {o : Offer} (ho : ∀ t, o = .tx t → t.Known s.params) :
    ({ s with offer := some o } : State).TxKnown :=
  ⟨hs.1, fun t h => ho t (Option.some.inj h)⟩

theorem State.emit_txKnown {s : State} (hs : s.TxKnown) {t : Tx} (ht : t.Known s.params) : (s.emit t).TxKnown :=
  State.emit_keeps hs (fun r => State.deliver_txKnown (s := { s with transport := r }) hs ht)
    (State.offer_txKnown hs fun _ h => Offer.tx.inj h ▸ ht)

@[simp] theorem State.emit_params (t : Tx) (s : State) : (s.emit t).params = s.params :=
  State.emit_keeps (P := fun u => u.params = s.params) rfl (fun _ => State.deliver_params _ _) rfl

theorem gotoxy_txKnown {s : State} (hs : s.TxKnown) (x y : Byte) : (gotoxy x y s).TxKnown := by
  have hmove : (s.moveTo (pixelPos x y)).TxKnown := hs
  refine State.emit_txKnown (State.emit_txKnown hmove (Tx.known_setPage _ _)) ?_
  rw [State.emit_params]
  exact Tx.known_setCol _ _

theorem advance_txKnown {s : State} (hs : s.TxKnown) : (advance s).TxKnown := by
  rcases advance_cases s with ⟨-, e⟩ | ⟨-, x, y, e, -⟩ <;> rw [e]
  · exact hs
  · exact gotoxy_txKnown hs x y

theorem stored_txKnown {s : State} (hs : s.TxKnown) (v : Byte) : (stored v s).TxKnown :=
  State.deliver_txKnown hs (Tx.known_data s.params s.cursor.cs v)

theorem wrdata_txKnown {s : State} (hi : s.Idle) (hs : s.TxKnown) (d : Byte) (inv : Bit) :
    (wrdata d inv s).TxKnown := by
  rcases wrdata_cases hi d inv with ⟨-, e⟩ | ⟨r, -, e⟩ <;> rw [e]
  · exact State.offer_txKnown hs fun _ h => Offer.tx.inj h ▸ Tx.known_data _ _ _
  · exact advance_txKnown (stored_txKnown hs _)

theorem State.respond_txKnown {s : State} (hs : s.TxKnown) (v : Byte) : (s.respond v).TxKnown := by
  rcases s.respond_cases v with ⟨-, e⟩ | ⟨-, r, -, e⟩ | ⟨-, -, e⟩ <;> rw [e]
  · exact hs
  · exact hs
  · exact State.offer_txKnown hs nofun

theorem exec_txKnown {i : Instr} {s t : State} (hs : s.TxKnown) (hx : exec i s = .next t) : t.TxKnown :=
  exec_keeps (fun _ x y _ h => gotoxy_txKnown h x y) (fun _ d inv hi h => wrdata_txKnown hi h d inv)
    (fun _ v _ h => State.respond_txKnown h v) (fun _ x y val _ hb h => by rw [setpix_deferred hb]; exact h)
    (fun _ _ h => h) (fun _ _ h => h) hs hx

theorem takeReset_txKnown (r : ResetEvent) (s : State) : (s.takeReset r).TxKnown :=
  ⟨fun _ ht => absurd ht List.not_mem_nil, fun _ ho => nomatch ho⟩

/-- Settles O42: a command emits and offers only set page, set column and data (`exec_txKnown`), and RESET empties TX
and the offer. -/
theorem emittedCommandsAreSetPageOrSetColumn : Obligations.EmittedCommandsAreSetPageOrSetColumn := by
  intro s t hs h
  rcases step_cases h with ⟨rfl, -⟩ | ⟨r, rest, -, rfl⟩ | ⟨w, rest, -, -, ⟨i, -, hx⟩ | ⟨r, -, rfl⟩⟩
  · exact hs
  · exact takeReset_txKnown r _
  · exact exec_txKnown (s := { s with host := rest }) hs hx
  · exact hs

end Sys2Proof.Machine
end

section
/-! SUPPORT. Addressing (40_addressing.md R80 to R85): the clamp and the map, the offset as a concatenation, the order
in which `next` visits the positions, and GOTOXY. -/

namespace Sys2Proof.Machine

/-! ### The clamp, the map and the offset -/

theorem canvasPos_col_eq_sub {x : Byte} (hx : x.toNat ≤ 127) (y : Byte) :
    (canvasPos x y).col.toNat = x.toNat - 64 * (canvasPos x y).cs.toNat := by
  rw [canvasPos_col, canvasPos_cs]
  split <;> omega

/-- Settles O14: the clamp and the map as natural numbers; below 128 a column is the remainder modulo 64. -/
theorem coordinatesAreClampedAndMapped : Obligations.CoordinatesAreClampedAndMapped :=
  ⟨fun x y => ⟨clampX_toNat x, clampX_le x, clampY_toNat y, clampY_le y⟩,
    fun x y hx hy => ⟨canvasPos_cs x y, canvasPos_col_eq_sub hx y, canvasPos_page hy x⟩⟩

theorem append_pos_toNat (p : Pos) :
    (p.cs ++ p.col ++ p.page).toNat = 512 * p.cs.toNat + 8 * p.col.toNat + p.page.toNat := by
  rw [BitVec.toNat_append, BitVec.toNat_append, ← Nat.shiftLeft_add_eq_or_of_lt p.page.isLt,
    ← Nat.shiftLeft_add_eq_or_of_lt p.col.isLt, Nat.shiftLeft_eq, Nat.shiftLeft_eq]
  omega

theorem mul_cs_toNat_eq_ite (cs : Bit) : 512 * cs.toNat = if cs = 0 then 0 else 512 := by
  rcases bit_cases cs with rfl | rfl <;> rfl

/-- Settles O15: the sum and the concatenation are one number, `cacheOffset_toNat`. -/
theorem cacheOffsetIsTheConcatenation : Obligations.CacheOffsetIsTheConcatenation :=
  fun p => ⟨mul_cs_toNat_eq_ite p.cs ▸ cacheOffset_toNat p,
    BitVec.eq_of_toNat_eq ((cacheOffset_toNat p).trans (append_pos_toNat p).symm)⟩

/-! ### The order of `next` -/

/-- The place of a position in the order of `next`, from the origin on: page by page, in a page chip 1 before chip 2,
column by column. -/
def visitIndex (p : Pos) : Nat := 128 * p.page.toNat + 64 * p.cs.toNat + p.col.toNat

theorem visitIndex_lt (p : Pos) : visitIndex p < 1024 := by
  have := p.cs.isLt; have := p.col.isLt; have := p.page.isLt
  unfold visitIndex; omega

theorem visitIndex_injective {p q : Pos} (h : visitIndex p = visitIndex q) : p = q := by
  have := p.cs.isLt; have := p.col.isLt; have := p.page.isLt
  have := q.cs.isLt; have := q.col.isLt; have := q.page.isLt
  unfold visitIndex at h
  exact Pos.ext_toNat (by omega) (by omega) (by omega)

theorem nextPos_of_col_63_chip1 {p : Pos} (hcol : p.col = 63) (hcs : p.cs = 0) :
    nextPos p = { cs := 1, col := 0, page := p.page } := by
  rw [nextPos, hcol, if_neg (by decide), if_pos hcs]

theorem nextPos_of_col_63_chip2 {p : Pos} (hcol : p.col = 63) (hcs : p.cs = 1) :
    nextPos p = { cs := 0, col := 0, page := p.page + 1 } := by
  rw [nextPos, hcol, hcs, if_neg (by decide), if_neg (by decide)]

theorem col_succ_toNat {c : BitVec 6} (h : c.toNat < 63) : (c + 1).toNat = c.toNat + 1 :=
  BitVec.toNat_add_of_lt (by show c.toNat + 1 < 64; omega)

theorem page_succ_toNat (g : BitVec 3) : (g + 1).toNat = (g.toNat + 1) % 8 := BitVec.toNat_add g 1

/-- `next` goes one place on in the order, from the last place to the first. -/
theorem visitIndex_nextPos (p : Pos) : visitIndex (nextPos p) = (visitIndex p + 1) % 1024 := by
  have hpage := p.page.isLt
  by_cases hcol : p.col = 63
  · rcases bit_cases p.cs with h | h
    · rw [nextPos_of_col_63_chip1 hcol h]
      simp only [visitIndex, hcol, h, BitVec.ofNat_eq_ofNat, BitVec.toNat_ofNat]; omega
    · rw [nextPos_of_col_63_chip2 hcol h, visitIndex, page_succ_toNat]
      simp only [visitIndex, hcol, h, BitVec.ofNat_eq_ofNat, BitVec.toNat_ofNat]; omega
  · have hlt : p.col < 63 := (col_lt_iff _).mpr hcol
    rw [nextPos_of_lt hlt]
    simp only [visitIndex, col_succ_toNat hlt]
    have : p.col.toNat < 63 := hlt
    omega

theorem visitIndex_iterate (k : Nat) (p : Pos) : visitIndex (nextPos^[k] p) = (visitIndex p + k) % 1024 := by
  induction k with
  | zero => exact (Nat.mod_eq_of_lt (visitIndex_lt p)).symm
  | succ k ih => rw [Function.iterate_succ_apply', visitIndex_nextPos, ih, Nat.mod_add_mod, Nat.add_assoc]

/-- A count of steps from one position to another is the distance of their places in the order, modulo 1024. -/
theorem iterate_nextPos_eq_iff (k : Nat) (p q : Pos) :
    nextPos^[k] p = q ↔ (visitIndex p + k) % 1024 = visitIndex q := by
  rw [← visitIndex_iterate]
  exact ⟨congrArg visitIndex, visitIndex_injective⟩

theorem iterate_nextPos_1024 (p : Pos) : nextPos^[1024] p = p := by
  rw [iterate_nextPos_eq_iff, Nat.add_mod_right, Nat.mod_eq_of_lt (visitIndex_lt p)]

/-- The single visit: between two positions there is one count of steps below 1024. -/
theorem existsUnique_iterate_nextPos (p q : Pos) :
    ∃ k < 1024, nextPos^[k] p = q ∧ ∀ j < 1024, nextPos^[j] p = q → j = k := by
  have hp := visitIndex_lt p
  have hq := visitIndex_lt q
  refine ⟨(visitIndex q + 1024 - visitIndex p) % 1024, Nat.mod_lt _ (by decide), ?_, fun j hj h => ?_⟩
  · rw [iterate_nextPos_eq_iff]; omega
  · rw [iterate_nextPos_eq_iff] at h; omega

/-- Settles O17: the cases are those of `next`, addresses are `cacheOffset_toNat`, and the counts of steps are
distances in the cyclic order `visitIndex`. -/
theorem nextVisitsEveryPositionOnce : Obligations.NextVisitsEveryPositionOnce := by
  refine ⟨fun p => ⟨fun hcol => ?_, fun hcol hcs => ?_, fun hcol hcs => ?_⟩, iterate_nextPos_1024,
    existsUnique_iterate_nextPos⟩
  · rw [nextPos_of_lt hcol, cacheOffset_toNat, cacheOffset_toNat]
    simp only [col_succ_toNat hcol, true_and]
    omega
  · rw [nextPos_of_col_63_chip1 hcol hcs, cacheOffset_toNat, cacheOffset_toNat, hcol, hcs]
    simp only [BitVec.ofNat_eq_ofNat, BitVec.toNat_ofNat, true_and]; omega
  · rw [nextPos_of_col_63_chip2 hcol hcs, cacheOffset_toNat]
    exact ⟨rfl, rfl, page_succ_toNat _, by simp⟩

/-! ### GOTOXY -/

/-- A command word as its fields shifted to their places (30_encoding.md R61). -/
theorem cw24_eq_or (op : BitVec 4) (f : Bit) (a b : Byte) :
    cw24 op f a b =
      op.setWidth 24 <<< 20 ||| f.setWidth 24 <<< 16 ||| a.setWidth 24 <<< 8 ||| b.setWidth 24 := by
  unfold cw24
  ext i hi
  simp only [BitVec.getElem_or, BitVec.getElem_shiftLeft, BitVec.getElem_setWidth]
  grind

/-- Settles O19: with a live transport GOTOXY is one update of the state, `gotoxy_ready`. -/
theorem gotoxyMovesTheCursor : Obligations.GotoxyMovesTheCursor := by
  refine fun s x y => ⟨?_, fun h => ⟨gotoxy x y s, exec_idle h.1 _, ?_⟩⟩
  · rw [encode, cw24_eq_or]; simp
  · have hready := gotoxy_ready_ready h x y
    have hsync := fun hc => gotoxy_ready_sync h hc x y
    rw [gotoxy_ready h] at hready hsync ⊢
    exact ⟨rfl, rfl, rfl, fun _ hne => Lcd.goto_regs_other hne _ _, hsync, hready, rfl, rfl, rfl, rfl⟩

end Sys2Proof.Machine
end

section
/-! SUPPORT. The byte port of the cache (41_cache_access.md R90 to R93): WRDATA from any cursor, with and without SYNC,
what a run of WRDATAs leaves behind, and RDDATA. -/

namespace Sys2Proof.Machine

/-! ### WRDATA from any cursor with a live transport -/

section

variable {s : State} (h : s.Ready) (d : Byte) (inv : Bit)
include h

theorem wrdata_ready_cursor : (wrdata d inv s).cursor = movedCursor s.cursor := by
  rw [wrdata_ready h, advance_cursor, stored_cursor]

theorem wrdata_ready_tx :
    (wrdata d inv s).tx = s.tx ++ dataTxs s.params (dataByte d inv) s.cursor.pos := by
  have htx : (stored (dataByte d inv) s).tx = s.tx ++ [Tx.data s.cursor.cs (dataByte d inv)] := by simp [stored]
  rw [wrdata_ready h, advance_ready (stored_ready h _)]
  dsimp only
  rw [htx, stored_params, stored_cursor, List.append_assoc]
  rfl

theorem wrdata_ready_readCache (a : CacheAddr) :
    (wrdata d inv s).readCache a = if a = s.cursor.offset then dataByte d inv else s.readCache a := by
  have hi := stored_idle h.1 (dataByte d inv)
  rw [wrdata_ready h, State.readCache_congr (advance_memories hi).1 (advance_sameRest hi).resets, stored_readCache]

/-- The display stores the byte at the hardware cursor of the selected half, wherever the logical one is. -/
theorem wrdata_ready_ramAt (a : CacheAddr) :
    (wrdata d inv s).lcd.ramAt a = if a = s.lcd.target s.cursor.cs then dataByte d inv else s.lcd.ramAt a := by
  obtain ⟨-, hram, -⟩ := advance_memories (stored_idle h.1 (dataByte d inv))
  rw [wrdata_ready h, Lcd.ramAt, hram]
  exact stored_ramAt _ s a

/-- Without well-formed parameters too: the two stores come before the commands of the wrap. -/
theorem wrdata_ready_coherent (hsync : s.Sync) (hc : s.cursor.Tracked) (hs : s.Coherent) :
    (wrdata d inv s).Coherent := by
  have hi := stored_idle h.1 (dataByte d inv)
  rw [wrdata_ready h]
  exact (stored_coherent hs hsync hc _).congr (advance_memories hi) (advance_sameRest hi).resets

end

/-- WRDATA below column 63 goes one column to the right, by one transaction (R90). -/
theorem wrdata_ready_of_lt {s : State} (h : s.Ready) (hcol : s.cursor.col < 63) (d : Byte) (inv : Bit) :
    (wrdata d inv s).cursor = { s.cursor with col := s.cursor.col + 1, offset := s.cursor.offset + 8 } ∧
      (wrdata d inv s).tx = s.tx ++ [Tx.data s.cursor.cs (dataByte d inv)] := by
  have h63 : s.cursor.pos.col ≠ 63 := (col_lt_iff _).mp hcol
  rw [wrdata_ready_cursor h, wrdata_ready_tx h, movedCursor, dataTxs, if_pos hcol, if_neg h63]
  exact ⟨rfl, rfl⟩

/-- WRDATA in column 63 goes to the next position by a GOTOXY (R90). -/
theorem wrdata_ready_of_col_63 {s : State} (h : s.Ready) (hcol : s.cursor.col = 63) (d : Byte) (inv : Bit) :
    (wrdata d inv s).cursor = Cursor.ofPos (nextPos s.cursor.pos) ∧
      (wrdata d inv s).tx =
        s.tx ++ Tx.data s.cursor.cs (dataByte d inv) :: gotoTxs s.params (nextPos s.cursor.pos) := by
  have h63 : ¬ s.cursor.col < 63 := fun hlt => (col_lt_iff _).mp hlt hcol
  rw [wrdata_ready_cursor h, wrdata_ready_tx h, movedCursor, dataTxs, if_neg h63,
    if_pos (show s.cursor.pos.col = 63 from hcol)]
  exact ⟨rfl, rfl⟩

/-- Settles O20: the advance in its two shapes, `wrdata_ready_of_lt` and `wrdata_ready_of_col_63`; the two wraps of R90
are the two cases of `nextPos` in column 63. -/
theorem wrdataSendsStoresAndAdvances : Obligations.WrdataSendsStoresAndAdvances := by
  refine fun s d inv => ⟨by rw [encode, cw24_eq_or]; simp, fun h => ?_⟩
  have hrest := wrdata_sameRest h.1 d inv
  refine ⟨wrdata d inv s, dataByte d inv, exec_idle h.1 _, rfl, fun hcol => wrdata_ready_of_lt h hcol d inv,
    fun hcol hcs => ?_, fun hcol hcs => ?_, wrdata_ready_readCache h d inv, wrdata_ready_ready h d inv, hrest.box,
    hrest.batch, hrest.rsp⟩
  · have hwrap := wrdata_ready_of_col_63 h hcol d inv
    rw [nextPos_of_col_63_chip1 (p := s.cursor.pos) hcol hcs, hcs] at hwrap
    exact hwrap
  · have hwrap := wrdata_ready_of_col_63 h hcol d inv
    rw [nextPos_of_col_63_chip2 (p := s.cursor.pos) hcol hcs, hcs] at hwrap
    exact hwrap

/-- Settles O48: the two stores need no SYNC (`wrdata_ready_readCache`, `wrdata_ready_ramAt`); under SYNC the hardware
cursor is at OFFSET (`target_of_sync`), and the rest is `Wrote` at the cursor's position. -/
theorem wrdataUnderSyncWritesOneAddress : Obligations.WrdataUnderSyncWritesOneAddress := by
  intro s d inv h
  refine ⟨wrdata d inv s, exec_idle h.1 _, ?_, wrdata_ready_ramAt h d inv, fun hsync hc => ?_⟩
  · rw [wrdata_ready_readCache h, if_pos rfl]
  · have hw := wrdata_wrote h hc d inv
    have hoff : s.cursor.offset = cacheOffset s.cursor.pos := congrArg Cursor.offset hc
    rw [hoff]
    exact ⟨target_of_sync hsync, fun hwf => hw.sync hwf hsync, hw.cursor, hw.valid hsync, hw.dirty hsync,
      wrdata_ready_coherent h d inv hsync hc⟩

/-! ### RDDATA -/

theorem rddata_accepted {s : State} (hi : s.Idle) {r : Receiver} (hr : s.reader.accept = some r) :
    rddata s = { s with reader := r, rsp := s.rsp ++ [s.readCache s.cursor.offset] } := by
  rw [rddata, State.respond, State.andThen_idle hi, State.offerRsp, hr]

/-- Settles O21: the answer is one update of RSP and of the reader, `rddata_accepted`. -/
theorem rddataAnswersTheByteUnderTheCursor : Obligations.RddataAnswersTheByteUnderTheCursor :=
  ⟨by decide, fun _ _ hi hr => (exec_idle hi _).trans (congrArg _ (rddata_accepted hi hr))⟩

/-! ### Sequences of commands -/

theorem execAll_cons {s : State} (hi : s.Idle) (i : Instr) (is : List Instr) :
    execAll (i :: is) s = execAll is (bodyOf i s) := by
  rw [execAll, exec_idle hi]

/-- RDDATA as the last command of a sequence. -/
theorem execAll_rddata {s : State} (hi : s.Idle) (hr : s.reader = .live) :
    ∃ t, execAll [.rddata] s = .next t ∧ t.rsp = s.rsp ++ [s.readCache s.cursor.offset] :=
  ⟨{ s with rsp := s.rsp ++ [s.readCache s.cursor.offset] }, by simp only [execAll, rddata_live hi hr], rfl⟩

/-- Between two visits of one address lie 1024 steps of `next`. -/
theorem cacheOffset_iterate_nextPos_ne {k : Nat} (h0 : 0 < k) (hk : k < 1024) (p : Pos) :
    cacheOffset (nextPos^[k] p) ≠ cacheOffset p := by
  intro e
  have hback := (iterate_nextPos_eq_iff k p p).mp (cacheOffset_injective e)
  have := visitIndex_lt p
  omega

/-- Settles O49: WRDATA stores at the position GOTOXY addressed (`Wrote.reads`), and the second GOTOXY keeps CACHE;
without it the cursor is at the next position, another address. -/
theorem writtenByteIsReadBack : Obligations.WrittenByteIsReadBack := by
  refine ⟨fun s x y d inv h hr => ?_, fun s d inv h hr hc => ?_⟩
  · have hg := gotoxy_flushed h x y
    have hw := wrdata_wrote hg.ready (gotoxy_cursor x y s) d inv
    have hg' := gotoxy_flushed hw.ready x y
    obtain ⟨t, ht, hrsp⟩ := execAll_rddata hg'.ready.1 (hg'.reader.trans (hw.reader.trans (hg.reader.trans hr)))
    refine ⟨t, ?_, ?_⟩
    · exact (execAll_cons h.1 _ _).trans
        ((execAll_cons hg.ready.1 _ _).trans ((execAll_cons hw.ready.1 _ _).trans ht))
    · rw [hrsp, hg'.rsp, hw.rsp, hg.rsp, gotoxy_cursor, hg'.reads, hw.reads, Cursor.ofPos_offset, if_pos rfl]
  · have hw := wrdata_wrote h hc d inv
    have hne : cacheOffset (nextPos s.cursor.pos) ≠ cacheOffset s.cursor.pos :=
      cacheOffset_iterate_nextPos_ne (k := 1) (by decide) (by decide) _
    obtain ⟨t, ht, hrsp⟩ := execAll_rddata hw.ready.1 (hw.reader.trans hr)
    refine ⟨t, (execAll_cons h.1 _ _).trans ht, ?_⟩
    rw [hrsp, hw.rsp, hw.cursor, Cursor.ofPos_offset, hw.reads, if_neg hne]

/-! ### Runs of WRDATA -/

/-- What a run of WRDATAs that stores the bytes `vs` from position `p` on does: byte `k` to the position `k` steps of
`next` further, no other byte of CACHE changed, and the transactions of `runTxs` (41_cache_access.md R92). -/
structure WroteRun (p : Pos) (vs : List Byte) (s t : State) : Prop where
  ready : t.Ready
  cursor : t.cursor = Cursor.ofPos (nextPos^[vs.length] p)
  tx : t.tx = s.tx ++ runTxs s.params vs p
  reads : ∀ (k : Nat) (v : Byte), vs[k]? = some v → t.readCache (cacheOffset (nextPos^[k] p)) = v
  readsOther : ∀ a, (∀ k < vs.length, a ≠ cacheOffset (nextPos^[k] p)) → t.readCache a = s.readCache a

theorem WroteRun.nil {s : State} {p : Pos} (h : s.Ready) (hc : s.cursor = Cursor.ofPos p) : WroteRun p [] s s where
  ready := h
  cursor := hc
  tx := (List.append_nil _).symm
  reads _ _ hv := nomatch hv
  readsOther _ _ := rfl

/-- One byte, then a run from the next position on; within 1024 bytes the run does not come back to the first. -/
theorem Wrote.run {p : Pos} {v : Byte} {vs : List Byte} {s t u : State} (h : Wrote p v s t)
    (g : WroteRun (nextPos p) vs t u) (hlen : vs.length < 1024) : WroteRun p (v :: vs) s u where
  ready := g.ready
  cursor := g.cursor
  tx := by rw [g.tx, h.tx, h.params, List.append_assoc]; rfl
  reads k w hw := by
    cases k with
    | zero =>
      obtain rfl : v = w := Option.some.inj hw
      have hnot : ∀ k < vs.length, cacheOffset p ≠ cacheOffset (nextPos^[k] (nextPos p)) := fun k hk =>
        (cacheOffset_iterate_nextPos_ne (k := k + 1) (by omega) (by omega) p).symm
      exact (g.readsOther _ hnot).trans ((h.reads _).trans (if_pos rfl))
    | succ k => exact g.reads k w hw
  readsOther a ha := by
    have hfirst : a ≠ cacheOffset p := ha 0 (Nat.succ_pos _)
    rw [g.readsOther a fun k hk => ha (k + 1) (Nat.succ_lt_succ hk), h.reads, if_neg hfirst]

theorem execAll_wrdata_run (ds : List (Byte × Bit)) : ∀ {s : State} {p : Pos}, s.Ready → s.cursor = Cursor.ofPos p →
    ds.length ≤ 1024 → ∃ t, execAll (ds.map fun q => .wrdata q.1 q.2) s = .next t ∧
      WroteRun p (ds.map fun q => dataByte q.1 q.2) s t := by
  induction ds with
  | nil => exact fun {s p} h hc _ => ⟨s, rfl, .nil h hc⟩
  | cons q ds ih =>
    intro s p h hc hlen
    have hw := wrdata_wrote h hc q.1 q.2
    obtain ⟨t, ht, hrun⟩ := ih hw.ready hw.cursor (Nat.le_of_succ_le hlen)
    exact ⟨t, (execAll_cons h.1 _ _).trans ht, hw.run hrun (by rw [List.length_map]; exact hlen)⟩

/-- Settles O51: the run by induction on its bytes (`execAll_wrdata_run`); the marks are distances in the order
`visitIndex`. -/
theorem runOfWrdataWalksTheDisplay : Obligations.RunOfWrdataWalksTheDisplay := by
  refine ⟨fun s p ds h hc hlen => ?_, ?_, ?_, iterate_nextPos_1024⟩
  · obtain ⟨t, ht, hrun⟩ := execAll_wrdata_run ds h hc hlen
    obtain ⟨hready, hcursor, htx, hreads, hother⟩ := hrun
    rw [List.length_map] at hcursor hother
    exact ⟨t, ht, hready, hcursor, htx, fun k q hq => hreads k _ (by rw [List.getElem?_map, hq]; rfl), hother⟩
  · exact (iterate_nextPos_eq_iff _ _ _).mpr (by decide)
  · exact (iterate_nextPos_eq_iff _ _ _).mpr (by decide)

end Sys2Proof.Machine
end

section
/-! SUPPORT. SETPIX (42_setpixel.md R100 to R105): the bit update, what both modes do to CACHE and the cursor, and what
each does to TX, the box and the display. -/

namespace Sys2Proof.Machine

/-! ### The bit update -/

theorem setBit_getLsbD_same (b : Byte) (i : BitVec 3) (val : Bit) :
    (setBit b i val).getLsbD i.toNat = decide (val = 1) := by
  have hmask : ((1 : Byte) <<< i.toNat).getLsbD i.toNat = true := by simpa using i.isLt
  rcases bit_cases val with rfl | rfl
  · rw [setBit, if_neg (by decide), BitVec.getLsbD_and, BitVec.getLsbD_not, hmask]; simp
  · rw [setBit, if_pos rfl, BitVec.getLsbD_or, hmask, Bool.or_true]; rfl

theorem setBit_getLsbD {j : Nat} (hj : j < 8) (b : Byte) (i : BitVec 3) (val : Bit) :
    (setBit b i val).getLsbD j = if j = i.toNat then decide (val = 1) else b.getLsbD j := by
  by_cases hji : j = i.toNat
  · rw [if_pos hji, hji, setBit_getLsbD_same]
  · rw [if_neg hji, setBit_getLsbD_other hj hji]

/-- Of two updates of one bit the second counts. -/
theorem setBit_setBit_same (b : Byte) (i : BitVec 3) (val val' : Bit) :
    setBit (setBit b i val) i val' = setBit b i val' := by
  refine BitVec.eq_of_getLsbD_eq fun j hj => ?_
  simp only [setBit_getLsbD hj]
  split <;> rfl

theorem setBit_eq_self_iff (b : Byte) (i : BitVec 3) (val : Bit) :
    setBit b i val = b ↔ b.getLsbD i.toNat = decide (val = 1) := by
  refine ⟨fun e => ?_, fun hbit => BitVec.eq_of_getLsbD_eq fun j hj => ?_⟩
  · rw [← setBit_getLsbD_same b i val, e]
  · by_cases hji : j = i.toNat
    · rw [hji, setBit_getLsbD_same, hbit]
    · exact setBit_getLsbD_other hj hji b val

/-- Set then clear of one bit clears it, and restores the byte exactly when the bit was 0 (R100). -/
theorem setBit_one_zero (b : Byte) (i : BitVec 3) :
    setBit (setBit b i 1) i 0 = b &&& ~~~((1 : Byte) <<< i.toNat) ∧
      (setBit (setBit b i 1) i 0 = b ↔ b.getLsbD i.toNat = false) := by
  rw [setBit_setBit_same]
  exact ⟨rfl, setBit_eq_self_iff b i 0⟩

theorem pixelBit_toNat (y : Byte) : (pixelBit y).toNat = (clampY y).toNat % 8 := by
  have hmask : (clampY y).toNat &&& 7 = (clampY y).toNat % 8 := Nat.and_two_pow_sub_one_eq_mod _ 3
  rw [pixelBit, BitVec.toNat_setWidth, BitVec.toNat_and]
  exact (congrArg (· % 8) hmask).trans (Nat.mod_mod _ 8)

/-- Settles O18: the bits are `setBit_getLsbD`, set then clear is `setBit_one_zero`, and the index is the clamped y
modulo 8. -/
theorem setBitChangesOneBit : Obligations.SetBitChangesOneBit := by
  refine ⟨fun b i val j hj => setBit_getLsbD hj b i val, setBit_one_zero, fun y => ?_⟩
  rw [pixelBit_toNat, clampY_toNat]
  split <;> rfl

/-! ### SETPIX with BATCH = 0 and a live transport -/

section

variable {s : State} (h : s.Ready) (x y : Byte)
include h

/-- The two GOTOXYs of immediate SETPIX emit four transactions, establish SYNC and leave CACHE and the display. -/
theorem gotoxy_twice :
    Flushed (fun _ => False) s (gotoxy x y (gotoxy x y s)) ∧
      (s.params.Wf → (gotoxy x y (gotoxy x y s)).Sync) ∧
      (gotoxy x y (gotoxy x y s)).tx =
        s.tx ++ gotoTxs s.params (pixelPos x y) ++ gotoTxs s.params (pixelPos x y) := by
  have h1 := gotoxy_flushed h x y
  refine ⟨(h1.trans (gotoxy_flushed h1.ready x y)).congr fun a => by simp,
    fun w => gotoxy_ready_sync h1.ready (h1.params ▸ w) x y, ?_⟩
  rw [gotoxy_gotoxy h, gotoxy_ready h]

/-- Immediate SETPIX is WRDATA of the changed byte at the pixel's position, after two GOTOXYs (R102). -/
theorem setpix_immediate_wrote (hb : s.batch = 0) (val : Bit) :
    Wrote (pixelPos x y) (setBit (s.readCache (pixelAddr x y)) (pixelBit y) val)
      (gotoxy x y (gotoxy x y s)) (setpix x y val s) := by
  have e : setpix x y val s =
      wrdata (setBit (s.readCache (pixelAddr x y)) (pixelBit y) val) 0 (gotoxy x y (gotoxy x y s)) := by
    rw [setpix_immediate_ready h hb, gotoxy_ready (gotoxy_ready_ready h x y), gotoxy_ready h]
  rw [e]
  exact wrdata_wrote (gotoxy_twice h x y).1.ready (gotoxy_cursor x y _) _ 0

theorem setpix_immediate_tx (hb : s.batch = 0) (val : Bit) :
    (setpix x y val s).tx = s.tx ++ gotoTxs s.params (pixelPos x y) ++ gotoTxs s.params (pixelPos x y) ++
      dataTxs s.params (setBit (s.readCache (pixelAddr x y)) (pixelBit y) val) (pixelPos x y) := by
  obtain ⟨hg, -, htx⟩ := gotoxy_twice h x y
  rw [(setpix_immediate_wrote h x y hb val).tx, htx, hg.params]

theorem setpix_immediate_reads (hb : s.batch = 0) (val : Bit) (a : CacheAddr) :
    (setpix x y val s).readCache a =
      if a = pixelAddr x y then setBit (s.readCache (pixelAddr x y)) (pixelBit y) val else s.readCache a := by
  rw [(setpix_immediate_wrote h x y hb val).reads, (gotoxy_twice h x y).1.reads]
  rfl

/-- Immediate SETPIX leaves the hardware cursor at the logical one and the changed byte on the display, whatever the
hardware cursor was (R102, R104). -/
theorem setpix_immediate_shows (hb : s.batch = 0) (val : Bit) (w : s.params.Wf) :
    (setpix x y val s).Sync ∧ (pixelAddr x y).toNat ∈ (setpix x y val s).ghost.valid ∧
      (pixelAddr x y).toNat ∉ (setpix x y val s).ghost.dirty ∧
      ∀ a, (setpix x y val s).lcd.ramAt a =
        if a = pixelAddr x y then (setpix x y val s).readCache a else s.lcd.ramAt a := by
  obtain ⟨hg, hsync, -⟩ := gotoxy_twice h x y
  have hw := setpix_immediate_wrote h x y hb val
  refine ⟨hw.sync (hg.params ▸ w) (hsync w), (hw.valid (hsync w) _).mpr (.inl rfl),
    fun hd => ((hw.dirty (hsync w) _).mp hd).2 rfl, fun a => ?_⟩
  rw [hw.shows (hsync w), hw.reads, hg.showsOut w a id]
  show (if a = pixelAddr x y then _ else _) = _
  split
  · exact (if_pos ‹a = cacheOffset (pixelPos x y)›).symm
  · rfl

end

theorem dataTxs_length (c : Params) (v : Byte) (p : Pos) :
    (dataTxs c v p).length = if p.col = 63 then 3 else 1 := by
  unfold dataTxs
  split <;> rfl

theorem setpix_immediate_tx_length {s : State} (h : s.Ready) (hb : s.batch = 0) (x y : Byte) (val : Bit) :
    (setpix x y val s).tx.length = s.tx.length + if (pixelPos x y).col = 63 then 7 else 5 := by
  have hgoto : (gotoTxs s.params (pixelPos x y)).length = 2 := rfl
  simp only [setpix_immediate_tx h x y hb, List.length_append, hgoto, dataTxs_length]
  split <;> rfl

/-- Settles O23: the tx stream is `setpix_immediate_tx`, and the rest is the WRDATA of the changed byte. -/
theorem setpixImmediateWritesThrough : Obligations.SetpixImmediateWritesThrough := by
  intro s x y val h hb
  obtain ⟨hg, -, -⟩ := gotoxy_twice h x y
  have hw := setpix_immediate_wrote h x y hb val
  exact ⟨setpix x y val s, _, exec_idle h.1 _, rfl, setpix_immediate_tx h x y hb val, hw.cursor,
    setpix_immediate_reads h x y hb val, hw.ready, hw.box.trans hg.box, (hw.batch.trans hg.batch).trans hb,
    hw.rsp.trans hg.rsp⟩

/-! ### SETPIX with BATCH = 1 -/

theorem setpix_deferred_reads {s : State} (hb : s.batch = 1) (x y : Byte) (val : Bit) (a : CacheAddr) :
    (setpix x y val s).readCache a =
      if a = pixelAddr x y then setBit (s.readCache (pixelAddr x y)) (pixelBit y) val else s.readCache a := by
  rw [setpix_deferred hb]
  exact s.readCache_writeCache a (pixelAddr x y) _

/-- The box widened with a point, as numbers (43_coalescer.md R111). -/
theorem Box.widen_toNat (b : Box) (x y : Byte) :
    (b.widen x y).left.toNat = min b.left.toNat x.toNat ∧ (b.widen x y).right.toNat = max b.right.toNat x.toNat ∧
      (b.widen x y).top.toNat = min b.top.toNat y.toNat ∧ (b.widen x y).bottom.toNat = max b.bottom.toNat y.toNat :=
  ⟨minByte_toNat _ _, maxByte_toNat _ _, minByte_toNat _ _, maxByte_toNat _ _⟩

/-- Settles O24: deferred SETPIX is one update of the state, `setpix_deferred`. -/
theorem setpixDeferredStaysInTheCache : Obligations.SetpixDeferredStaysInTheCache := by
  intro s x y val hi hb
  have hreads := setpix_deferred_reads hb x y val
  obtain ⟨hleft, hright, htop, hbottom⟩ := s.box.widen_toNat (clampX x) (clampY y)
  refine ⟨setpix x y val s, exec_idle hi _, fun a => ?_, ?_⟩
  · rw [hreads]
    split
    · rw [‹a = _›]
    · rfl
  · rw [setpix_deferred hb]
    exact ⟨rfl, hleft, hright, htop, hbottom, hi, rfl, rfl, rfl, hb⟩

/-! ### Both modes -/

/-- What SETPIX does in both modes when nothing blocks: the pixel's byte changed in CACHE, the cursor one position past
it (R101, R104). -/
structure PixelSet (x y : Byte) (val : Bit) (s t : State) : Prop where
  ready : t.Ready
  cursor : t.cursor = Cursor.ofPos (nextPos (pixelPos x y))
  reads : ∀ a, t.readCache a =
    if a = pixelAddr x y then setBit (s.readCache (pixelAddr x y)) (pixelBit y) val else s.readCache a
  batch : t.batch = s.batch
  rsp : t.rsp = s.rsp

theorem setpix_pixelSet {s : State} (h : s.Ready) (x y : Byte) (val : Bit) :
    PixelSet x y val s (setpix x y val s) := by
  rcases bit_cases s.batch with hb | hb
  · obtain ⟨hg, -, -⟩ := gotoxy_twice h x y
    have hw := setpix_immediate_wrote h x y hb val
    exact ⟨hw.ready, hw.cursor, setpix_immediate_reads h x y hb val, hw.batch.trans hg.batch, hw.rsp.trans hg.rsp⟩
  · have hreads := setpix_deferred_reads hb x y val
    rw [setpix_deferred hb] at hreads ⊢
    exact ⟨h, rfl, hreads, rfl, rfl⟩

/-- Of all the bits of CACHE exactly the pixel's becomes `val` (R101). -/
theorem PixelSet.getLsbD {x y : Byte} {val : Bit} {s t : State} (hp : PixelSet x y val s t) (a : CacheAddr) {j : Nat}
    (hj : j < 8) : (t.readCache a).getLsbD j =
      if a = pixelAddr x y ∧ j = (clampY y).toNat % 8 then decide (val = 1) else (s.readCache a).getLsbD j := by
  rw [hp.reads, ite_and]
  split
  · rw [setBit_getLsbD hj, pixelBit_toNat, ‹a = _›]
  · rfl

/-- Settles O22: both modes are `PixelSet`, and the update of the byte is one of one bit. -/
theorem setpixSetsOnePixel : Obligations.SetpixSetsOnePixel := by
  refine fun s x y val => ⟨by rw [encode, cw24_eq_or]; rfl, fun h => ?_⟩
  have hp := setpix_pixelSet h x y val
  exact ⟨setpix x y val s, exec_idle h.1 _, hp.ready, fun a j hj => hp.getLsbD a hj, congrArg Cursor.pos hp.cursor,
    by rw [hp.cursor]; rfl, hp.batch, hp.rsp⟩

/-- Settles O45: CACHE and the cursor are those of `PixelSet` in both modes; the differences are the WRDATA under SYNC
of the immediate mode (`setpix_immediate_shows`) and the one update of the deferred mode. -/
theorem setpixModesAgree : Obligations.SetpixModesAgree := by
  intro s x y val h hb
  have h' : ({ s with batch := 1 } : State).Ready := h
  have ht := setpix_pixelSet h x y val
  have hu := setpix_pixelSet h' x y val
  obtain ⟨hg, -, -⟩ := gotoxy_twice h x y
  have hw := setpix_immediate_wrote h x y hb val
  refine ⟨setpix x y val s, setpix x y val { s with batch := 1 }, exec_idle h.1 _, exec_idle h'.1 _,
    ht.cursor.trans hu.cursor.symm, fun a => (ht.reads a).trans (hu.reads a).symm,
    setpix_immediate_tx_length h hb x y val, ?_, hw.box.trans hg.box, ?_, setpix_immediate_shows h x y hb val, ?_⟩ <;>
    rw [setpix_deferred rfl]
  exact ⟨rfl, rfl, fun _ => AddrSet.mem_insert⟩

/-- Settles O46: the second SETPIX finds the byte the first one stored, so that it clears the bit the first one set
(`setBit_one_zero`). -/
theorem setThenClearOfAPixel : Obligations.SetThenClearOfAPixel := by
  intro s x y h
  have hset := setpix_pixelSet h x y 1
  have hclear := setpix_pixelSet hset.ready x y 0
  have hbyte : (setpix x y 0 (setpix x y 1 s)).readCache (pixelAddr x y) =
      setBit (setBit (s.readCache (pixelAddr x y)) (pixelBit y) 1) (pixelBit y) 0 := by
    rw [hclear.reads, if_pos rfl, hset.reads, if_pos rfl]
  refine ⟨setpix x y 0 (setpix x y 1 s), (execAll_cons h.1 _ _).trans (execAll_cons hset.ready.1 _ _), ?_, ?_,
    fun a ha => ?_⟩
  · rw [hbyte]; exact (setBit_one_zero _ _).1
  · rw [hbyte]; exact (setBit_one_zero _ _).2
  · rw [hclear.reads, if_neg ha, hset.reads, if_neg ha]

end Sys2Proof.Machine
end

section
/-! SUPPORT. A command that completes does so as with a live transport (60_exceptions.md R127): the transport's
readiness is the only difference between the two runs, up to a flush of DWEND. -/

namespace Sys2Proof.Machine

/-- The same state with a transport that accepts every transaction. -/
def State.onLive (s : State) : State := { s with transport := .live }

/-- `u` is where the live transport leads if `s` is not blocked. -/
def LiveTwin (s u : State) : Prop := s.Idle → u = s.onLive

theorem State.onLive_ready {s : State} (hi : s.Idle) : s.onLive.Ready := ⟨hi, rfl⟩

theorem LiveTwin.of_offer {s : State} {o : Offer} (h : s.offer = some o) (u : State) : LiveTwin s u :=
  fun hi => nomatch h.symm.trans hi

theorem LiveTwin.andThen {s u : State} {f : State → State} (h : LiveTwin s u)
    (hf : s.Idle → LiveTwin (f s) (f s.onLive)) : LiveTwin (s.andThen f) (u.andThen f) := by
  rcases s.andThen_cases f with ⟨hi, e⟩ | ⟨o, ho, e⟩ <;> rw [e]
  · rw [h hi, State.andThen_idle (State.onLive_ready hi).1]
    exact hf hi
  · exact .of_offer ho _

theorem gotoxy_liveTwin {s : State} (hi : s.Idle) (x y : Byte) : LiveTwin (gotoxy x y s) (gotoxy x y s.onLive) := by
  rcases gotoxy_cases hi x y with ⟨-, e⟩ | ⟨r, -, -, e⟩ | ⟨r, r', -, -, e⟩ <;> rw [e]
  · exact .of_offer rfl _
  · exact .of_offer rfl _
  · exact fun _ => gotoxy_ready (State.onLive_ready hi) x y

/-- GOTOXY sees only the position of its operands. -/
theorem gotoxy_congr {x y x' y' : Byte} (h : pixelPos x y = pixelPos x' y') (s : State) :
    gotoxy x y s = gotoxy x' y' s := by
  show ((s.moveTo (pixelPos x y)).emit (Tx.setPage s.params (pixelPos x y))).emit
    (Tx.setCol s.params (pixelPos x y)) = _
  rw [h]
  rfl

theorem advance_liveTwin {s : State} (hi : s.Idle) : LiveTwin (advance s) (advance s.onLive) := by
  by_cases h : s.cursor.col < 63
  · have h' : s.onLive.cursor.col < 63 := h
    rw [advance_fast h, advance_fast h']
    exact fun _ => rfl
  · obtain ⟨x, y, e, hp⟩ := advance_wrap h
    obtain ⟨x', y', e', hp'⟩ := advance_wrap (s := s.onLive) h
    rw [e, e', gotoxy_congr (hp'.trans hp.symm)]
    exact gotoxy_liveTwin hi x y

theorem wrdata_liveTwin {s : State} (hi : s.Idle) (d : Byte) (inv : Bit) :
    LiveTwin (wrdata d inv s) (wrdata d inv s.onLive) := by
  rcases wrdata_cases hi d inv with ⟨-, e⟩ | ⟨r, -, e⟩ <;> rw [e]
  · exact .of_offer rfl _
  · rw [wrdata_ready (State.onLive_ready hi)]
    exact advance_liveTwin (stored_idle (s := { s with transport := r }) hi _)

/-! ### The flush -/

theorem flushBytes_liveTwin (n : Nat) :
    ∀ {s u : State}, LiveTwin s u → LiveTwin (flushBytes n s) (flushBytes n u) := by
  induction n with
  | zero => exact fun h => h
  | succ n ih => exact fun h => ih (h.andThen fun hi => wrdata_liveTwin hi _ 0)

theorem flushRow_liveTwin {s u : State} (h : LiveTwin s u) (hbox : u.box = s.box) (yy : Byte) :
    LiveTwin (flushRow yy s) (flushRow yy u) := by
  unfold flushRow
  rw [hbox]
  exact (h.andThen fun hi => gotoxy_liveTwin hi _ yy).andThen fun _ => flushBytes_liveTwin _ fun _ => rfl

theorem flushRow_box (yy : Byte) (s : State) : (flushRow yy s).box = s.box :=
  flushRow_keeps (P := fun u => u.box = s.box) (fun _ x y hi h => (gotoxy_sameRest hi x y).box.trans h)
    (fun _ hi h => (wrdata_sameRest hi _ _).box.trans h) rfl yy

theorem flushRows_liveTwin (fuel : Nat) : ∀ {s u : State} (yy : Byte), LiveTwin s u → u.box = s.box →
    LiveTwin (flushRows fuel yy s) (flushRows fuel yy u) := by
  induction fuel with
  | zero => exact fun _ h _ => h
  | succ fuel ih =>
    intro s u yy h hbox
    rw [flushRows, flushRows, hbox]
    split
    · exact ih _ (flushRow_liveTwin h hbox yy) (by rw [flushRow_box, flushRow_box, hbox])
    · exact h

theorem flushBox_liveTwin (s : State) : LiveTwin (flushBox s) (flushBox s.onLive) := by
  have hbox : s.onLive.box = s.box := rfl
  rw [flushBox, flushBox, hbox]
  split
  · exact flushRows_liveTwin 8 _ (fun _ => rfl) hbox
  · exact fun _ => rfl

theorem dwend_liveTwin (s : State) : LiveTwin (dwend s) (dwend s.onLive) := by
  rcases bit_cases s.batch with hb | hb
  · rw [dwend_noBatch hb, dwend_noBatch (s := s.onLive) hb]
    exact fun _ => rfl
  · have hflush := (flushBox_liveTwin (s.setBox s.box.clamp)).andThen fun hi =>
      gotoxy_liveTwin hi (logX s.cursor.cs s.cursor.col) (logY s.cursor.page)
    rw [dwend, dwend, if_pos hb, if_pos (show s.onLive.InBatch from hb)]
    exact hflush.andThen (f := State.setBatch 0) fun _ _ => rfl

end Sys2Proof.Machine
end

section
/-! SUPPORT. What is dirty (20_memory.md R49): the box covers it in a batch, nothing is outside one, and every step
keeps that (43_coalescer.md R115, R117 item 5). -/

namespace Sys2Proof.Machine

/-! ### What a box covers -/

/-- The clamp takes no address from a box: every address is on the canvas. -/
theorem Box.Covers.clamp {b : Box} {a : CacheAddr} (h : b.Covers a) : b.clamp.Covers a := by
  have := a.isLt
  have h127 : (127 : Byte).toNat = 127 := rfl
  have h63 : (63 : Byte).toNat = 63 := rfl
  simp only [Box.Covers, Box.Nonempty, Box.clamp, BitVec.le_def, shiftRight3_toNat, minByte_toNat, addrX_toNat,
    addrPage_toNat, h127, h63] at *
  omega

theorem Box.Covers.widen {b : Box} {a : CacheAddr} (h : b.Covers a) (x y : Byte) : (b.widen x y).Covers a := by
  obtain ⟨-, hl, hr, ht, hb⟩ := h
  refine ⟨b.widen_nonempty x y, ?_⟩
  simp only [Box.widen, BitVec.le_def, shiftRight3_toNat, minByte_toNat, maxByte_toNat] at *
  omega

/-- A box widened with the clamped coordinates of a pixel covers the pixel's byte. -/
theorem Box.widen_covers_pixelAddr (b : Box) (x y : Byte) :
    (b.widen (clampX x) (clampY y)).Covers (pixelAddr x y) := by
  have haddr : (pixelAddr x y).toNat = _ := cacheOffset_canvasPos (clampX_le x) (clampY_le y)
  have hy := clampY_le y
  refine ⟨b.widen_nonempty _ _, ?_⟩
  simp only [Box.widen, BitVec.le_def, shiftRight3_toNat, minByte_toNat, maxByte_toNat, addrX_toNat, addrPage_toNat,
    haddr]
  omega

/-! ### DIRTY under the operations -/

theorem advance_ghost {s : State} (hi : s.Idle) : (advance s).ghost = s.ghost := (advance_memories hi).2.2

/-- WRDATA, completed or stalled, makes nothing dirty. -/
theorem wrdata_dirty_subset {s : State} (hi : s.Idle) (d : Byte) (inv : Bit) :
    (wrdata d inv s).ghost.dirty ⊆ s.ghost.dirty := by
  rcases wrdata_cases hi d inv with ⟨-, e⟩ | ⟨r, -, e⟩ <;> rw [e]
  · exact List.Subset.refl _
  · rw [advance_ghost (stored_idle (s := { s with transport := r }) hi _)]
    rcases stored_dirty (dataByte d inv) { s with transport := r } with e | e <;> rw [e]
    · exact List.Subset.refl _
    · exact fun _ hk => (AddrSet.mem_remove.mp hk).1

theorem gotoxy_ghost {s : State} (hi : s.Idle) (x y : Byte) : (gotoxy x y s).ghost = s.ghost :=
  (gotoxy_memories hi x y).2.2

/-- A flush, completed or stalled, makes nothing dirty. -/
theorem dwend_dirty_subset (s : State) : (dwend s).ghost.dirty ⊆ s.ghost.dirty := by
  have hg : ∀ (u : State) (x y : Byte), u.Idle → u.ghost.dirty ⊆ s.ghost.dirty →
      (gotoxy x y u).ghost.dirty ⊆ s.ghost.dirty := fun u x y hi h => by rw [gotoxy_ghost hi]; exact h
  have hw : ∀ (u : State) (d : Byte), u.Idle → u.ghost.dirty ⊆ s.ghost.dirty →
      (wrdata d 0 u).ghost.dirty ⊆ s.ghost.dirty := fun u d hi h => List.Subset.trans (wrdata_dirty_subset hi d 0) h
  exact dwend_keeps (P := fun u => u.ghost.dirty ⊆ s.ghost.dirty) (List.Subset.refl _) (List.Subset.refl _)
    (fun _ yy h => flushRow_keeps hg (fun u => hw u _) h yy) hg fun _ h => h

/-! ### The invariant under the commands -/

theorem State.DirtyInv.of_empty {s : State} (h : s.ghost.dirty = []) : s.DirtyInv :=
  ⟨fun _ => h, fun _ hk => absurd (h ▸ hk) List.not_mem_nil⟩

/-- Fewer dirty addresses and a box that covers no fewer keep the invariant. -/
theorem State.DirtyInv.mono {s t : State} (hs : s.DirtyInv) (hdirty : t.ghost.dirty ⊆ s.ghost.dirty)
    (hbatch : t.batch = s.batch) (hbox : ∀ a, s.box.Covers a → t.box.Covers a) : t.DirtyInv := by
  obtain ⟨hempty, hcovers⟩ := hs
  refine ⟨fun hb => ?_, fun k hk => ?_⟩
  · exact List.eq_nil_of_subset_nil (hempty (hbatch ▸ hb) ▸ hdirty)
  · obtain ⟨hlt, hc⟩ := hcovers k (hdirty hk)
    exact ⟨hlt, hbox _ hc⟩

theorem gotoxy_dirtyInv {s : State} (hi : s.Idle) (hs : s.DirtyInv) (x y : Byte) : (gotoxy x y s).DirtyInv := by
  have h := gotoxy_sameRest hi x y
  exact hs.mono (by rw [gotoxy_ghost hi]; exact List.Subset.refl _) h.batch fun _ hc => h.box.symm ▸ hc

theorem wrdata_dirtyInv {s : State} (hi : s.Idle) (hs : s.DirtyInv) (d : Byte) (inv : Bit) :
    (wrdata d inv s).DirtyInv := by
  have h := wrdata_sameRest hi d inv
  exact hs.mono (wrdata_dirty_subset hi d inv) h.batch fun _ hc => h.box.symm ▸ hc

theorem setpix_deferred_dirtyInv {s : State} (hb : s.batch = 1) (hs : s.DirtyInv) (x y : Byte) (val : Bit) :
    (setpix x y val s).DirtyInv := by
  obtain ⟨-, hcovers⟩ := hs
  rw [setpix_deferred hb]
  refine ⟨fun h0 => absurd h0 (bit_ne_zero.mpr hb), fun k hk => ?_⟩
  rcases AddrSet.mem_insert.mp hk with rfl | hk
  · refine ⟨(pixelAddr x y).isLt, ?_⟩
    rw [BitVec.ofNat_toNat, BitVec.setWidth_eq]
    exact s.box.widen_covers_pixelAddr x y
  · obtain ⟨hlt, hc⟩ := hcovers k hk
    exact ⟨hlt, hc.widen _ _⟩

/-- With a live transport a flush cleans every address of the clamped box, so everything that was dirty. -/
theorem dwend_ready_dirty {s : State} (h : s.Ready) (hw : s.params.Wf) (hb : s.batch = 1) (hs : s.DirtyInv) :
    (dwend s).ghost.dirty = [] := by
  obtain ⟨-, hcovers⟩ := hs
  obtain ⟨u, hu, -, -, -, e⟩ := dwend_ready h hb
  rw [e, List.eq_nil_iff_forall_not_mem]
  intro k hk
  obtain ⟨hmem, hnot⟩ := (hu.dirty hw k).mp hk
  obtain ⟨hlt, hc⟩ := hcovers k hmem
  exact hnot _ hc.clamp (by rw [BitVec.toNat_ofNat, Nat.mod_eq_of_lt hlt])

/-- So does every flush that completes. -/
theorem dwend_completes_dirty {s : State} (hi : s.Idle) (hw : s.params.Wf) (hb : s.batch = 1) (hs : s.DirtyInv)
    (hdone : (dwend s).Idle) : (dwend s).ghost.dirty = [] := by
  have hlive : dwend s.onLive = (dwend s).onLive := dwend_liveTwin s hdone
  have hdirty : (dwend s.onLive).ghost.dirty = [] := dwend_ready_dirty (State.onLive_ready hi) hw hb hs
  rw [hlive] at hdirty
  exact hdirty

theorem dwend_dirtyInv {s : State} (hi : s.Idle) (hw : s.params.Wf) (hs : s.DirtyInv) : (dwend s).DirtyInv := by
  rcases bit_cases s.batch with hb | hb
  · rw [dwend_noBatch hb]; exact hs
  obtain ⟨u, hu, e⟩ := dwend_inBatch hb
  rcases u.andThen_cases (State.setBatch 0) with ⟨hu', e'⟩ | ⟨o, -, e'⟩
  · have hdone : (dwend s).Idle := by rw [e, e']; exact hu'
    exact .of_empty (dwend_completes_dirty hi hw hb hs hdone)
  · have hbatch : (dwend s).batch = s.batch := by rw [e, e']; exact hu.batch
    exact hs.mono (dwend_dirty_subset s) hbatch fun _ hc => dwend_inBatch_box hb ▸ hc.clamp

/-- DWSTART opens a batch only when the flush before it has left nothing dirty. -/
theorem dwstart_dirtyInv {s : State} (hi : s.Idle) (hw : s.params.Wf) (hs : s.DirtyInv) : (dwstart s).DirtyInv := by
  have hflush := dwend_dirtyInv hi hw hs
  rw [dwstart_eq]
  exact State.andThen_keeps hflush fun hdone _ => .of_empty (hflush.1 (dwend_completes_batch hdone))

theorem exec_dirtyInv {i : Instr} {s t : State} (hw : s.params.Wf) (hs : s.DirtyInv) (hx : exec i s = .next t) :
    t.DirtyInv := by
  rcases exec_cases hx with ⟨hi, rfl⟩ | ⟨-, rfl⟩
  swap
  · exact hs
  cases i with
  | gotoxy x y => exact gotoxy_dirtyInv hi hs x y
  | wrdata d inv => exact wrdata_dirtyInv hi hs d inv
  | rddata =>
    simp only [bodyOf, rddata]
    rw [State.respond_eq]
    exact hs
  | setpix x y val =>
    simp only [bodyOf]
    rcases bit_cases s.batch with hb | hb
    · rw [setpix_immediate hb]
      exact setpixImmediate_keeps (fun _ x y hi h => gotoxy_dirtyInv hi h x y)
        (fun _ d inv hi h => wrdata_dirtyInv hi h d inv) hi hs x y val
    · exact setpix_deferred_dirtyInv hb hs x y val
  | dwstart => exact dwstart_dirtyInv hi hw hs
  | dwupdate x y =>
    simp only [bodyOf]
    rcases bit_cases s.batch with hb | hb
    · rw [dwupdate_noBatch hb]; exact hs
    · rw [dwupdate_inBatch hb]
      exact hs.mono (List.Subset.refl _) rfl fun _ hc => hc.widen x y
  | dwend => exact dwend_dirtyInv hi hw hs

/-- Settles O41: a command by `exec_dirtyInv`, where a flush that is cut off has cleaned only some of what the clamped
box covers and one that completes has cleaned all of it; RESET leaves nothing dirty. -/
theorem dirtyBytesStayCovered : Obligations.DirtyBytesStayCovered := by
  intro s t hw hs h
  rcases step_cases h with ⟨rfl, -⟩ | ⟨r, rest, -, rfl⟩ | ⟨w, rest, -, -, ⟨i, -, hx⟩ | ⟨r, -, rfl⟩⟩
  · exact hs
  · exact .of_empty rfl
  · exact exec_dirtyInv (s := { s with host := rest }) hw hs hx
  · exact hs

end Sys2Proof.Machine
end

section
/-! SUPPORT. The coalescer with a live transport (43_coalescer.md R110 to R114, R117): what DWSTART, DWUPDATE and DWEND
answer, how many transactions a flush emits, and what it leaves on the display. -/

namespace Sys2Proof.Machine

/-! ### What the three commands answer -/

/-- Settles O25: DWSTART is DWEND and then the opening (`dwstart_eq`), and with a live transport DWEND completes. -/
theorem dwstartOpensABatch : Obligations.DwstartOpensABatch := by
  refine ⟨by decide, fun s hi hb => ?_, fun s h hb => ⟨dwend s, exec_idle h.1 _, ?_⟩⟩
  · rw [exec_idle hi]
    exact congrArg _ (dwstart_noBatch hi hb)
  · obtain ⟨u, hu, -, -, -, e⟩ := dwend_ready h hb
    have hi : (dwend s).Idle := by rw [e]; exact hu.ready.1
    rw [exec_idle h.1]
    exact congrArg _ ((dwstart_eq s).trans (State.andThen_idle hi _))

/-- Settles O26: DWUPDATE is nothing, or `setBox` of the widened box. -/
theorem dwupdateWidensTheBox : Obligations.DwupdateWidensTheBox := by
  refine fun s x y => ⟨by rw [encode, cw24_eq_or]; simp, fun hb => exec_of_bodyOf_eq (dwupdate_noBatch hb x y),
    fun hi hb => ⟨s.box.widen x y, ?_, s.box.widen_toNat x y⟩⟩
  rw [exec_idle hi]
  exact congrArg _ (dwupdate_inBatch hb x y)

/-- The clamped box as numbers (43_coalescer.md R112 step 2); LEFT and TOP stay. -/
theorem Box.clamp_toNat (b : Box) :
    b.clamp.right.toNat = min b.right.toNat 127 ∧ b.clamp.bottom.toNat = min b.bottom.toNat 63 :=
  ⟨minByte_toNat _ _, minByte_toNat _ _⟩

theorem dwend_ready_tx {s : State} (h : s.Ready) (hb : s.batch = 1) : (dwend s).tx = s.tx ++ dwendTxs s := by
  obtain ⟨u, -, htx, -, -, e⟩ := dwend_ready h hb
  rw [e]
  exact htx

/-- Settles O27: by `dwend_ready`, the flush of the clamped box followed by the restoring GOTOXY. -/
theorem dwendFlushesTheBox : Obligations.DwendFlushesTheBox := by
  refine ⟨by decide, fun s hb => exec_of_bodyOf_eq (dwend_noBatch hb), fun s h hb => ?_⟩
  obtain ⟨u, hu, htx, -, hcursor, e⟩ := dwend_ready h hb
  have hbox : u.box = s.box.clamp := hu.box
  obtain ⟨hright, hbottom⟩ := s.box.clamp_toNat
  refine ⟨u.setBatch 0, (exec_idle h.1 _).trans (congrArg _ e), ?_⟩
  rw [State.setBatch_box, hbox]
  exact ⟨rfl, hright, rfl, hbottom, htx.trans (List.append_assoc _ _ _).symm, hcursor, hu.reads, rfl, hu.ready, hu.rsp⟩

/-! ### The number of transactions -/

/-- The bytes of a row, and two more transactions for each of the columns 63 and 127 it holds: those of the wrap. -/
theorem rowBytes_txs_length (c : Params) (v : CacheAddr → Byte) {x p : Nat} (hp : p ≤ 7) (n : Nat) (h : x + n ≤ 128) :
    ((List.range n).flatMap fun k => dataTxs c (v (cacheOffset (canvasAt (x + k) p))) (canvasAt (x + k) p)).length =
      n + (if x ≤ 63 ∧ 63 < x + n then 2 else 0) + (if x ≤ 127 ∧ 127 < x + n then 2 else 0) := by
  induction n with
  | zero =>
    rw [if_neg (by omega), if_neg (by omega)]
    rfl
  | succ n ih =>
    have hcol : (canvasAt (x + n) p).col = 63 ↔ x + n = 63 ∨ x + n = 127 := col_eq_63_iff (by omega) hp
    rw [List.range_succ, List.flatMap_append, List.length_append, ih (by omega), List.flatMap_singleton,
      dataTxs_length]
    simp only [hcol]
    split_ifs <;> omega

/-- The number of transactions of one row of the box's flush (43_coalescer.md R114). -/
def Box.rowTxCount (b : Box) : Nat :=
  2 + b.rowBytes + (if b.left.toNat ≤ 63 ∧ 63 ≤ b.right.toNat then 2 else 0) + (if b.right.toNat = 127 then 2 else 0)

theorem rowTxs_length (c : Params) (v : CacheAddr → Byte) {b : Box} (hb : b.OnCanvas) {p : Nat} (hp : p ≤ 7) :
    (rowTxs c v b.left.toNat b.rowBytes p).length = b.rowTxCount := by
  have hlr := hb.lr; have hr := hb.right
  have hn : b.rowBytes = b.right.toNat - b.left.toNat + 1 := rfl
  have hgoto : (gotoTxs c (canvasAt b.left.toNat p)).length = 2 := rfl
  rw [rowTxs, List.length_append, hgoto, rowBytes_txs_length c v hp _ (by omega), Box.rowTxCount]
  split_ifs <;> omega

theorem flushTxs_length (c : Params) (v : CacheAddr → Byte) {b : Box} (hb : b.OnCanvas) :
    (flushTxs c v b).length = b.rows * b.rowTxCount := by
  have htb := hb.tb; have hbt := hb.bottom
  have hrow : ∀ r ∈ List.range b.rows,
      (rowTxs c v b.left.toNat b.rowBytes (b.top.toNat / 8 + r)).length = b.rowTxCount := fun r hr => by
    have hr' := List.mem_range.mp hr
    unfold Box.rows at hr'
    exact rowTxs_length c v hb (by omega)
  rw [flushTxs, if_pos (show b.Nonempty from ⟨hb.lr, hb.tb⟩), List.length_flatMap, List.map_congr_left hrow,
    List.map_const', List.sum_replicate, List.length_range, smul_eq_mul]

theorem flushTxs_degenerate (c : Params) (v : CacheAddr → Byte) {b : Box} (hb : ¬ b.Nonempty) :
    flushTxs c v b = [] := if_neg hb

/-- At most 8 rows of at most 134 transactions. -/
theorem Box.OnCanvas.flush_le {b : Box} (hb : b.OnCanvas) : b.rows * b.rowTxCount ≤ 1072 := by
  have hr := hb.right; have hbt := hb.bottom
  have hrows : b.rows ≤ 8 := by unfold Box.rows; omega
  have hrow : b.rowTxCount ≤ 134 := by unfold Box.rowTxCount Box.rowBytes; split_ifs <;> omega
  exact Nat.mul_le_mul hrows hrow

theorem dwend_ready_tx_length {s : State} (h : s.Ready) (hb : s.batch = 1) :
    (dwend s).tx.length = s.tx.length + ((flushTxs s.params s.readCache s.box.clamp).length + 2) := by
  rw [dwend_ready_tx h hb, List.length_append, dwendTxs, List.length_append]
  rfl

/-- What a command answers from an idle block. -/
theorem eq_bodyOf_of_exec {s t : State} {i : Instr} (hi : s.Idle) (hx : exec i s = .next t) : t = bodyOf i s :=
  (Host.Outcome.next.inj ((exec_idle hi i).symm.trans hx)).symm

/-- Settles O28: the length of the stream of `dwend_ready`, row by row; the bound is 8 rows of 134 and the 2 of the
restoring GOTOXY. -/
theorem dwendTransactionCount : Obligations.DwendTransactionCount := by
  intro s t h hx
  have ht : t = dwend s := eq_bodyOf_of_exec h.1 hx
  rcases bit_cases s.batch with hb | hb
  · rw [ht, dwend_noBatch hb]
    exact ⟨fun _ => rfl, fun h1 => absurd h1 (bit_ne_one.mpr hb), fun h1 => absurd h1 (bit_ne_one.mpr hb),
      Nat.le_add_right _ _⟩
  · have hlen := dwend_ready_tx_length h hb
    rw [ht, dwend_inBatch_box hb, hlen]
    refine ⟨fun h0 => absurd h0 (bit_ne_zero.mpr hb), fun _ hn => ?_, fun _ hn => ?_, ?_⟩
    · rw [flushTxs_degenerate _ _ hn]
      rfl
    · rw [flushTxs_length _ _ (Box.clamp_onCanvas hn)]
      rfl
    · by_cases hn : s.box.clamp.Nonempty
      · have hle := (Box.clamp_onCanvas hn).flush_le
        rw [flushTxs_length _ _ (Box.clamp_onCanvas hn)]
        omega
      · rw [flushTxs_degenerate _ _ hn]
        exact Nat.add_le_add_left (by decide) _

/-! ### The display after a flush -/

/-- Up to the box and BATCH, a flush by DWEND or DWSTART with a live transport answers what DWEND answers. -/
theorem exec_flush_ready {s t : State} {i : Instr} (hi : i = .dwend ∨ i = .dwstart) (h : s.Ready) (hb : s.batch = 1)
    (hx : exec i s = .next t) :
    t = ((dwend s).setBox t.box).setBatch (if i = .dwend then 0 else 1) ∧
      (t.box = s.box.clamp ∨ t.box = Box.empty) := by
  obtain ⟨u, hu, -, -, -, e⟩ := dwend_ready h hb
  obtain rfl := eq_bodyOf_of_exec h.1 hx
  rcases hi with rfl | rfl <;> simp only [bodyOf]
  · exact ⟨by rw [e]; rfl, .inl (dwend_inBatch_box hb)⟩
  · have hidle : (dwend s).Idle := by rw [e]; exact hu.ready.1
    rw [dwstart_eq, State.andThen_idle hidle]
    exact ⟨rfl, .inr rfl⟩

/-- Settles O29: the flush is `Flushed` on the addresses the clamped box covers, and the opening of the next batch
touches the box and BATCH only. -/
theorem flushMakesTheDisplayShowTheCache : Obligations.FlushMakesTheDisplayShowTheCache := by
  intro s t i hi hw h hb hx
  obtain ⟨ht, hbox⟩ := exec_flush_ready hi h hb hx
  obtain ⟨u, hu, -, hsync, hcursor, e⟩ := dwend_ready h hb
  have hedge : t.box.right.toNat ≤ 127 ∧ t.box.bottom.toNat ≤ 63 := by
    rcases hbox with hbox | hbox <;> rw [hbox]
    · exact ⟨Box.clamp_right_le _, Box.clamp_bottom_le _⟩
    · decide
  have hcovered : ∀ a, s.box.clamp.Covers a →
      a.toNat ∈ u.ghost.valid ∧ a.toNat ∉ u.ghost.dirty ∧ u.lcd.ramAt a = u.readCache a := fun a ha =>
    ⟨(hu.valid hw _).mpr (.inl ⟨a, ha, rfl⟩), fun hd => ((hu.dirty hw _).mp hd).2 a ha rfl,
      (hu.showsIn hw a ha).trans (hu.reads a).symm⟩
  refine ⟨?_, ?_, ?_, ?_, ?_, ?_, hedge⟩ <;> rw [ht, e]
  · exact hu.reads
  · exact hcursor
  · exact hsync hw
  · exact hcovered
  · exact hu.showsOut hw
  · rfl

/-- Settles O30: what was dirty the clamped box covers, and the flush cleans it (`dwend_ready_dirty`); DWEND keeps
COHERENT, which then speaks of every valid byte. -/
theorem flushLeavesNothingDirty : Obligations.FlushLeavesNothingDirty := by
  intro s t i hi hw h hb hs hx
  obtain ⟨ht, -⟩ := exec_flush_ready hi h hb hx
  have hdirty : t.ghost.dirty = [] := by
    rw [ht]
    exact dwend_ready_dirty h hw hb hs
  have hcoherent : s.Coherent → t.Coherent := fun hc => by
    rw [ht]
    exact dwend_coherent hw hc
  exact ⟨hdirty, fun hc a hv => (hcoherent hc a hv (by simp [hdirty])).symm⟩

end Sys2Proof.Machine
end

section
/-! SUPPORT. Batches as sequences of commands (43_coalescer.md R115, R116): the box after the commands of a batch, and
why batches do not nest. -/

namespace Sys2Proof.Machine

/-! ### Sequences of commands -/

theorem execAll_append {is : List Instr} : ∀ {s t : State}, execAll is s = .next t → ∀ js : List Instr,
    execAll (is ++ js) s = execAll js t := by
  induction is with
  | nil => exact fun h _ => congrArg _ (Host.Outcome.next.inj h)
  | cons i is ih =>
    intro s t h js
    rw [execAll, exec_eq] at h
    rw [List.cons_append, execAll, exec_eq]
    exact ih h js

/-- A sequence, then one more command from an idle block. -/
theorem execAll_concat {is : List Instr} {s t : State} (h : execAll is s = .next t) (hi : t.Idle) (i : Instr) :
    execAll (is ++ [i]) s = .next (bodyOf i t) :=
  (execAll_append h [i]).trans (execAll_cons hi i [])

/-! ### The bounding box -/

/-- The point is in the box. -/
def Box.Contains (b : Box) (x y : Byte) : Prop := b.left ≤ x ∧ x ≤ b.right ∧ b.top ≤ y ∧ y ≤ b.bottom

theorem Box.contains_widen (b : Box) (x y : Byte) : (b.widen x y).Contains x y := by
  simp only [Box.Contains, Box.widen, BitVec.le_def, minByte_toNat, maxByte_toNat]
  omega

theorem Box.Contains.widen {b : Box} {x y : Byte} (h : b.Contains x y) (x' y' : Byte) :
    (b.widen x' y').Contains x y := by
  simp only [Box.Contains, Box.widen, BitVec.le_def, minByte_toNat, maxByte_toNat] at *
  omega

theorem Box.Contains.clamp {b : Box} {x y : Byte} (h : b.Contains x y) (hx : x.toNat ≤ 127) (hy : y.toNat ≤ 63) :
    b.clamp.Contains x y := by
  have h127 : (127 : Byte).toNat = 127 := rfl
  have h63 : (63 : Byte).toNat = 63 := rfl
  simp only [Box.Contains, Box.clamp, BitVec.le_def, minByte_toNat, h127, h63] at *
  omega

/-- Each edge of the box is a coordinate of some point of `A`. -/
structure Box.EdgesFrom (A : Byte → Byte → Prop) (b : Box) : Prop where
  left : ∃ y, A b.left y
  right : ∃ y, A b.right y
  top : ∃ x, A x b.top
  bottom : ∃ x, A x b.bottom

theorem minByte_keeps {P : Byte → Prop} {a b : Byte} (ha : P a) (hb : P b) : P (minByte a b) := by
  unfold minByte; split
  · exact ha
  · exact hb

theorem maxByte_keeps {P : Byte → Prop} {a b : Byte} (ha : P a) (hb : P b) : P (maxByte a b) := by
  unfold maxByte; split
  · exact hb
  · exact ha

theorem Box.EdgesFrom.widen {A : Byte → Byte → Prop} {b : Box} (h : b.EdgesFrom A) {x y : Byte} (hxy : A x y) :
    (b.widen x y).EdgesFrom A where
  left := minByte_keeps (P := fun l => ∃ y, A l y) h.left ⟨y, hxy⟩
  right := maxByte_keeps (P := fun r => ∃ y, A r y) h.right ⟨y, hxy⟩
  top := minByte_keeps (P := fun t => ∃ x, A x t) h.top ⟨x, hxy⟩
  bottom := maxByte_keeps (P := fun b => ∃ x, A x b) h.bottom ⟨x, hxy⟩

/-- `BOX_EMPTY` widened with a point of the canvas is that point. -/
theorem Box.empty_widen {x y : Byte} (hx : x.toNat ≤ 127) (hy : y.toNat ≤ 63) :
    Box.empty.widen x y = { left := x, right := x, top := y, bottom := y } := by
  have hright : maxByte 0 x = x := BitVec.eq_of_toNat_eq ((maxByte_toNat _ _).trans (Nat.zero_max _))
  have hbottom : maxByte 0 y = y := BitVec.eq_of_toNat_eq ((maxByte_toNat _ _).trans (Nat.zero_max _))
  have hleft : minByte 127 x = x := BitVec.eq_of_toNat_eq ((minByte_toNat _ _).trans (Nat.min_eq_right hx))
  have htop : minByte 63 y = y := BitVec.eq_of_toNat_eq ((minByte_toNat _ _).trans (Nat.min_eq_right hy))
  simp only [Box.widen, Box.empty, hleft, hright, htop, hbottom]

theorem Box.clamp_eq_self {b : Box} (hr : b.right.toNat ≤ 127) (hb : b.bottom.toNat ≤ 63) : b.clamp = b := by
  have hright : minByte b.right 127 = b.right :=
    BitVec.eq_of_toNat_eq ((minByte_toNat _ _).trans (Nat.min_eq_left hr))
  have hbottom : minByte b.bottom 63 = b.bottom :=
    BitVec.eq_of_toNat_eq ((minByte_toNat _ _).trans (Nat.min_eq_left hb))
  rw [Box.clamp, hright, hbottom]

/-! ### The commands of a batch -/

/-- A command of a batch that names a point: SETPIX if it has a value, DWUPDATE if it has none. -/
def pointInstr (q : Byte × Byte × Option Bit) : Instr :=
  match q.2.2 with
  | some val => .setpix q.1 q.2.1 val
  | none => .dwupdate q.1 q.2.1

/-- The box after such a command: SETPIX clamps its point first (43_coalescer.md R111, 42_setpixel.md R103). -/
def pointBox (b : Box) (q : Byte × Byte × Option Bit) : Box :=
  match q.2.2 with
  | some _ => b.widen (clampX q.1) (clampY q.2.1)
  | none => b.widen q.1 q.2.1

theorem pointBox_pixel {q : Byte × Byte × Option Bit} (hq : q.2.2 ≠ none) (b : Box) :
    pointBox b q = b.widen (clampX q.1) (clampY q.2.1) := by
  obtain ⟨x, y, _ | val⟩ := q
  · exact absurd rfl hq
  · rfl

theorem pointBox_contains {b : Box} {x y : Byte} (h : b.Contains x y) (q : Byte × Byte × Option Bit) :
    (pointBox b q).Contains x y := by
  unfold pointBox
  split <;> exact h.widen _ _

/-- In a batch such a command only widens the box, as far as the box, BATCH and the channels are concerned. -/
theorem bodyOf_pointInstr {s : State} (h : s.Ready) (hb : s.batch = 1) (q : Byte × Byte × Option Bit) :
    (bodyOf (pointInstr q) s).Ready ∧ (bodyOf (pointInstr q) s).batch = 1 ∧
      (bodyOf (pointInstr q) s).box = pointBox s.box q := by
  obtain ⟨x, y, _ | val⟩ := q <;> simp only [pointInstr, pointBox, bodyOf]
  · rw [dwupdate_inBatch hb]
    exact ⟨h, hb, rfl⟩
  · rw [setpix_deferred hb]
    exact ⟨h, hb, rfl⟩

theorem execAll_points (qs : List (Byte × Byte × Option Bit)) : ∀ {s : State}, s.Ready → s.batch = 1 →
    ∃ t, execAll (qs.map pointInstr) s = .next t ∧ t.Ready ∧ t.batch = 1 ∧ t.box = qs.foldl pointBox s.box := by
  induction qs with
  | nil => exact fun {s} h hb => ⟨s, rfl, h, hb, rfl⟩
  | cons q qs ih =>
    intro s h hb
    obtain ⟨hready, hbatch, hbox⟩ := bodyOf_pointInstr h hb q
    obtain ⟨t, ht, htready, htbatch, htbox⟩ := ih hready hbatch
    exact ⟨t, (execAll_cons h.1 _ _).trans ht, htready, htbatch, by rw [htbox, hbox, List.foldl_cons]⟩

theorem dwend_ready_ready {s : State} (h : s.Ready) : (dwend s).Ready ∧ (dwend s).batch = 0 := by
  rcases bit_cases s.batch with hb | hb
  · rw [dwend_noBatch hb]
    exact ⟨h, hb⟩
  · obtain ⟨u, hu, -, -, -, e⟩ := dwend_ready h hb
    rw [e]
    exact ⟨hu.ready, rfl⟩

theorem dwstart_ready {s : State} (h : s.Ready) : dwstart s = ((dwend s).setBox Box.empty).setBatch 1 := by
  rw [dwstart_eq, State.andThen_idle (dwend_ready_ready h).1.1]

theorem dwstart_ready_ready {s : State} (h : s.Ready) : (dwstart s).Ready ∧ (dwstart s).batch = 1 := by
  rw [dwstart_ready h]
  exact ⟨(dwend_ready_ready h).1, rfl⟩

/-- A whole batch, from any ready state: the box its commands make, clamped. -/
theorem execAll_batch {s : State} (h : s.Ready) (qs : List (Byte × Byte × Option Bit)) :
    ∃ t, execAll (.dwstart :: qs.map pointInstr ++ [.dwend]) s = .next t ∧ t.batch = 0 ∧
      t.box = (qs.foldl pointBox Box.empty).clamp := by
  obtain ⟨hready, hbatch⟩ := dwstart_ready_ready h
  obtain ⟨u, hu, huready, hubatch, hubox⟩ := execAll_points qs hready hbatch
  have hstart : execAll (.dwstart :: qs.map pointInstr) s = .next u := (execAll_cons h.1 _ _).trans hu
  refine ⟨dwend u, execAll_concat hstart huready.1 .dwend, (dwend_ready_ready huready).2, ?_⟩
  rw [dwend_inBatch_box hubatch, hubox, dwstart_ready h]
  rfl

theorem foldl_pointBox_keeps_contains {x y : Byte} (qs : List (Byte × Byte × Option Bit)) :
    ∀ {b : Box}, b.Contains x y → (qs.foldl pointBox b).Contains x y := by
  induction qs with
  | nil => exact fun h => h
  | cons q qs ih => exact fun h => ih (pointBox_contains h q)

theorem foldl_pointBox_contains (qs : List (Byte × Byte × Option Bit)) : ∀ b : Box, ∀ q ∈ qs, q.2.2 ≠ none →
    (qs.foldl pointBox b).Contains (clampX q.1) (clampY q.2.1) := by
  induction qs with
  | nil => exact fun _ _ hq => absurd hq List.not_mem_nil
  | cons p qs ih =>
    intro b q hq hpix
    rcases List.mem_cons.mp hq with rfl | hq
    · refine foldl_pointBox_keeps_contains qs ?_
      rw [pointBox_pixel hpix]
      exact b.contains_widen _ _
    · exact ih _ q hq hpix

/-- A pixel of the batch is in the box after the flush too. -/
theorem clamp_foldl_pointBox_contains {qs : List (Byte × Byte × Option Bit)} (b : Box)
    {q : Byte × Byte × Option Bit} (hq : q ∈ qs) (hpix : q.2.2 ≠ none) :
    (qs.foldl pointBox b).clamp.Contains (clampX q.1) (clampY q.2.1) :=
  (foldl_pointBox_contains qs b q hq hpix).clamp (clampX_le _) (clampY_le _)

/-! ### Batches of SETPIX only -/

/-- The pixel as a command of a batch. -/
def pixelPoint (q : Byte × Byte × Bit) : Byte × Byte × Option Bit := (q.1, q.2.1, some q.2.2)

/-- The point is the clamped one of some pixel of the list. -/
def ClampedIn (pixels : List (Byte × Byte × Bit)) (x y : Byte) : Prop :=
  ∃ q ∈ pixels, x = clampX q.1 ∧ y = clampY q.2.1

theorem ClampedIn.le {pixels : List (Byte × Byte × Bit)} {x y : Byte} (h : ClampedIn pixels x y) :
    x.toNat ≤ 127 ∧ y.toNat ≤ 63 := by
  obtain ⟨q, -, rfl, rfl⟩ := h
  exact ⟨clampX_le _, clampY_le _⟩

theorem foldl_pixels_edgesFrom {A : Byte → Byte → Prop} (pixels : List (Byte × Byte × Bit)) :
    ∀ {b : Box}, b.EdgesFrom A → (∀ q ∈ pixels, A (clampX q.1) (clampY q.2.1)) →
      ((pixels.map pixelPoint).foldl pointBox b).EdgesFrom A := by
  induction pixels with
  | nil => exact fun h _ => h
  | cons q pixels ih =>
    exact fun h hA => ih (h.widen (hA q List.mem_cons_self)) fun p hp => hA p (List.mem_cons_of_mem _ hp)

/-- The first pixel makes the box its point, and the others widen it (43_coalescer.md R115). -/
theorem batch_edgesFrom {pixels : List (Byte × Byte × Bit)} (hne : pixels ≠ []) :
    ((pixels.map pixelPoint).foldl pointBox Box.empty).EdgesFrom (ClampedIn pixels) := by
  obtain ⟨q, rest, rfl⟩ := List.exists_cons_of_ne_nil hne
  have hall : ∀ p ∈ q :: rest, ClampedIn (q :: rest) (clampX p.1) (clampY p.2.1) := fun p hp => ⟨p, hp, rfl, rfl⟩
  have hq := hall q List.mem_cons_self
  have hfirst : (Box.empty.widen (clampX q.1) (clampY q.2.1)).EdgesFrom (ClampedIn (q :: rest)) := by
    rw [Box.empty_widen (clampX_le _) (clampY_le _)]
    exact ⟨⟨_, hq⟩, ⟨_, hq⟩, ⟨_, hq⟩, ⟨_, hq⟩⟩
  exact foldl_pixels_edgesFrom rest hfirst fun p hp => hall p (List.mem_cons_of_mem _ hp)

theorem Box.EdgesFrom.clamp_eq {pixels : List (Byte × Byte × Bit)} {b : Box} (h : b.EdgesFrom (ClampedIn pixels)) :
    b.clamp = b := by
  obtain ⟨-, ⟨y, hright⟩, -, ⟨x, hbottom⟩⟩ := h
  exact Box.clamp_eq_self hright.le.1 hbottom.le.2

/-- Settles O52: the box of a batch is a fold of widenings (`execAll_batch`), which contains every pixel and, when all
its commands are SETPIX, takes each edge from one. -/
theorem boxCoversTheBatch : Obligations.BoxCoversTheBatch := by
  refine ⟨fun s pixels h hne => ?_, fun s points h => ?_⟩
  · obtain ⟨t, ht, hbatch, hbox⟩ := execAll_batch h (pixels.map pixelPoint)
    have hedges := batch_edgesFrom hne
    rw [List.map_map] at ht
    have hcontains : ∀ q ∈ pixels, t.box.Contains (clampX q.1) (clampY q.2.1) := fun q hq => by
      rw [hbox]
      exact clamp_foldl_pointBox_contains (q := pixelPoint q) _ (List.mem_map_of_mem hq) nofun
    rw [hedges.clamp_eq] at hbox
    rw [← hbox] at hedges
    obtain ⟨⟨_, q₁, h₁, hleft, -⟩, ⟨_, q₂, h₂, hright, -⟩, ⟨_, q₃, h₃, -, htop⟩, ⟨_, q₄, h₄, -, hbottom⟩⟩ := hedges
    exact ⟨t, ht, hbatch, hcontains, ⟨q₁, h₁, hleft⟩, ⟨q₂, h₂, hright⟩, ⟨q₃, h₃, htop⟩, ⟨q₄, h₄, hbottom⟩⟩
  · obtain ⟨t, ht, hbatch, hbox⟩ := execAll_batch h points
    refine ⟨t, ht, hbatch, fun q hq hpix => ?_⟩
    rw [hbox]
    exact clamp_foldl_pointBox_contains _ hq hpix

/-! ### Batches one after the other -/

/-- SETPIX commands complete with a live transport and leave BATCH. -/
theorem execAll_setpix (pixels : List (Byte × Byte × Bit)) : ∀ {s : State}, s.Ready →
    ∃ t, execAll (pixels.map fun q => .setpix q.1 q.2.1 q.2.2) s = .next t ∧ t.Ready ∧ t.batch = s.batch := by
  induction pixels with
  | nil => exact fun {s} h => ⟨s, rfl, h, rfl⟩
  | cons q pixels ih =>
    intro s h
    have hset := setpix_pixelSet h q.1 q.2.1 q.2.2
    obtain ⟨t, ht, hready, hbatch⟩ := ih hset.ready
    exact ⟨t, (execAll_cons h.1 _ _).trans ht, hready, hbatch.trans hset.batch⟩

/-- DWSTART in a batch does what DWEND and then DWSTART do. -/
theorem dwstart_dwend {s : State} (h : s.Ready) : dwstart (dwend s) = dwstart s := by
  rw [dwstart_eq, dwend_dwend h, ← dwstart_eq]

/-- Settles O53: the inner DWSTART closes the outer batch (`dwstart_dwend`), the first DWEND closes the inner one, and
the last DWEND finds no batch. -/
theorem batchesDoNotNest : Obligations.BatchesDoNotNest := by
  intro s outer inner rest h pixels
  have hopen := (dwstart_ready_ready h).1
  obtain ⟨a, ha, haready, -⟩ := execAll_setpix outer hopen
  have hreopen := (dwstart_ready_ready haready).1
  obtain ⟨b, hb, hbready, -⟩ := execAll_setpix inner hreopen
  obtain ⟨hclosed, hclosedBatch⟩ := dwend_ready_ready hbready
  obtain ⟨c, hc, hcready, hcbatch⟩ := execAll_setpix rest hclosed
  have hc0 : c.batch = 0 := hcbatch.trans hclosedBatch
  have houter : execAll (.dwstart :: pixels outer) s = .next a := (execAll_cons h.1 _ _).trans ha
  refine ⟨c, hc0, ?_, ?_⟩
  · have h2 : execAll (.dwstart :: pixels outer ++ .dwstart :: pixels inner) s = .next b :=
      (execAll_append houter _).trans ((execAll_cons haready.1 _ _).trans hb)
    have h3 : execAll (.dwstart :: pixels outer ++ .dwstart :: pixels inner ++ .dwend :: pixels rest) s = .next c :=
      (execAll_append h2 _).trans ((execAll_cons hbready.1 _ _).trans hc)
    exact (execAll_concat h3 hcready.1 _).trans (congrArg _ (dwend_noBatch hc0))
  · have hend := (dwend_ready_ready haready).1
    have hsame : bodyOf .dwstart (dwend a) = dwstart a := dwstart_dwend haready
    have h2 : execAll (.dwstart :: pixels outer ++ [.dwend]) s = .next (dwend a) :=
      execAll_concat houter haready.1 _
    have h3 : execAll (.dwstart :: pixels outer ++ [.dwend] ++ .dwstart :: pixels inner) s = .next b :=
      (execAll_append h2 _).trans ((execAll_cons hend.1 _ _).trans (hsame ▸ hb))
    exact (execAll_append (execAll_concat h3 hbready.1 .dwend) _).trans hc

end Sys2Proof.Machine
end

section
/-! SUPPORT. No command and no step faults or is refused, a block with a word on offer waits (60_exceptions.md R120,
R121, R127), and SYNC under the commands that complete (10_state.md R33, 60_exceptions.md R126). -/

namespace Sys2Proof.Machine

/-! ### Answers -/

theorem exec_blocked {o : Offer} {s : State} (h : s.offer = some o) (i : Instr) : exec i s = .next s := by
  rw [exec_eq, State.andThen_blocked h]

theorem acceptWord_answers (w : CommandWord) (s : State) : ∃ t, acceptWord w s = .next t := by
  unfold acceptWord
  split
  · exact ⟨_, exec_eq _ s⟩
  · exact ⟨s, rfl⟩

theorem step_answers (s : State) : ∃ t, step s = .next t := by
  unfold step serve
  split
  · exact ⟨_, rfl⟩
  · split
    · exact acceptWord_answers _ _
    · exact ⟨s, rfl⟩

/-- A blocked block that has no RESET due waits: it takes no command word. -/
theorem step_blocked {o : Offer} {s : State} (h : s.offer = some o) (hr : ∀ r, HostEvent.reset r ∉ s.host) :
    step s = .next s := by
  have hdue : dueReset s.offer.isSome s.host = none :=
    dueReset_none (fun r _ e => hr r (e ▸ List.mem_cons_self)) (.inr hr)
  obtain ⟨t, ht⟩ := step_answers s
  rcases step_cases ht with ⟨rfl, -⟩ | ⟨r, rest, hsome, -⟩ | ⟨w, rest, -, hi, -⟩
  · exact ht
  · exact absurd (hdue.symm.trans hsome) nofun
  · exact absurd (h.symm.trans hi) nofun

/-- Settles O12: `exec` performs nothing on a blocked block, and no RESET is due when none is planned. -/
theorem busyBlockTakesNoCommand : Obligations.BusyBlockTakesNoCommand :=
  ⟨fun _ _ i h => exec_blocked h i, fun _ _ => step_blocked⟩

/-- Settles O13: every branch of a step ends in a state, and `exec` always answers the one of `exec_eq`. -/
theorem everyStepAnswersANextState : Obligations.EveryStepAnswersANextState :=
  ⟨step_answers, fun i s => ⟨_, exec_eq i s⟩⟩

/-! ### SYNC -/

/-- A command that completes has found the block idle. -/
theorem exec_completes {i : Instr} {s t : State} (hx : exec i s = .next t) (ht : t.Idle) :
    s.Idle ∧ t = bodyOf i s := by
  rcases exec_cases hx with h | ⟨hn, rfl⟩
  · exact h
  · exact absurd ht hn

/-- What completes after sequencing has completed before it. -/
theorem State.andThen_completes {s : State} {f : State → State} (h : (s.andThen f).Idle) :
    s.Idle ∧ s.andThen f = f s := by
  rcases s.andThen_cases f with h' | ⟨o, ho, e⟩
  · exact h'
  · rw [e] at h
    exact nomatch ho.symm.trans h

theorem wrdata_completes_sync {s : State} (hi : s.Idle) (hw : s.params.Wf) (hs : s.Sync) {d : Byte} {inv : Bit}
    (hdone : (wrdata d inv s).Idle) : (wrdata d inv s).Sync := by
  rcases wrdata_cases hi d inv with ⟨-, e⟩ | ⟨r, -, e⟩ <;> rw [e] at hdone ⊢
  · exact nomatch hdone
  · exact advance_stored_sync (s := { s with transport := r }) hi hw hs _ hdone

/-- Immediate SETPIX re-addresses the display before its WRDATA, so it needs no SYNC to begin with. -/
theorem setpixImmediate_completes_sync {s : State} (hi : s.Idle) (hw : s.params.Wf) {x y : Byte} {val : Bit}
    (hdone : (setpixImmediate x y val s).Idle) : (setpixImmediate x y val s).Sync := by
  unfold setpixImmediate at hdone ⊢
  dsimp only at hdone ⊢
  obtain ⟨hi₁, e₁⟩ := State.andThen_completes hdone
  rw [e₁] at hdone ⊢
  obtain ⟨hi₂, e₂⟩ := State.andThen_completes hdone
  rw [e₂] at hdone ⊢
  have hw₁ : (gotoxy (clampX x) (clampY y) s).params.Wf := (gotoxy_sameRest hi _ _).params.symm ▸ hw
  have hw₂ := (gotoxy_sameRest hi₁ (clampX x) (clampY y)).params.symm ▸ hw₁
  exact wrdata_completes_sync hi₂ hw₂ ((gotoxy_completes hi₁ hi₂).1 hw₁) hdone

theorem setpix_completes_sync {s : State} (hi : s.Idle) (hw : s.params.Wf) (hb : s.batch = 0) {x y : Byte}
    {val : Bit} (hdone : (setpix x y val s).Idle) : (setpix x y val s).Sync := by
  rw [setpix_immediate hb] at hdone ⊢
  exact setpixImmediate_completes_sync hi hw hdone

/-- A flush that completes ends where it ends with a live transport, under SYNC by its restoring GOTOXY. -/
theorem dwend_completes_sync {s : State} (hi : s.Idle) (hw : s.params.Wf) (hb : s.batch = 1)
    (hdone : (dwend s).Idle) : (dwend s).Sync := by
  have hlive : dwend s.onLive = (dwend s).onLive := dwend_liveTwin s hdone
  obtain ⟨u, -, -, hsync, -, e⟩ := dwend_ready (State.onLive_ready hi) hb
  have h : (dwend s.onLive).Sync := by rw [e]; exact hsync hw
  rw [hlive] at h
  exact h

theorem dwstart_completes_sync {s : State} (hi : s.Idle) (hw : s.params.Wf) (hb : s.batch = 1)
    (hdone : (dwstart s).Idle) : (dwstart s).Sync := by
  rw [dwstart_eq] at hdone ⊢
  obtain ⟨hend, e⟩ := State.andThen_completes hdone
  rw [e]
  exact dwend_completes_sync hi hw hb hend

theorem rddata_sync {s : State} (hs : s.Sync) : (rddata s).Sync := by
  rw [rddata, State.respond_eq]
  exact hs

theorem exec_rddata_sync {s t : State} (hs : s.Sync) (hx : exec .rddata s = .next t) : t.Sync := by
  rcases exec_cases hx with ⟨-, rfl⟩ | ⟨-, rfl⟩
  · exact rddata_sync hs
  · exact hs

/-- Without a batch the coalescer commands leave the display and the cursor alone, and the others keep SYNC. -/
theorem bodyOf_keeps_sync {i : Instr} {s : State} (hi : s.Idle) (hw : s.params.Wf) (hb : s.batch = 0) (hs : s.Sync)
    (hdone : (bodyOf i s).Idle) : (bodyOf i s).Sync := by
  cases i with
  | gotoxy x y => exact (gotoxy_completes hi hdone).1 hw
  | wrdata d inv => exact wrdata_completes_sync hi hw hs hdone
  | rddata => exact rddata_sync hs
  | setpix x y val => exact setpix_completes_sync hi hw hb hdone
  | dwstart =>
    simp only [bodyOf, dwstart_noBatch hi hb]
    exact hs
  | dwupdate x y =>
    simp only [bodyOf, dwupdate_noBatch hb]
    exact hs
  | dwend =>
    simp only [bodyOf, dwend_noBatch hb]
    exact hs

/-- Settles O44: a completed command ends with a GOTOXY, which addresses the display (`gotoxy_completes`), or moves
both cursors on together (`wrdata_completes_sync`), or leaves them. -/
theorem syncIsKeptInImmediateMode : Obligations.SyncIsKeptInImmediateMode := by
  refine fun s t hw => ⟨fun i hb hs hx ht => ?_, fun x y hx ht => ?_, fun x y val hb hx ht => ?_, fun hb hx ht => ?_,
    fun hb hx ht => ?_, fun d inv hs hx ht => ?_, exec_rddata_sync⟩ <;>
    obtain ⟨hi, rfl⟩ := exec_completes hx ht
  · exact bodyOf_keeps_sync hi hw hb hs ht
  · exact (gotoxy_completes hi ht).1 hw
  · exact setpix_completes_sync hi hw hb ht
  · exact dwend_completes_sync hi hw hb ht
  · exact dwstart_completes_sync hi hw hb ht
  · exact wrdata_completes_sync hi hw hs ht

end Sys2Proof.Machine
end


section
/-! SUPPORT. A transport that stops accepting cuts a command off between two of its transactions (60_exceptions.md
R127): the lines that emit, sequencing, and the bodies built from them. -/

namespace Sys2Proof.Machine

/-- The same state with a transport that accepts `n` more transactions and then none. -/
def State.onStalling (n : Nat) (s : State) : State := { s with transport := .stallsAfter n }

/-- From `s`, whose transport is live, the line `f` emits the transactions `es` and completes. A transport that accepts
`n` transactions makes no other difference if there are at most `n`; if there are more, it gets the first `n`, and
the next one stays on offer. -/
structure Emits (es : List Tx) (f : State → State) (s : State) : Prop where
  ready : (f s).Ready
  rsp : (f s).rsp = s.rsp
  tx : (f s).tx = s.tx ++ es
  completes : ∀ n, es.length ≤ n → f (s.onStalling n) = (f s).onStalling (n - es.length)
  stalls : ∀ n e, es[n]? = some e → (f (s.onStalling n)).tx = s.tx ++ es.take n ∧
    (f (s.onStalling n)).offer = some (.tx e) ∧ (f (s.onStalling n)).rsp = s.rsp

/-- The line `f` can be cut off from `s` between its transactions only. -/
def CutsOff (f : State → State) (s : State) : Prop := ∃ es, Emits es f s

/-! ### How lines are put together -/

section

variable {f g : State → State} {s : State} {es es' : List Tx}

/-- The line is looked at from `s` only, with the live and with the stalling transport. -/
theorem Emits.congr (h : Emits es g s) (hs : f s = g s) (hn : ∀ n, f (s.onStalling n) = g (s.onStalling n)) :
    Emits es f s where
  ready := hs ▸ h.ready
  rsp := hs ▸ h.rsp
  tx := hs ▸ h.tx
  completes n hle := by rw [hn, hs]; exact h.completes n hle
  stalls n e he := by rw [hn]; exact h.stalls n e he

/-- A line that neither emits nor looks at the transport. -/
theorem Emits.silent (hr : (f s).Ready) (hrsp : (f s).rsp = s.rsp) (htx : (f s).tx = s.tx)
    (hn : ∀ n, f (s.onStalling n) = (f s).onStalling n) : Emits [] f s where
  ready := hr
  rsp := hrsp
  tx := by rw [htx, List.append_nil]
  completes n _ := hn n
  stalls n e he := nomatch he

/-- A line after one that neither emits nor looks at the transport. -/
theorem Emits.after (h : Emits es g (f s)) (hrsp : (f s).rsp = s.rsp) (htx : (f s).tx = s.tx)
    (hn : ∀ n, f (s.onStalling n) = (f s).onStalling n) : Emits es (fun u => g (f u)) s where
  ready := h.ready
  rsp := h.rsp.trans hrsp
  tx := htx ▸ h.tx
  completes n hle := by rw [hn]; exact h.completes n hle
  stalls n e he := by rw [hn, ← hrsp, ← htx]; exact h.stalls n e he

/-- Two lines in sequence: the second starts with what the first has left of the transport, and is not performed when
the first is cut off. -/
theorem Emits.andThen (hf : Emits es f s) (hg : Emits es' g (f s)) :
    Emits (es ++ es') (fun u => (f u).andThen g) s := by
  have hlive : (f s).andThen g = g (f s) := State.andThen_idle hf.ready.1 g
  have hpast : ∀ n, es.length ≤ n →
      (f (s.onStalling n)).andThen g = g ((f s).onStalling (n - es.length)) := fun n hle => by
    rw [hf.completes n hle]
    exact State.andThen_idle (s := (f s).onStalling _) hf.ready.1 g
  refine { ready := hlive ▸ hg.ready, rsp := ?_, tx := ?_, completes := fun n hle => ?_, stalls := fun n e he => ?_ }
  · rw [hlive, hg.rsp, hf.rsp]
  · rw [hlive, hg.tx, hf.tx, List.append_assoc]
  · rw [List.length_append] at hle ⊢
    rw [hpast n (by omega), hg.completes _ (by omega), hlive, Nat.sub_sub]
  · by_cases hlt : n < es.length
    · rw [List.getElem?_append_left hlt] at he
      have hstall := hf.stalls n e he
      rw [State.andThen_blocked hstall.2.1, List.take_append_of_le_length hlt.le]
      exact hstall
    · have hle : es.length ≤ n := Nat.le_of_not_lt hlt
      rw [List.getElem?_append_right hle] at he
      rw [hpast n hle, List.take_append, List.take_of_length_le hle, ← List.append_assoc, ← hf.tx, ← hf.rsp]
      exact hg.stalls _ e he

theorem CutsOff.congr (h : CutsOff g s) (hs : f s = g s) (hn : ∀ n, f (s.onStalling n) = g (s.onStalling n)) :
    CutsOff f s :=
  h.imp fun _ h => h.congr hs hn

theorem CutsOff.silent (hr : (f s).Ready) (hrsp : (f s).rsp = s.rsp) (htx : (f s).tx = s.tx)
    (hn : ∀ n, f (s.onStalling n) = (f s).onStalling n) : CutsOff f s :=
  ⟨[], .silent hr hrsp htx hn⟩

theorem CutsOff.unchanged (h : s.Ready) (hs : f s = s) (hn : ∀ n, f (s.onStalling n) = s.onStalling n) :
    CutsOff f s :=
  .silent (hs.symm ▸ h) (congrArg State.rsp hs) (congrArg State.tx hs) fun n => by rw [hn, hs]

theorem CutsOff.andThen (hf : CutsOff f s) (hg : (f s).Ready → CutsOff g (f s)) :
    CutsOff (fun u => (f u).andThen g) s := by
  obtain ⟨es, hes⟩ := hf
  obtain ⟨es', hes'⟩ := hg hes.ready
  exact ⟨_, hes.andThen hes'⟩

theorem CutsOff.after (h : CutsOff g (f s)) (hrsp : (f s).rsp = s.rsp) (htx : (f s).tx = s.tx)
    (hn : ∀ n, f (s.onStalling n) = (f s).onStalling n) : CutsOff (fun u => g (f u)) s :=
  h.imp fun _ h => h.after hrsp htx hn

end

/-! ### The lines that emit -/

theorem State.deliver_onStalling (n : Nat) (t : Tx) (s : State) :
    (s.onStalling n).deliver t = (s.deliver t).onStalling n := by
  unfold State.deliver
  dsimp only
  split <;> rfl

theorem offerTx_emits {s : State} (h : s.Ready) (t : Tx) : Emits [t] (State.offerTx t) s := by
  have hlive : s.offerTx t = s.deliver t := (State.emit_idle h.1 t).symm.trans (State.emit_ready h t)
  refine { ready := hlive ▸ State.deliver_ready h t, rsp := ?_, tx := ?_, completes := fun n hle => ?_,
           stalls := fun n e he => ?_ }
  · rw [hlive, State.deliver_rsp]
  · rw [hlive, State.deliver_tx]
  · obtain ⟨m, rfl⟩ := Nat.exists_eq_add_of_le' hle
    rw [hlive, ← State.deliver_onStalling]
    rfl
  · cases n with
    | zero =>
      obtain rfl : t = e := Option.some.inj he
      exact ⟨(List.append_nil _).symm, rfl, rfl⟩
    | succ n => exact nomatch he

theorem emit_emits {s : State} (h : s.Ready) (t : Tx) : Emits [t] (State.emit t) s :=
  (offerTx_emits h t).congr (State.emit_idle h.1 t) fun n => State.emit_idle (s := s.onStalling n) h.1 t

/-! ### The bodies of the commands -/

theorem gotoxy_cutsOff {s : State} (h : s.Ready) (x y : Byte) : CutsOff (gotoxy x y) s := by
  have hmoved : (s.moveTo (pixelPos x y)).Ready := h
  have hpage := emit_emits hmoved (Tx.setPage s.params (pixelPos x y))
  have hcol := hpage.andThen (offerTx_emits hpage.ready (Tx.setCol s.params (pixelPos x y)))
  have hboth := Emits.after (f := State.moveTo (pixelPos x y)) hcol rfl rfl fun _ => rfl
  exact ⟨_, hboth.congr rfl fun _ => rfl⟩

theorem advance_cutsOff {s : State} (h : s.Ready) : CutsOff advance s := by
  by_cases hc : s.cursor.col < 63
  · refine ⟨[], .silent ?_ ?_ ?_ fun n => ?_⟩
    · rw [advance_fast hc]; exact h
    · rw [advance_fast hc]
    · rw [advance_fast hc]
    · rw [advance_fast hc, advance_fast (s := s.onStalling n) hc]; rfl
  · obtain ⟨x, y, e, hp⟩ := advance_wrap hc
    refine (gotoxy_cutsOff h x y).congr e fun n => ?_
    obtain ⟨x', y', e', hp'⟩ := advance_wrap (s := s.onStalling n) hc
    rw [e', gotoxy_congr (hp'.trans hp.symm)]

theorem wrdata_cutsOff {s : State} (h : s.Ready) (d : Byte) (inv : Bit) : CutsOff (wrdata d inv) s := by
  have hdata : CutsOff (State.emit (Tx.data s.cursor.cs (dataByte d inv))) s := ⟨_, emit_emits h _⟩
  have hrest := hdata.andThen fun hr => CutsOff.after
    (f := fun u => (u.writeCache u.cursor.offset (dataByte d inv)).markClean (s.lcd.target s.cursor.cs)
      (dataByte d inv)) (advance_cutsOff hr) rfl rfl fun _ => rfl
  exact hrest.congr rfl fun _ => rfl

theorem State.andThen_congr {s : State} {f g : State → State} (h : f s = g s) : s.andThen f = s.andThen g := by
  unfold State.andThen
  rw [h]

/-- Immediate SETPIX, line by line: the byte it fetches is the one at the pixel's address (42_setpixel.md R102). -/
theorem setpix_lines {s : State} (hi : s.Idle) (hb : s.batch = 0) (x y : Byte) (val : Bit) :
    setpix x y val s = (gotoxy x y s).andThen fun u =>
      (gotoxy x y u).andThen (wrdata (setBit (s.readCache (pixelAddr x y)) (pixelBit y) val) 0) := by
  have hbyte : (gotoxy x y s).readCache (gotoxy x y s).cursor.offset = s.readCache (pixelAddr x y) := by
    rw [gotoxy_readCache hi, gotoxy_cursor]
    rfl
  rw [setpix_immediate hb, setpixImmediate]
  dsimp only
  rw [gotoxy_clamp]
  exact State.andThen_congr (by rw [hbyte, gotoxy_clamp])

theorem setpix_cutsOff {s : State} (h : s.Ready) (x y : Byte) (val : Bit) : CutsOff (setpix x y val) s := by
  rcases bit_cases s.batch with hb | hb
  · have hwrite := (gotoxy_cutsOff h x y).andThen fun h₁ => (gotoxy_cutsOff h₁ x y).andThen fun h₂ =>
      wrdata_cutsOff h₂ (setBit (s.readCache (pixelAddr x y)) (pixelBit y) val) 0
    exact hwrite.congr (setpix_lines h.1 hb x y val) fun n => setpix_lines (s := s.onStalling n) h.1 hb x y val
  · refine ⟨[], .silent ?_ ?_ ?_ fun n => ?_⟩ <;> rw [setpix_deferred hb]
    · exact h
    · rw [setpix_deferred (s := s.onStalling n) hb]; rfl

theorem dwupdate_cutsOff {s : State} (h : s.Ready) (x y : Byte) : CutsOff (dwupdate x y) s := by
  rcases bit_cases s.batch with hb | hb
  · exact .unchanged h (dwupdate_noBatch hb x y) fun n => dwupdate_noBatch (s := s.onStalling n) hb x y
  · have hbox : CutsOff (State.setBox (s.box.widen x y)) s := .silent h rfl rfl fun _ => rfl
    exact hbox.congr (dwupdate_inBatch hb x y) fun n => dwupdate_inBatch (s := s.onStalling n) hb x y

/-! ### The flush -/

/-- A run of bytes does nothing to a blocked block, so that it can be sequenced. -/
theorem flushBytes_andThen (n : Nat) (s : State) : flushBytes n s = s.andThen (flushBytes n) := by
  rcases s.andThen_cases (flushBytes n) with ⟨-, e⟩ | ⟨o, ho, e⟩ <;> rw [e]
  exact flushBytes_blocked n ho

theorem flushRows_andThen (fuel : Nat) (yy : Byte) (s : State) :
    flushRows fuel yy s = s.andThen (flushRows fuel yy) := by
  rcases s.andThen_cases (flushRows fuel yy) with ⟨-, e⟩ | ⟨o, ho, e⟩ <;> rw [e]
  exact flushRows_blocked fuel yy ho

theorem flushBytes_succ {s : State} (hi : s.Idle) (n : Nat) :
    flushBytes (n + 1) s = (wrdata (s.readCache s.cursor.offset) 0 s).andThen (flushBytes n) := by
  rw [flushBytes, State.andThen_idle hi, flushBytes_andThen]

theorem flushBytes_cutsOff (n : Nat) : ∀ {s : State}, s.Ready → CutsOff (flushBytes n) s := by
  induction n with
  | zero => exact fun h => ⟨[], .silent h rfl rfl fun _ => rfl⟩
  | succ n ih =>
    intro s h
    have hfirst := (wrdata_cutsOff h (s.readCache s.cursor.offset) 0).andThen ih
    exact hfirst.congr (flushBytes_succ h.1 n) fun m => flushBytes_succ (s := s.onStalling m) h.1 n

theorem flushRow_idle {s : State} (hi : s.Idle) (yy : Byte) :
    flushRow yy s = (gotoxy s.box.left yy s).andThen (flushBytes ((s.box.right - s.box.left).toNat + 1)) := by
  rw [flushRow, State.andThen_idle hi]
  exact State.andThen_congr (by rw [(gotoxy_sameRest hi s.box.left yy).box])

theorem flushRow_cutsOff {s : State} (h : s.Ready) (yy : Byte) : CutsOff (flushRow yy) s := by
  have hrow := (gotoxy_cutsOff h s.box.left yy).andThen
    (flushBytes_cutsOff ((s.box.right - s.box.left).toNat + 1))
  exact hrow.congr (flushRow_idle h.1 yy) fun n => flushRow_idle (s := s.onStalling n) h.1 yy

theorem flushRows_succ (fuel : Nat) {s : State} {yy : Byte} (hle : yy ≤ s.box.bottom) :
    flushRows (fuel + 1) yy s = (flushRow yy s).andThen (flushRows fuel (yy + 8)) := by
  rw [flushRows, if_pos hle, flushRows_andThen]

theorem flushRows_past (fuel : Nat) {s : State} {yy : Byte} (hgt : ¬ yy ≤ s.box.bottom) :
    flushRows (fuel + 1) yy s = s := by
  rw [flushRows, if_neg hgt]

theorem flushRows_cutsOff (fuel : Nat) : ∀ {s : State} (yy : Byte), s.Ready → CutsOff (flushRows fuel yy) s := by
  induction fuel with
  | zero => exact fun _ h => .silent h rfl rfl fun _ => rfl
  | succ fuel ih =>
    intro s yy h
    by_cases hle : yy ≤ s.box.bottom
    · have hrows := (flushRow_cutsOff h yy).andThen (ih (yy + 8))
      exact hrows.congr (flushRows_succ fuel hle) fun n => flushRows_succ (s := s.onStalling n) fuel hle
    · exact .unchanged h (flushRows_past fuel hle) fun n => flushRows_past (s := s.onStalling n) fuel hle

theorem flushBox_nonempty {s : State} (hn : s.box.Nonempty) : flushBox s = flushRows 8 (s.box.top &&& 0xF8) s :=
  if_pos hn

theorem flushBox_degenerate {s : State} (hn : ¬ s.box.Nonempty) : flushBox s = s := if_neg hn

theorem flushBox_cutsOff {s : State} (h : s.Ready) : CutsOff flushBox s := by
  by_cases hn : s.box.Nonempty
  · exact (flushRows_cutsOff 8 (s.box.top &&& 0xF8) h).congr (flushBox_nonempty hn) fun n =>
      flushBox_nonempty (s := s.onStalling n) hn
  · exact .unchanged h (flushBox_degenerate hn) fun n => flushBox_degenerate (s := s.onStalling n) hn

/-- DWEND in a batch, line by line (43_coalescer.md R112). -/
theorem dwend_lines {s : State} (hb : s.batch = 1) :
    dwend s = ((flushBox (s.setBox s.box.clamp)).andThen
      (gotoxy (logX s.cursor.cs s.cursor.col) (logY s.cursor.page))).andThen (State.setBatch 0) :=
  if_pos hb

theorem dwend_cutsOff {s : State} (h : s.Ready) : CutsOff dwend s := by
  rcases bit_cases s.batch with hb | hb
  · exact .unchanged h (dwend_noBatch hb) fun n => dwend_noBatch (s := s.onStalling n) hb
  · have hflush := CutsOff.after (f := State.setBox s.box.clamp) (s := s) (flushBox_cutsOff h) rfl rfl fun _ => rfl
    have hback := hflush.andThen fun h₁ => gotoxy_cutsOff h₁ (logX s.cursor.cs s.cursor.col) (logY s.cursor.page)
    have hclose := hback.andThen (g := State.setBatch 0) fun h₂ => .silent h₂ rfl rfl fun _ => rfl
    exact hclose.congr (dwend_lines hb) fun n => dwend_lines (s := s.onStalling n) hb

theorem dwstart_cutsOff {s : State} (h : s.Ready) : CutsOff dwstart s := by
  have hopen := (dwend_cutsOff h).andThen (g := fun u => (u.setBox Box.empty).setBatch 1) fun h₁ =>
    .silent h₁ rfl rfl fun _ => rfl
  exact hopen.congr (dwstart_eq s) fun n => dwstart_eq (s.onStalling n)

/-! ### The commands -/

theorem State.respond_onStalling (n : Nat) (v : Byte) (s : State) :
    (s.onStalling n).respond v = (s.respond v).onStalling n := by
  cases ho : s.offer <;> cases hr : s.reader.accept <;>
    simp [State.respond, State.andThen, State.offerRsp, State.onStalling, ho, hr]

theorem rddata_onStalling (n : Nat) (s : State) : rddata (s.onStalling n) = (rddata s).onStalling n :=
  State.respond_onStalling n _ s

theorem bodyOf_cutsOff {i : Instr} (hn : i ≠ .rddata) {s : State} (h : s.Ready) : CutsOff (bodyOf i) s := by
  cases i with
  | gotoxy x y => exact gotoxy_cutsOff h x y
  | wrdata d inv => exact wrdata_cutsOff h d inv
  | rddata => exact absurd rfl hn
  | setpix x y val => exact setpix_cutsOff h x y val
  | dwstart => exact dwstart_cutsOff h
  | dwupdate x y => exact dwupdate_cutsOff h x y
  | dwend => exact dwend_cutsOff h

/-- Settles O55: the bodies are sequences of lines that each emit at most one transaction (`bodyOf_cutsOff`); RDDATA
emits none and may wait for the host (`rddata_onStalling`). -/
theorem stallCutsTheCommandOff : Obligations.StallCutsTheCommandOff := by
  intro i s n hi hlive
  have hi' : (s.onStalling n).Idle := hi
  by_cases hrd : i = .rddata
  · have htx : (rddata s).tx = s.tx ++ [] := by rw [rddata, State.respond_eq, List.append_nil]
    subst hrd
    exact ⟨rddata s, rddata (s.onStalling n), [], exec_idle hi _, exec_idle hi' _, htx,
      fun _ => rddata_onStalling n s, nofun⟩
  · obtain ⟨es, h⟩ := bodyOf_cutsOff hrd ⟨hi, hlive⟩
    exact ⟨bodyOf i s, bodyOf i (s.onStalling n), es, exec_idle hi i, exec_idle hi' i, h.tx, h.completes n,
      h.stalls n⟩

end Sys2Proof.Machine
end


section
/-! SUPPORT. Where a stalled command stands (60_exceptions.md R127): GOTOXY, WRDATA and immediate SETPIX by the number
of transactions the transport still accepts. -/

namespace Sys2Proof.Machine

/-! ### GOTOXY -/

section

variable {s : State} (hi : s.Idle) (x y : Byte)
include hi

theorem gotoxy_stallsAfter_zero (ht : s.transport = .stallsAfter 0) :
    gotoxy x y s = { s with
      cursor := Cursor.ofPos (pixelPos x y), offer := some (.tx (Tx.setPage s.params (pixelPos x y))) } := by
  rcases gotoxy_cases hi x y with ⟨-, e⟩ | ⟨r, ha, -, -⟩ | ⟨r, r', ha, -, -⟩
  · exact e
  all_goals exact nomatch (ht ▸ ha : Receiver.accept (.stallsAfter 0) = some r)

theorem gotoxy_stallsAfter_one (ht : s.transport = .stallsAfter 1) :
    gotoxy x y s = { s with
      cursor := Cursor.ofPos (pixelPos x y), transport := .stallsAfter 0
      tx := s.tx ++ [Tx.setPage s.params (pixelPos x y)]
      lcd := s.lcd.receive s.params (Tx.setPage s.params (pixelPos x y))
      offer := some (.tx (Tx.setCol s.params (pixelPos x y))) } := by
  rcases gotoxy_cases hi x y with ⟨ha, -⟩ | ⟨r, ha, -, e⟩ | ⟨r, r', ha, ha', -⟩ <;> rw [ht] at ha
  · exact nomatch ha
  · obtain rfl : .stallsAfter 0 = r := Option.some.inj ha
    exact e
  · obtain rfl : .stallsAfter 0 = r := Option.some.inj ha
    exact nomatch ha'

/-- With one transaction or none left GOTOXY is cut off. -/
theorem gotoxy_cut_off {n : Nat} (ht : s.transport = .stallsAfter n) (hn : n ≤ 1) :
    ∃ e, (gotoxy x y s).offer = some (.tx e) := by
  obtain rfl | rfl : n = 0 ∨ n = 1 := by omega
  · rw [gotoxy_stallsAfter_zero hi x y ht]; exact ⟨_, rfl⟩
  · rw [gotoxy_stallsAfter_one hi x y ht]; exact ⟨_, rfl⟩

/-- With two transactions left it completes and uses them up. -/
theorem gotoxy_stallsAfter_add_two {n : Nat} (ht : s.transport = .stallsAfter (n + 2)) :
    (gotoxy x y s).Idle ∧ (gotoxy x y s).transport = .stallsAfter n := by
  rcases gotoxy_cases hi x y with ⟨ha, -⟩ | ⟨r, ha, ha', -⟩ | ⟨r, r', ha, ha', e⟩ <;> rw [ht] at ha
  · exact nomatch ha
  · obtain rfl : .stallsAfter (n + 1) = r := Option.some.inj ha
    exact nomatch ha'
  · obtain rfl : .stallsAfter (n + 1) = r := Option.some.inj ha
    obtain rfl : .stallsAfter n = r' := Option.some.inj ha'
    rw [e]
    exact ⟨hi, rfl⟩

end

/-! ### WRDATA -/

section

variable {s : State} (hi : s.Idle) (d : Byte) (inv : Bit)
include hi

theorem wrdata_stallsAfter_zero (ht : s.transport = .stallsAfter 0) :
    wrdata d inv s = { s with offer := some (.tx (Tx.data s.cursor.cs (dataByte d inv))) } := by
  rcases wrdata_cases hi d inv with ⟨-, e⟩ | ⟨r, ha, -⟩
  · exact e
  · exact nomatch (ht ▸ ha : Receiver.accept (.stallsAfter 0) = some r)

theorem wrdata_stallsAfter_succ {n : Nat} (ht : s.transport = .stallsAfter (n + 1)) :
    wrdata d inv s = advance (stored (dataByte d inv) { s with transport := .stallsAfter n }) := by
  rcases wrdata_cases hi d inv with ⟨ha, -⟩ | ⟨r, ha, e⟩ <;> rw [ht] at ha
  · exact nomatch ha
  · obtain rfl : .stallsAfter n = r := Option.some.inj ha
    exact e

end

@[simp] theorem stored_transport (v : Byte) (s : State) : (stored v s).transport = s.transport := by simp [stored]

@[simp] theorem stored_tx (v : Byte) (s : State) :
    (stored v s).tx = s.tx ++ [Tx.data s.cursor.cs v] := by simp [stored]

/-- The advance in column 63 with one transaction or none left: the cursor is at the next position, and the GOTOXY there
is cut off. -/
theorem advance_cut_off {s : State} (hi : s.Idle) (hcol : s.cursor.col = 63) {n : Nat}
    (ht : s.transport = .stallsAfter n) (hn : n ≤ 1) :
    (advance s).tx = s.tx ++ (gotoTxs s.params (nextPos s.cursor.pos)).take n ∧
      (advance s).offer = some (.tx (if n = 0 then Tx.setPage s.params (nextPos s.cursor.pos)
        else Tx.setCol s.params (nextPos s.cursor.pos))) := by
  obtain ⟨x, y, e, hp⟩ := advance_wrap (s := s) (by rw [hcol]; decide)
  rw [e, ← hp]
  obtain rfl | rfl : n = 0 ∨ n = 1 := by omega
  · rw [gotoxy_stallsAfter_zero hi x y ht]; exact ⟨(List.append_nil _).symm, rfl⟩
  · rw [gotoxy_stallsAfter_one hi x y ht]; exact ⟨rfl, rfl⟩

theorem wrdata_cut_off_in_wrap {s : State} (hi : s.Idle) (hcol : s.cursor.col = 63) {n : Nat}
    (ht : s.transport = .stallsAfter (n + 1)) (hn : n ≤ 1) (d : Byte) (inv : Bit) :
    (∀ a, (wrdata d inv s).readCache a = if a = s.cursor.offset then dataByte d inv else s.readCache a) ∧
      (wrdata d inv s).cursor = Cursor.ofPos (nextPos s.cursor.pos) ∧
      (wrdata d inv s).tx = s.tx ++ Tx.data s.cursor.cs (dataByte d inv) ::
        (gotoTxs s.params (nextPos s.cursor.pos)).take n ∧
      (wrdata d inv s).offer = some (.tx (if n = 0 then Tx.setPage s.params (nextPos s.cursor.pos)
        else Tx.setCol s.params (nextPos s.cursor.pos))) := by
  have hi' := stored_idle (s := { s with transport := .stallsAfter n }) hi (dataByte d inv)
  obtain ⟨htx, hoffer⟩ := advance_cut_off hi' (by rw [stored_cursor]; exact hcol) (stored_transport _ _) hn
  rw [wrdata_stallsAfter_succ hi d inv ht]
  refine ⟨fun a => ?_, ?_, ?_, ?_⟩
  · rw [State.readCache_congr (advance_memories hi').1 (advance_sameRest hi').resets, stored_readCache]
    rfl
  · rw [advance_cursor, stored_cursor, movedCursor, if_neg (by rw [hcol]; decide)]
  · rw [htx, stored_tx, stored_params, stored_cursor, List.append_assoc]
    rfl
  · rw [hoffer, stored_params, stored_cursor]

/-! ### Immediate SETPIX -/

/-- Each of the first five transactions of immediate SETPIX, those of its two GOTOXYs and the data of its WRDATA, finds
the cursor at the pixel's byte and CACHE as it was. -/
theorem setpix_cut_off {s : State} (hi : s.Idle) (hb : s.batch = 0) {n : Nat} (ht : s.transport = .stallsAfter n)
    (hn : n ≤ 4) (x y : Byte) (val : Bit) :
    ∃ e, (setpix x y val s).offer = some (.tx e) ∧ (setpix x y val s).cache = s.cache ∧
      (setpix x y val s).cursor = Cursor.ofPos (pixelPos x y) := by
  have hcache₁ : (gotoxy x y s).cache = s.cache := (gotoxy_memories hi x y).1
  rw [setpix_lines hi hb]
  by_cases hn₁ : n ≤ 1
  · obtain ⟨e, he⟩ := gotoxy_cut_off hi x y ht hn₁
    rw [State.andThen_blocked he]
    exact ⟨e, he, hcache₁, gotoxy_cursor x y s⟩
  obtain ⟨m, rfl⟩ : ∃ m, n = m + 2 := ⟨n - 2, by omega⟩
  obtain ⟨hi₁, ht₁⟩ := gotoxy_stallsAfter_add_two hi x y ht
  have hcache₂ : (gotoxy x y (gotoxy x y s)).cache = s.cache := (gotoxy_memories hi₁ x y).1.trans hcache₁
  rw [State.andThen_idle hi₁]
  by_cases hn₂ : m ≤ 1
  · obtain ⟨e, he⟩ := gotoxy_cut_off hi₁ x y ht₁ hn₂
    rw [State.andThen_blocked he]
    exact ⟨e, he, hcache₂, gotoxy_cursor x y _⟩
  obtain rfl : m = 0 + 2 := by omega
  obtain ⟨hi₂, ht₂⟩ := gotoxy_stallsAfter_add_two hi₁ x y ht₁
  rw [State.andThen_idle hi₂, wrdata_stallsAfter_zero hi₂ _ 0 ht₂]
  exact ⟨_, rfl, hcache₂, gotoxy_cursor x y _⟩

/-- Settles O56: GOTOXY and WRDATA by the number of transactions the transport still accepts, SETPIX by
`setpix_cut_off`. -/
theorem stalledCommandsStopBetweenLines : Obligations.StalledCommandsStopBetweenLines := by
  refine ⟨fun s x y hi ht => ?_, fun s x y hi ht => ?_, fun s d inv hi ht => ?_, fun s d inv n hi ht hn hcol => ?_,
    fun s x y val n hi hb ht hn => ?_⟩
  · exact (exec_idle hi _).trans (congrArg _ (gotoxy_stallsAfter_zero hi x y ht))
  · exact (exec_idle hi _).trans (congrArg _ (gotoxy_stallsAfter_one hi x y ht))
  · exact (exec_idle hi _).trans (congrArg _ (wrdata_stallsAfter_zero hi d inv ht))
  · exact ⟨wrdata d inv s, exec_idle hi _, wrdata_cut_off_in_wrap hi hcol ht hn d inv⟩
  · obtain ⟨e, h⟩ := setpix_cut_off hi hb ht hn x y val
    exact ⟨setpix x y val s, e, exec_idle hi _, h⟩

end Sys2Proof.Machine
end


section
/-! SUPPORT. A flush that is cut off (43_coalescer.md R112, 60_exceptions.md R125, R127): the batch stays open, and the
word on offer belongs to the position of the cursor. -/

namespace Sys2Proof.Machine

/-! ### What is on offer -/

/-- What a flush of the box `b` may leave on offer: set page or set column of the cursor's position, or the CACHE byte
under a cursor that the box covers. -/
def OfferAtCursor (b : Box) (s : State) : Prop :=
  ∀ e, s.offer = some (.tx e) → (e.dc = 0 → e ∈ gotoTxs s.params s.cursor.pos) ∧
    (e.dc = 1 → e = Tx.data s.cursor.cs (s.readCache s.cursor.offset) ∧ b.Covers s.cursor.offset)

theorem OfferAtCursor.of_idle {s : State} (h : s.Idle) (b : Box) : OfferAtCursor b s :=
  fun _ he => nomatch h.symm.trans he

/-- A command on offer need only be one of the two of the cursor's position. -/
theorem OfferAtCursor.of_command {s : State} {t : Tx} (h : s.offer = some (.tx t)) (hdc : t.dc = 0)
    (ht : t ∈ gotoTxs s.params s.cursor.pos) (b : Box) : OfferAtCursor b s := by
  intro e he
  obtain rfl : t = e := Offer.tx.inj (Option.some.inj (h.symm.trans he))
  exact ⟨fun _ => ht, fun h1 => absurd h1 (bit_ne_one.mpr hdc)⟩

theorem gotoxy_offerAtCursor {s : State} (hi : s.Idle) (x y : Byte) (b : Box) : OfferAtCursor b (gotoxy x y s) := by
  rcases gotoxy_cases hi x y with ⟨-, e⟩ | ⟨r, -, -, e⟩ | ⟨r, r', -, -, e⟩ <;> rw [e]
  · exact .of_command rfl rfl List.mem_cons_self b
  · exact .of_command rfl rfl (List.mem_cons_of_mem _ List.mem_cons_self) b
  · exact .of_idle (by exact hi) b

theorem advance_offerAtCursor {s : State} (hi : s.Idle) (b : Box) : OfferAtCursor b (advance s) := by
  rcases advance_cases s with ⟨-, e⟩ | ⟨-, x, y, e, -⟩ <;> rw [e]
  · exact .of_idle (by exact hi) b
  · exact gotoxy_offerAtCursor hi x y b

/-- WRDATA of the byte under the cursor, at a position the box covers. -/
theorem wrdata_offerAtCursor {s : State} (hi : s.Idle) {b : Box} (hc : b.Covers s.cursor.offset) :
    OfferAtCursor b (wrdata (s.readCache s.cursor.offset) 0 s) := by
  rcases wrdata_cases hi (s.readCache s.cursor.offset) 0 with ⟨-, e⟩ | ⟨r, -, e⟩ <;> rw [e]
  · intro t ht
    obtain rfl := Offer.tx.inj (Option.some.inj ht)
    exact ⟨nofun, fun _ => ⟨rfl, hc⟩⟩
  · exact advance_offerAtCursor (stored_idle (s := { s with transport := r }) hi _) b

/-! ### The cursor of a flush -/

/-- A WRDATA that completes leaves the cursor at the next position. -/
theorem wrdata_completes_cursor {s : State} (hi : s.Idle) {p : Pos} (hc : s.cursor = Cursor.ofPos p) {d : Byte}
    {inv : Bit} (hdone : (wrdata d inv s).Idle) : (wrdata d inv s).cursor = Cursor.ofPos (nextPos p) := by
  rcases wrdata_cases hi d inv with ⟨-, e⟩ | ⟨r, -, e⟩ <;> rw [e] at hdone ⊢
  · exact nomatch hdone
  · rw [advance_cursor, stored_cursor]
    exact (congrArg movedCursor hc).trans (movedCursor_ofPos p)

/-- A run of bytes over covered positions, the first of them at the cursor. -/
theorem flushBytes_offerAtCursor (b : Box) (n : Nat) : ∀ {s : State} {p : Pos}, OfferAtCursor b s →
    s.cursor = Cursor.ofPos p → (∀ k < n, b.Covers (cacheOffset (nextPos^[k] p))) →
    OfferAtCursor b (flushBytes n s) := by
  induction n with
  | zero => exact fun hs _ _ => hs
  | succ n ih =>
    intro s p hs hc hcov
    rw [flushBytes_andThen]
    refine State.andThen_keeps hs fun hi _ => ?_
    rw [flushBytes_succ hi]
    have hfirst : b.Covers s.cursor.offset := by rw [hc]; exact hcov 0 (Nat.succ_pos n)
    refine State.andThen_keeps (wrdata_offerAtCursor hi hfirst) fun hi' h' => ?_
    exact ih h' (wrdata_completes_cursor hi hc hi') fun k hk => hcov (k + 1) (Nat.succ_lt_succ hk)

theorem pixelPos_row {x : Byte} (hx : x.toNat ≤ 127) {p : Nat} (hp : p ≤ 7) :
    pixelPos x (BitVec.ofNat 8 (8 * p)) = canvasAt x.toNat p := by
  have hy : (BitVec.ofNat 8 (8 * p)).toNat = 8 * p := by simp; omega
  rw [pixelPos, canvasAt, clampX_of_le hx, clampY_of_le (by omega), BitVec.ofNat_toNat, BitVec.setWidth_eq]

theorem Box.OnCanvas.rowBytes_eq {b : Box} (hb : b.OnCanvas) : (b.right - b.left).toNat + 1 = b.rowBytes := by
  rw [Box.rowBytes, BitVec.toNat_sub_of_le (show b.left ≤ b.right from hb.lr)]

/-- The box covers the bytes of its rows (43_coalescer.md R113). -/
theorem Box.OnCanvas.covers_row {b : Box} (hb : b.OnCanvas) {p k : Nat} (hp : b.top.toNat / 8 ≤ p)
    (hp' : p ≤ b.bottom.toNat / 8) (hk : k < b.rowBytes) :
    b.Covers (cacheOffset (nextPos^[k] (canvasAt b.left.toNat p))) := by
  have hlr := hb.lr; have hr := hb.right; have hbt := hb.bottom
  have hn : b.rowBytes = b.right.toNat - b.left.toNat + 1 := rfl
  rw [nextPos_iterate_canvasAt (by omega) k (by omega), ← covers_iff hb]
  exact ⟨p - b.top.toNat / 8, by omega, k, hk, by rw [Nat.add_sub_cancel' hp]⟩

theorem flushRow_offerAtCursor {s : State} (hb : s.box.OnCanvas) (hs : OfferAtCursor s.box s) {p : Nat}
    (hp : s.box.top.toNat / 8 ≤ p) (hp' : p ≤ s.box.bottom.toNat / 8) :
    OfferAtCursor s.box (flushRow (BitVec.ofNat 8 (8 * p)) s) := by
  have hlr := hb.lr; have hr := hb.right; have hbt := hb.bottom
  rcases s.andThen_cases (flushRow (BitVec.ofNat 8 (8 * p))) with ⟨hi, -⟩ | ⟨o, ho, -⟩
  swap
  · rw [flushRow_blocked ho]; exact hs
  have hc : (gotoxy s.box.left (BitVec.ofNat 8 (8 * p)) s).cursor = Cursor.ofPos (canvasAt s.box.left.toNat p) := by
    rw [gotoxy_cursor, pixelPos_row (by omega) (by omega)]
  rw [flushRow_idle hi, hb.rowBytes_eq]
  exact State.andThen_keeps (gotoxy_offerAtCursor hi _ _ _) fun _ h =>
    flushBytes_offerAtCursor s.box _ h hc fun k hk => hb.covers_row hp hp' hk

/-- The rows from page `p` on; a row is flushed only down to `BOTTOM`. -/
theorem flushRows_offerAtCursor (fuel : Nat) : ∀ {s : State} {p : Nat}, s.box.OnCanvas → OfferAtCursor s.box s →
    s.box.top.toNat / 8 ≤ p → p ≤ 8 → OfferAtCursor s.box (flushRows fuel (BitVec.ofNat 8 (8 * p)) s) := by
  induction fuel with
  | zero => exact fun _ hs _ _ => hs
  | succ fuel ih =>
    intro s p hb hs hp hp8
    by_cases hle : BitVec.ofNat 8 (8 * p) ≤ s.box.bottom
    · have hle' : (BitVec.ofNat 8 (8 * p)).toNat ≤ s.box.bottom.toNat := hle
      rw [BitVec.toNat_ofNat] at hle'
      have hbt := hb.bottom
      have hp' : p ≤ s.box.bottom.toNat / 8 := by omega
      have hrow := flushRow_offerAtCursor hb hs hp hp'
      have hbox := flushRow_box (BitVec.ofNat 8 (8 * p)) s
      have hnext : BitVec.ofNat 8 (8 * p) + 8 = BitVec.ofNat 8 (8 * (p + 1)) := by
        rw [Nat.mul_succ, BitVec.ofNat_add]; rfl
      rw [flushRows, if_pos hle, hnext]
      rw [← hbox] at hb hrow hp ⊢
      exact ih hb hrow (Nat.le_succ_of_le hp) (by omega)
    · rw [flushRows_past fuel hle]; exact hs

theorem flushBox_offerAtCursor {s : State} (hi : s.Idle) (hb : s.box.Nonempty → s.box.OnCanvas) :
    OfferAtCursor s.box (flushBox s) := by
  by_cases hn : s.box.Nonempty
  · have hbox := hb hn
    have htb := hbox.tb; have hbt := hbox.bottom
    rw [flushBox_nonempty hn, and_f8]
    exact flushRows_offerAtCursor 8 hbox (.of_idle hi _) le_rfl (by omega)
  · rw [flushBox_degenerate hn]
    exact .of_idle hi _

/-- DWEND in a batch: a row of the flush, or the restoring GOTOXY. -/
theorem dwend_offerAtCursor {s : State} (hi : s.Idle) (hb : s.batch = 1) : OfferAtCursor s.box.clamp (dwend s) := by
  rw [dwend_lines hb]
  refine State.andThen_keeps (State.andThen_keeps ?_ fun hi₁ _ => gotoxy_offerAtCursor hi₁ _ _ _) fun hi₂ _ =>
    .of_idle hi₂ _
  exact flushBox_offerAtCursor (s := s.setBox s.box.clamp) hi Box.clamp_onCanvas

/-! ### The batch -/

/-- A DWEND that is cut off leaves the batch open and the box clamped. -/
theorem dwend_cut_off_batch {s : State} (hb : s.batch = 1) {o : Offer} (ho : (dwend s).offer = some o) :
    (dwend s).batch = 1 ∧ (dwend s).box = s.box.clamp := by
  refine ⟨?_, dwend_inBatch_box hb⟩
  obtain ⟨u, hu, e⟩ := dwend_inBatch hb
  rw [e] at ho ⊢
  rcases u.andThen_cases (State.setBatch 0) with ⟨hi, e'⟩ | ⟨o, -, e'⟩ <;> rw [e'] at ho ⊢
  · exact nomatch hi.symm.trans ho
  · exact hu.batch.trans hb

/-- A DWSTART is cut off exactly where the DWEND it begins with is. -/
theorem dwstart_cut_off {s : State} {o : Offer} (ho : (dwstart s).offer = some o ∨ (dwend s).offer = some o) :
    dwstart s = dwend s := by
  rw [dwstart_eq] at ho ⊢
  rcases (dwend s).andThen_cases (fun u => (u.setBox Box.empty).setBatch 1) with ⟨hi, e⟩ | ⟨o, -, e⟩ <;>
    rw [e] at ho ⊢
  exact ho.elim (fun h => nomatch hi.symm.trans h) fun h => nomatch hi.symm.trans h

theorem bodyOf_flush_cut_off {s : State} {i : Instr} (hflush : i = .dwend ∨ i = .dwstart) {o : Offer}
    (ho : (bodyOf i s).offer = some o ∨ (dwend s).offer = some o) : bodyOf i s = dwend s := by
  rcases hflush with rfl | rfl
  · rfl
  · exact dwstart_cut_off ho

/-- When the first GOTOXY of a flush is cut off, the flush is that GOTOXY (43_coalescer.md R112). -/
theorem flushBox_cut_off_at_once {s : State} (hi : s.Idle) (hn : s.box.Nonempty) {o : Offer}
    (ho : (gotoxy s.box.left (s.box.top &&& 0xF8) s).offer = some o) :
    flushBox s = gotoxy s.box.left (s.box.top &&& 0xF8) s := by
  have hle : s.box.top &&& 0xF8 ≤ s.box.bottom := by
    rw [BitVec.le_def, BitVec.toNat_and]
    exact Nat.and_le_left.trans hn.2
  rw [flushBox_nonempty hn, flushRows_succ 7 hle, flushRow_idle hi, State.andThen_blocked ho, State.andThen_blocked ho]

theorem dwend_stallsAfter_zero {s : State} (hi : s.Idle) (hb : s.batch = 1) (hn : s.box.clamp.Nonempty)
    (ht : s.transport = .stallsAfter 0) :
    dwend s = { s with
      box := s.box.clamp, cursor := Cursor.ofPos (canvasAt s.box.left.toNat (s.box.top.toNat / 8))
      offer := some (.tx (Tx.setPage s.params (canvasAt s.box.left.toNat (s.box.top.toNat / 8)))) } := by
  obtain ⟨hlr, htb, hr, hbt⟩ := Box.clamp_onCanvas hn
  have hpos : pixelPos s.box.left (s.box.top &&& 0xF8) = canvasAt s.box.left.toNat (s.box.top.toNat / 8) := by
    have hpage : s.box.top.toNat ≤ 63 := htb.trans hbt
    rw [and_f8]
    exact pixelPos_row (hlr.trans hr) (by omega)
  have hgoto := gotoxy_stallsAfter_zero (s := s.setBox s.box.clamp) hi s.box.left (s.box.top &&& 0xF8) ht
  have ho := congrArg State.offer hgoto
  have hflush : flushBox (s.setBox s.box.clamp) = gotoxy s.box.left (s.box.top &&& 0xF8) (s.setBox s.box.clamp) :=
    flushBox_cut_off_at_once hi hn ho
  rw [dwend_lines hb, hflush, State.andThen_blocked ho, State.andThen_blocked ho, ← hpos]
  exact hgoto

/-- Settles O59: a DWSTART that is cut off is the DWEND it begins with; DWEND clears BATCH last, and its rows leave on
offer only what belongs to the cursor (`dwend_offerAtCursor`). -/
theorem stalledFlushStaysInTheBatch : Obligations.StalledFlushStaysInTheBatch := by
  refine ⟨fun s t i e hflush hi hb hx ho => ?_, fun s i hflush hi hb hn ht => ?_⟩
  · obtain rfl := eq_bodyOf_of_exec hi hx
    have hend := bodyOf_flush_cut_off hflush (.inl ho)
    rw [hend] at ho ⊢
    obtain ⟨hbatch, hbox⟩ := dwend_cut_off_batch hb ho
    obtain ⟨hcommand, hdata⟩ := dwend_offerAtCursor hi hb e ho
    have hparams : (dwend s).params = s.params := (dwend_frame s).params
    rw [hparams] at hcommand
    rw [dwend_readCache] at hdata
    exact ⟨hbatch, hbox, dwend_readCache s, hcommand, hdata⟩
  · have he := dwend_stallsAfter_zero hi hb hn ht
    rw [exec_idle hi, bodyOf_flush_cut_off hflush (.inr (congrArg State.offer he)), he]

end Sys2Proof.Machine
end

section
/-! SUPPORT. RESET at any time and the way to a known display (70_reset_and_hazards.md R140 to R142): the step that
takes a RESET, what it does to the LCD, and a run of WRDATA of one byte under SYNC. -/

namespace Sys2Proof.Machine

/-! ### RESET -/

theorem step_reset {s : State} {r : ResetEvent} {rest : List HostEvent}
    (h : dueReset s.offer.isSome s.host = some (r, rest)) : step s = .next (({ s with host := rest }).takeReset r) := by
  rw [step, serve, h]

theorem lcdAtReset_of_noTx {s : State} (h : ∀ x, s.offer ≠ some (.tx x)) : s.lcdAtReset = s.lcd := by
  unfold State.lcdAtReset
  split
  · exact absurd ‹_› (h _)
  · rfl

/-- The transaction on offer reached the LCD, or it did not (93_implementation_defined.md U4). -/
theorem lcdAtReset_of_tx {s : State} {x : Tx} (h : s.offer = some (.tx x)) :
    s.lcdAtReset = s.lcd ∨ s.lcdAtReset = s.lcd.receive s.params x := by
  simp only [State.lcdAtReset, h]
  split
  · exact .inr rfl
  · exact .inl rfl

/-- Settles O9: the RESET is the one due (`dueReset_some`), the fields are the record's, and the LCD is `lcdAtReset`. -/
theorem resetIsTakenAtAnyTime : Obligations.ResetIsTakenAtAnyTime := by
  intro s r waiting rest hhost hwait
  have hbusy : waiting = [] ∨ s.offer.isSome = true := hwait.imp_right Option.isSome_iff_ne_none.mpr
  have hdue := dueReset_some r rest waiting hbusy
  rw [← hhost] at hdue
  exact ⟨_, step_reset hdue, rfl, rfl, rfl, rfl, rfl, rfl, rfl, rfl, rfl, rfl, rfl, rfl, fun _ => rfl,
    fun h => lcdAtReset_of_noTx h, fun _ h => lcdAtReset_of_tx h⟩

/-! ### A run of WRDATA of one byte under SYNC -/

/-- The display has the byte `v` at an address, which is in VALID and not in DIRTY. -/
def State.Displays (v : Byte) (s : State) (a : CacheAddr) : Prop :=
  s.lcd.ramAt a = v ∧ a.toNat ∈ s.ghost.valid ∧ a.toNat ∉ s.ghost.dirty

/-- WRDATA of `v` under SYNC adds its address to those that display `v`. -/
theorem Wrote.displays {p : Pos} {v : Byte} {s t : State} (h : Wrote p v s t) (hs : s.Sync) {a : CacheAddr}
    (ha : a = cacheOffset p ∨ s.Displays v a) : t.Displays v a := by
  unfold State.Displays
  rw [h.shows hs, h.valid hs, h.dirty hs]
  rcases ha with rfl | ⟨hram, hvalid, hdirty⟩
  · exact ⟨if_pos rfl, .inl rfl, fun hd => hd.2 rfl⟩
  · exact ⟨by rw [hram, ite_self], .inr hvalid, fun hd => hdirty hd.1⟩

/-- What a run of `n` WRDATAs of the byte `v` from position `p` on does under SYNC: it keeps SYNC, and the `n`
addresses display `v`, with those that did before. -/
structure FilledRun (p : Pos) (v : Byte) (n : Nat) (s t : State) : Prop
    extends WroteRun p (List.replicate n v) s t where
  sync : t.Sync
  displays : ∀ a, (∃ k < n, a = cacheOffset (nextPos^[k] p)) ∨ s.Displays v a → t.Displays v a
  box : t.box = s.box
  batch : t.batch = s.batch

theorem execAll_fill {d : Byte} {inv : Bit} (n : Nat) : ∀ {s : State} {p : Pos}, s.Ready → s.params.Wf → s.Sync →
    s.cursor = Cursor.ofPos p → n ≤ 1024 → ∃ t, execAll (List.replicate n (.wrdata d inv)) s = .next t ∧
      FilledRun p (dataByte d inv) n s t := by
  induction n with
  | zero =>
    intro s p h _ hs hc _
    exact ⟨s, rfl, { WroteRun.nil h hc with
      sync := hs, displays := fun a ha => ha.resolve_left (by simp), box := rfl, batch := rfl }⟩
  | succ n ih =>
    intro s p h hwf hs hc hn
    have hw := wrdata_wrote h hc d inv
    obtain ⟨t, ht, hrun⟩ := ih hw.ready (hw.params ▸ hwf) (hw.sync hwf hs) hw.cursor (Nat.le_of_succ_le hn)
    refine ⟨t, (execAll_cons h.1 _ _).trans ht, { hw.run hrun.toWroteRun (by rw [List.length_replicate]; exact hn) with
      sync := hrun.sync, displays := fun a ha => hrun.displays a ?_
      box := hrun.box.trans hw.box, batch := hrun.batch.trans hw.batch }⟩
    rcases ha with ⟨_ | k, hk, ha⟩ | ha
    · exact .inr (hw.displays hs (.inl ha))
    · exact .inl ⟨k, Nat.lt_of_succ_lt_succ hk, ha⟩
    · exact .inr (hw.displays hs (.inr ha))

/-! ### The number of transactions of a run -/

theorem nextPos_col_toNat (p : Pos) : (nextPos p).col.toNat = (p.col.toNat + 1) % 64 := by
  have hp := p.col.isLt
  have hplace := visitIndex_nextPos p
  have hn := (nextPos p).col.isLt
  unfold visitIndex at hplace
  omega

/-- One transaction for each byte, and two for each wrap: those the run makes from its first column on. -/
theorem runTxs_length (c : Params) (vs : List Byte) : ∀ p : Pos,
    (runTxs c vs p).length = vs.length + 2 * ((p.col.toNat + vs.length) / 64) := by
  induction vs with
  | nil => intro p; have := p.col.isLt; simp only [runTxs, List.length_nil]; omega
  | cons v vs ih =>
    intro p
    have hcol : p.col = 63 ↔ p.col.toNat = 63 := BitVec.toNat_inj.symm
    have hlt := p.col.isLt
    rw [runTxs, List.length_append, dataTxs_length, ih, nextPos_col_toNat, List.length_cons]
    simp only [hcol]
    split <;> omega

/-! ### CLRALL -/

/-- 1024 steps of `next` from anywhere visit every address. -/
theorem exists_iterate_nextPos_address (p : Pos) (a : CacheAddr) : ∃ k < 1024, a = cacheOffset (nextPos^[k] p) := by
  obtain ⟨q, rfl⟩ := cacheOffset_surjective a
  obtain ⟨k, hk, hq, -⟩ := existsUnique_iterate_nextPos p q
  exact ⟨k, hk, by rw [hq]⟩

/-- A fill of 1024 bytes leaves its byte at every address, in CACHE and on the display. -/
theorem FilledRun.everywhere {p : Pos} {v : Byte} {s t : State} (h : FilledRun p v 1024 s t) (a : CacheAddr) :
    t.readCache a = v ∧ t.Displays v a := by
  obtain ⟨k, hk, rfl⟩ := exists_iterate_nextPos_address p a
  exact ⟨h.reads k v (by rw [List.getElem?_replicate, if_pos hk]), h.displays _ (.inl ⟨k, hk, rfl⟩)⟩

/-- Settles O50: GOTOXY gives SYNC at the origin, from where the fill goes once around (`FilledRun.everywhere`); it
makes 16 wraps (`runTxs_length`). -/
theorem clrallGivesAKnownDisplay : Obligations.ClrallGivesAKnownDisplay := by
  intro s hwf h
  have hg := gotoxy_flushed h 0 0
  have htx : (gotoxy 0 0 s).tx.length = s.tx.length + 2 := by
    rw [gotoxy_ready h]; exact List.length_append
  obtain ⟨t, ht, hfill⟩ := execAll_fill (d := 0) (inv := 0) 1024 hg.ready (hg.params ▸ hwf)
    (gotoxy_ready_sync h hwf 0 0) (gotoxy_cursor 0 0 s) le_rfl
  have hall := hfill.everywhere
  refine ⟨t, (execAll_cons h.1 _ _).trans ht, hfill.ready, hall, fun a _ _ => ?_, hfill.sync, ?_, ?_,
    hfill.box.trans hg.box, hfill.batch.trans hg.batch⟩
  · obtain ⟨hread, hram, -⟩ := hall a
    exact hread.trans hram.symm
  · rw [hfill.cursor, List.length_replicate, iterate_nextPos_1024]
    decide
  · have hcol : (pixelPos 0 0).col.toNat = 0 := by decide
    rw [hfill.tx, List.length_append, htx, runTxs_length, List.length_replicate, hcol]

end Sys2Proof.Machine
end
